-- ==== Sys2Proof/Word.lean ====
section
/-! DEFINITION. The words of the machine: bytes, 32-bit registers and command words, binary64 patterns. -/

namespace Sys2Proof

/-- One byte of local memory (20_memory R80). -/
abbrev Byte := BitVec 8

/-- A 32-bit register or command word (00_scope R6). -/
abbrev Word := BitVec 32

/-- A binary64 sample, as its 64-bit pattern (00_scope R6, R11). -/
abbrev F64 := BitVec 64

end Sys2Proof
end

