-- ==== Sys2Proof/Syntax.lean ====
section
/-! DEFINITION. The commands (30_encoding R114), one constructor per row of spec/opcode_table.json, and the raw fields of a
command word (30_encoding R111). -/

namespace Sys2Proof

/-- A descriptor number, an unsigned 4-bit field of a command (30_encoding R112). -/
abbrev DescNo := Fin 16

/-- A command with its operands (30_encoding R114, R118). -/
inductive Instr where
  | halt
  | nop
  | dec (rd rs1 : DescNo)
  | enc (rd rs1 : DescNo)
  | conv (rd rs1 rs2 : DescNo)
  | fir (rd rs1 rs2 : DescNo)
  | deconvT (rd rs1 rs2 : DescNo)
  | deconvF (rd rs1 rs2 : DescNo)
  | xcorr (rs1 rs2 : DescNo)
  deriving DecidableEq, Repr

/-- The fields of format CMD32 (30_encoding R111). -/
structure Fields where
  opc : BitVec 8
  rd : BitVec 4
  rs1 : BitVec 4
  rs2 : BitVec 4
  flg : BitVec 4
  rsv : BitVec 8
  deriving DecidableEq, Repr

end Sys2Proof
end

