-- ==== Sys2Proof/WellFormed.lean ====
section
/-! DEFINITION. Which raw fields are a command: the opcode is in the map, and every field that the map says must be 0 is 0
(30_encoding R114, R115, R116). -/

namespace Sys2Proof

/-- The OPC values of the opcode map (30_encoding R114). -/
def legalOpcodes : List (BitVec 8) := [0x00, 0x01, 0x10, 0x11, 0x20, 0x21, 0x22, 0x30]

/-- The OPC value is in the map (30_encoding R115). -/
def Fields.opcodeOk (f : Fields) : Bool := legalOpcodes.contains f.opc

/-- RD is 0 where the command has no destination: HALT, NOP, XCORR (30_encoding R114). -/
def Fields.rdOk (f : Fields) : Bool :=
  !([0x00, 0x01, 0x30].contains f.opc) || f.rd == 0

/-- RS1 is 0 where the command has no source: HALT, NOP (30_encoding R114). -/
def Fields.rs1Ok (f : Fields) : Bool :=
  !([0x00, 0x01].contains f.opc) || f.rs1 == 0

/-- RS2 is 0 where the command has no second source: HALT, NOP, DEC, ENC (30_encoding R114). -/
def Fields.rs2Ok (f : Fields) : Bool :=
  !([0x00, 0x01, 0x10, 0x11].contains f.opc) || f.rs2 == 0

/-- FLG[23:21] is 0, and bit 20 is 0 outside DECONV (30_encoding R111, R113). -/
def Fields.flgOk (f : Fields) : Bool :=
  f.flg == 0 || (f.opc == 0x22 && f.flg == 1)

/-- RSV is 0 (30_encoding R111). -/
def Fields.rsvOk (f : Fields) : Bool := f.rsv == 0

/-- Every check of 30_encoding R115 and R116. -/
def Fields.wellFormed (f : Fields) : Bool :=
  f.opcodeOk && f.rdOk && f.rs1Ok && f.rs2Ok && f.flgOk && f.rsvOk

end Sys2Proof
end

