-- ==== Sys2Proof/Decode.lean ====
section
/-! DEFINITION. Decoding a command word (40_command_execution R142) by the match and mask values of 30_encoding R114, and
after it the encoder, written from the field table 30_encoding R111 and the assembler table R118. -/

namespace Sys2Proof

/-- Why a word is no command (30_encoding R115, R116). -/
inductive DecodeError where
  /-- OPC is not in the opcode map. -/
  | illegalOpcode
  /-- OPC is in the map and a field that must be 0 is not. -/
  | reservedField
  deriving DecidableEq, Repr

/-- Field RD, RS1 or RS2: the unsigned number in the four bits from `lo` (30_encoding R112). -/
def descField (w : Word) (lo : Nat) : DescNo := ⟨(w.extractLsb' lo 4).toNat, (w.extractLsb' lo 4).isLt⟩

/-- A row of the opcode map: its command when the word has the row's match value under its mask (30_encoding R114). -/
def matchRow (w mask value : Word) (i : Instr) : Except DecodeError Instr :=
  if w &&& mask = value then .ok i else .error .reservedField

/-- 40_command_execution R142: the opcode is checked first, then the fields that must be 0. -/
def decode (w : Word) : Except DecodeError Instr :=
  let rd := descField w 8
  let rs1 := descField w 12
  let rs2 := descField w 16
  match (w.extractLsb' 0 8).toNat with
  | 0x00 => matchRow w 0xFFFFFFFF#32 0x00000000#32 .halt
  | 0x01 => matchRow w 0xFFFFFFFF#32 0x00000001#32 .nop
  | 0x10 => matchRow w 0xFFFF00FF#32 0x00000010#32 (.dec rd rs1)
  | 0x11 => matchRow w 0xFFFF00FF#32 0x00000011#32 (.enc rd rs1)
  | 0x20 => matchRow w 0xFFF000FF#32 0x00000020#32 (.conv rd rs1 rs2)
  | 0x21 => matchRow w 0xFFF000FF#32 0x00000021#32 (.fir rd rs1 rs2)
  | 0x22 => matchRow w 0xFFE000FF#32 0x00000022#32
      (if w.getLsbD 20 then .deconvF rd rs1 rs2 else .deconvT rd rs1 rs2)
  | 0x30 => matchRow w 0xFFF00FFF#32 0x00000030#32 (.xcorr rs1 rs2)
  | _ => .error .illegalOpcode

/-- The command word in four bytes of MEM, the first at the lowest address (20_memory R81); missing bytes count as 0. -/
def wordOfBytes (bs : List Byte) : Word :=
  bs.getD 3 0 ++ bs.getD 2 0 ++ bs.getD 1 0 ++ bs.getD 0 0

/-- The four bytes that hold a command word, low byte first (20_memory R81). -/
def bytesOfWord (w : Word) : List Byte :=
  [w.extractLsb' 0 8, w.extractLsb' 8 8, w.extractLsb' 16 8, w.extractLsb' 24 8]

/-- Decoding from bytes: total, and it consumes exactly four (30_encoding R110). -/
def decodeBytes (bs : List Byte) : Except DecodeError Instr := decode (wordOfBytes bs)

/-- The command that the decoder reads from an opcode-table word of `nbits` bits, the bits above them 0. -/
def decodeTableWord (nbits w : Nat) : Option Instr :=
  match decodeBytes (bytesOfWord (BitVec.ofNat 32 (w % 2 ^ nbits))) with
  | .ok i => some i
  | .error _ => none

/-! The encoder. -/

/-- A descriptor number as a 4-bit field (30_encoding R111). -/
def descBits (n : DescNo) : BitVec 4 := BitVec.ofNat 4 n.val

/-- The fields of a command (30_encoding R114, R118). -/
def Instr.fields : Instr → Fields
  | .halt => { opc := 0x00, rd := 0, rs1 := 0, rs2 := 0, flg := 0, rsv := 0 }
  | .nop => { opc := 0x01, rd := 0, rs1 := 0, rs2 := 0, flg := 0, rsv := 0 }
  | .dec rd rs1 => { opc := 0x10, rd := descBits rd, rs1 := descBits rs1, rs2 := 0, flg := 0, rsv := 0 }
  | .enc rd rs1 => { opc := 0x11, rd := descBits rd, rs1 := descBits rs1, rs2 := 0, flg := 0, rsv := 0 }
  | .conv rd rs1 rs2 =>
    { opc := 0x20, rd := descBits rd, rs1 := descBits rs1, rs2 := descBits rs2, flg := 0, rsv := 0 }
  | .fir rd rs1 rs2 =>
    { opc := 0x21, rd := descBits rd, rs1 := descBits rs1, rs2 := descBits rs2, flg := 0, rsv := 0 }
  | .deconvT rd rs1 rs2 =>
    { opc := 0x22, rd := descBits rd, rs1 := descBits rs1, rs2 := descBits rs2, flg := 0, rsv := 0 }
  | .deconvF rd rs1 rs2 =>
    { opc := 0x22, rd := descBits rd, rs1 := descBits rs1, rs2 := descBits rs2, flg := 1, rsv := 0 }
  | .xcorr rs1 rs2 => { opc := 0x30, rd := 0, rs1 := descBits rs1, rs2 := descBits rs2, flg := 0, rsv := 0 }

/-- The word with these fields (30_encoding R111). -/
def Fields.pack (f : Fields) : Word := f.rsv ++ f.flg ++ f.rs2 ++ f.rs1 ++ f.rd ++ f.opc

/-- The fields of a word (30_encoding R111). -/
def fieldsOfWord (w : Word) : Fields :=
  { opc := w.extractLsb' 0 8, rd := w.extractLsb' 8 4, rs1 := w.extractLsb' 12 4, rs2 := w.extractLsb' 16 4,
    flg := w.extractLsb' 20 4, rsv := w.extractLsb' 24 8 }

/-- A command is well formed when its fields are (30_encoding R115, R116). Descriptor numbers are in range by their type. -/
def Instr.wellFormed (i : Instr) : Bool := i.fields.wellFormed

/-- The command word of a command (30_encoding R118). -/
def encode (i : Instr) : Word := i.fields.pack

end Sys2Proof
end

