-- ==== Sys2Proof/Machine/Float64.lean ====
section
/-! DEFINITION. Binary64 arithmetic, bit exact (00_scope R12): IEEE 754-2008 binary64 under roundTiesToEven, no exception
flags, subnormals kept. A finite pattern is read as a whole number of units of 2^-1074, the least subnormal, so that sums
and products are exact integers and one function rounds them. -/

namespace Sys2Proof.Machine

/-! The patterns of the constants the rules name (00_scope R12). -/

/-- 1.0 -/
def f64One : F64 := 0x3FF0000000000000#64
/-- -1.0 -/
def f64MinusOne : F64 := 0xBFF0000000000000#64
/-- 0.75, the attenuation of CONV (00_scope R6). -/
def f64Attenuation : F64 := 0x3FE8000000000000#64
/-- 32768.0 = 2^15 -/
def f64TwoPow15 : F64 := 0x40E0000000000000#64
/-- 8388608.0 = 2^23 -/
def f64TwoPow23 : F64 := 0x4160000000000000#64
/-- The pattern that stands for a NaN result inside a command. No rule lets it be stored (log 11). -/
def f64Nan : F64 := 0x7FF8000000000000#64

/-! The fields of a pattern and its classification. -/

/-- The sign bit. -/
def fneg (x : F64) : Bool := x.msb
/-- The pattern without its sign bit, as a number. It grows with the magnitude. -/
def fmag (x : F64) : Nat := x.toNat % 2 ^ 63
/-- The biased exponent. -/
def fexp (x : F64) : Nat := fmag x / 2 ^ 52
/-- The fraction field. -/
def ffrac (x : F64) : Nat := fmag x % 2 ^ 52

/-- `isNaN` of 00_scope R12. -/
def isNaN (x : F64) : Bool := fexp x == 2047 && ffrac x != 0
/-- An infinity of either sign. -/
def isInf (x : F64) : Bool := fexp x == 2047 && ffrac x == 0
/-- `isFinite` of 00_scope R12. -/
def isFinite (x : F64) : Bool := fexp x != 2047

/-- The magnitude of a finite pattern, in units of 2^-1074. -/
def funits (x : F64) : Nat :=
  if fexp x = 0 then ffrac x else (2 ^ 52 + ffrac x) * 2 ^ (fexp x - 1)

/-- The value of a finite pattern, in units of 2^-1074. -/
def fvalue (x : F64) : Int := if fneg x then - (funits x : Int) else (funits x : Int)

/-! Rounding. -/

/-- The pattern with this sign and magnitude field. -/
def fpack (neg : Bool) (mag : Nat) : F64 := BitVec.ofNat 64 ((if neg then 2 ^ 63 else 0) + mag)

/-- The infinity of a sign. -/
def finf (neg : Bool) : F64 := fpack neg (2047 * 2 ^ 52)

/-- The zero of a sign. -/
def fzero (neg : Bool) : F64 := fpack neg 0

/-- The number of binary digits of a number; 0 for 0. -/
def bitLength (m : Nat) : Nat := if m = 0 then 0 else Nat.log2 m + 1

/-- How many low digits of `m` rounding drops: all beyond 53, and the `k` digits below one unit. -/
def roundShift (m k : Nat) : Nat := max (bitLength m - 53) k

/-- `m / 2^sh` to the nearest whole number, a tie to the even one (roundTiesToEven). -/
def roundQuotient (m sh : Nat) : Nat :=
  let q := m / 2 ^ sh
  let r := m % 2 ^ sh
  if 2 ^ sh < 2 * r ∨ (2 * r = 2 ^ sh ∧ q % 2 = 1) then q + 1 else q

/-- The magnitude field of the rounded number, before the check for overflow. Rounding that carries out of 53 digits
carries into the exponent field. -/
def roundMag (m k : Nat) : Nat :=
  (roundShift m k - k) * 2 ^ 52 + roundQuotient m (roundShift m k)

/-- The binary64 nearest to `± m / 2^k` units of 2^-1074, ties to even; beyond the range, the infinity of the sign. -/
def fround (neg : Bool) (m k : Nat) : F64 :=
  if 2047 * 2 ^ 52 ≤ roundMag m k then finf neg else fpack neg (roundMag m k)

/-! The operations of 00_scope R12. -/

/-- `fadd`. An exact zero sum is +0.0 unless both operands are -0.0. -/
def fadd (a b : F64) : F64 :=
  if isNaN a || isNaN b then f64Nan
  else if isInf a then (if isInf b && fneg a != fneg b then f64Nan else a)
  else if isInf b then b
  else
    let v := fvalue a + fvalue b
    if v = 0 then fzero (fneg a && fneg b) else fround (decide (v < 0)) v.natAbs 0

/-- `fmul`. -/
def fmul (a b : F64) : F64 :=
  let neg := fneg a != fneg b
  if isNaN a || isNaN b then f64Nan
  else if isInf a then (if fmag b = 0 then f64Nan else finf neg)
  else if isInf b then (if fmag a = 0 then f64Nan else finf neg)
  else fround neg (funits a * funits b) 1074

/-- `fdiv`. The quotient keeps one digit below a unit, and a last digit that is 1 when a remainder is left, so that
rounding it gives what rounding the exact quotient gives. -/
def fdiv (a b : F64) : F64 :=
  let neg := fneg a != fneg b
  if isNaN a || isNaN b then f64Nan
  else if isInf a then (if isInf b then f64Nan else finf neg)
  else if isInf b then fzero neg
  else if fmag b = 0 then (if fmag a = 0 then f64Nan else finf neg)
  else
    let n := funits a * 2 ^ 1075
    let q := n / funits b
    let sticky := if n % funits b = 0 then 0 else 1
    fround neg (2 * q + sticky) 2

/-- `fabs`: the sign bit cleared. -/
def fabs (x : F64) : F64 := fpack false (fmag x)

/-- A number that orders patterns other than NaN as their values are ordered; both zeros have 0. -/
def fkey (x : F64) : Int := if fneg x then - (fmag x : Int) else (fmag x : Int)

/-- `flt`, a quiet comparison: false when either operand is NaN. -/
def flt (a b : F64) : Bool := !isNaN a && !isNaN b && decide (fkey a < fkey b)
/-- `fle`. -/
def fle (a b : F64) : Bool := !isNaN a && !isNaN b && decide (fkey a ≤ fkey b)
/-- `feq`. -/
def feq (a b : F64) : Bool := !isNaN a && !isNaN b && decide (fkey a = fkey b)
/-- `fgt`. -/
def fgt (a b : F64) : Bool := flt b a
/-- `fge`. -/
def fge (a b : F64) : Bool := fle b a

/-- `i2f`: exact for |k| ≤ 2^53. -/
def i2f (k : Int) : F64 := fround (decide (k < 0)) (k.natAbs * 2 ^ 1074) 0

/-- `trunc`, for a finite pattern: the integer nearest in the direction of zero. -/
def ftrunc (x : F64) : Int :=
  if fneg x then - ((funits x / 2 ^ 1074 : Nat) : Int) else ((funits x / 2 ^ 1074 : Nat) : Int)

/-- `fsum` (00_scope R13): the left fold that starts from the first term. No rule sums over no terms. -/
def fsum : List F64 → F64
  | [] => fzero false
  | t :: ts => ts.foldl fadd t

end Sys2Proof.Machine
end

