-- ==== Sys2Proof/Config.lean ====
section
/-! DEFINITION. What an instance of the hardware fixes (00_scope R5 to R7, 10_state R43 to R45), the constants the rules
name, and the free values: opaque functions with no body, applied to a counter of draws or to an address. -/

namespace Sys2Proof

/-- The open parameters of an instance (00_scope R5). They are fixed for a run (10_state R31). -/
structure Params where
  /-- MEM_BYTES: the size of local memory in bytes. -/
  memBytes : Nat
  deriving DecidableEq, Repr

/-- The constraint of 00_scope R5 on MEM_BYTES. -/
abbrev Params.Valid (p : Params) : Prop :=
  p.memBytes % 8 = 0 ∧ 4096 ≤ p.memBytes ∧ p.memBytes ≤ 2 ^ 31

/-- The spec's default instance, MEM_BYTES = 0x00100000 (00_scope R5). DESIGN CHOICE, log 1. -/
def Params.default : Params := { memBytes := 0x00100000 }

/-- Register ID (10_state R43). -/
def Config.idValue : Word := 0x52495250#32

/-- Register VERSION (10_state R44). -/
def Config.versionValue : Word := 0x00010000#32

/-- The contents after power-on of the MEM byte at an address: any value, a draw per byte (70_reset R301; log 2). -/
opaque Config.powerOnByte : Nat → BitVec 8

/-- The byte of draw `k`, wherever a rule says that a MEM byte holds any value (log 5). -/
opaque Config.freeByte : Nat → BitVec 8

/-- The command word of draw `k`, fetched after a race (20_memory R90; log 7). Its draws have a counter of their own,
`State.wordDraws`. -/
opaque Config.freeWord : Nat → BitVec 32

/-- The bit of draw `k`: whether a host read during a run gives the value before or after the command (70_reset R305; log 9). -/
opaque Config.freeBit : Nat → BitVec 1

/-- The number of draw `k`: where a byte of a misaligned host access falls among the engine's turns, and how many turns of the
engine fall inside the access (20_memory R83; log 13). -/
opaque Config.freeCount : Nat → Nat

/-- Sign and payload of the NaN of draw `k`: the 52 bits of NAN_OUT that its constraint leaves open (00_scope R7; log 3). -/
opaque Config.nanOutBits : Nat → BitVec 52

end Sys2Proof
end

