-- ==== Sys2Proof/Machine/State.lean ====
section
/-! DEFINITION. The state of the machine as plain data (10_state R31), the reasons a step can stop, the turns of the agents
outside the engine (10_state R30, 70_reset R300), and the state after power-on reset (10_state R57). -/

namespace Sys2Proof.Machine

/-- Local memory: the bytes that have a known value, as (address, byte) pairs with strictly rising addresses. An address
that is not listed has no value here; what a read of it gives is `Config.powerOnByte` (70_reset R301; log 2). -/
abbrev Memory := List Host.Cell

/-- A signal descriptor (10_state R33). Of FMT only bits [16:0] exist, the others read 0 (10_state R38). -/
structure Desc where
  base : Word
  len : Word
  cap : Word
  rate : Word
  fmt : BitVec 17
  deriving DecidableEq, Repr

/-- Which buffer a descriptor describes: FMT.KIND (10_state R38). -/
inductive BufKind where
  | sample
  | pcm
  deriving DecidableEq, Repr

/-- The operand role that an error records (10_state R49). -/
inductive Role where
  | none
  | rs1
  | rs2
  | rd
  deriving DecidableEq, Repr

/-- The command errors (60_exceptions R271). -/
inductive ErrName where
  | illegalOpcode
  | reservedField
  | cmdAlign
  | cmdRange
  | fmtDepth
  | fmtChannels
  | fmtLength
  | fmtKind
  | fmtRate
  | rateMismatch
  | amplitudeBounds
  | encRange
  | lengthMismatch
  | empty
  | peakDegenerate
  | numericNan
  | memRange
  | memAlign
  | dstCapacity
  | overlap
  deriving DecidableEq, Repr

/-- What `raise E(role, n, idx)` carries (00_scope R11, 60_exceptions R272). -/
structure CmdError where
  name : ErrName
  role : Role
  desc : DescNo
  index : Nat
  deriving DecidableEq, Repr

/-- The width of a host access (20_memory R83). -/
inductive AccessWidth where
  | w1
  | w2
  | w4
  | w8
  deriving DecidableEq, Repr

/-- One access of the host (10_state R30, 20_memory R80, R83): register accesses by the byte offset in the 4 KiB register
space, MEM accesses by the MEM byte address. `memReadByte` is one byte of a misaligned read that another agent may split
(20_memory R83; log 13): it takes its place `pos` in the value that the read returns. -/
inductive HostOp where
  | regRead (off : BitVec 12) (width : AccessWidth)
  | regWrite (off : BitVec 12) (width : AccessWidth) (value : Word)
  | memRead (addr : Word) (width : AccessWidth)
  | memReadByte (addr : Word) (pos : Fin 8)
  | memWrite (addr : Word) (width : AccessWidth) (value : BitVec 64)
  deriving DecidableEq, Repr

/-- What happens next: the engine moves, the host makes an access, or the platform asserts the reset input. -/
inductive Turn where
  | engine
  | host (op : HostOp)
  | reset
  deriving DecidableEq, Repr

/-- The whole state. The first fields are the spec's (10_state R31); the last six are the model's own (log 4, 5, 7, 12). -/
structure State where
  /-- The open parameters of the instance (00_scope R5); no step changes them. -/
  cfg : Params
  /-- MEM. -/
  mem : Memory
  /-- D[0..15]. -/
  descs : Vector Desc 16
  /-- STATUS.BUSY. -/
  busy : Bool
  /-- STATUS.DONE. -/
  done : Bool
  /-- STATUS.ERR. -/
  err : Bool
  /-- IRQ_EN.DONE_IE. -/
  doneIe : Bool
  /-- IRQ_EN.ERR_IE. -/
  errIe : Bool
  /-- CMD_PTR. -/
  cmdPtr : Word
  /-- ERR_CODE. -/
  errCode : Word
  /-- ERR_INDEX. -/
  errIndex : Word
  /-- LAG. -/
  lag : Word
  /-- CMDS_DONE. -/
  cmdsDone : Word
  /-- Model: the turns still to come, the next one first. -/
  inbox : List Turn
  /-- Model: the value that the last host read returned. -/
  hostData : BitVec 64
  /-- Model: a host write has hit a used range of the running command. -/
  raced : Bool
  /-- Model: the MEM addresses that the host has written while BUSY = 1 since START. -/
  hostWrote : List Nat
  /-- Model: the number of the next draw of a free value. -/
  draws : Nat
  /-- Model: the number of the word that a race puts at CMD_PTR. It stays the same while a command runs, so that every
  look at a raced command sees one word (log 7, 9). -/
  wordDraws : Nat
  deriving DecidableEq, Repr

/-- The machine stops with a fault: never. Every failure of this hardware is a command error, a next state (60_exceptions
R270); the model has no fault, so this type has no constructor. -/
inductive Fault where
  deriving DecidableEq, Repr

/-- The model has no meaning for an instruction. -/
inductive Refusal where
  /-- Raised by an arm of `exec` that has no meaning yet. Safe: the machine stops where the hardware goes on. -/
  | notModelled (mnemonic : String)
  deriving DecidableEq, Repr

/-- A descriptor after reset: every field 0 (10_state R57). -/
def Desc.zero : Desc := { base := 0#32, len := 0#32, cap := 0#32, rate := 0#32, fmt := 0#17 }

/-- The machine after power-on reset (10_state R57, 70_reset R301, R303). MEM_BYTES is the spec's default (log 1); the
model's own fields hold the values that log 4, 5, 7 and 12 name. -/
def State.reset : State :=
  { cfg := Params.default
    mem := []
    descs := Vector.replicate 16 Desc.zero
    busy := false
    done := false
    err := false
    doneIe := false
    errIe := false
    cmdPtr := 0#32
    errCode := 0#32
    errIndex := 0#32
    lag := 0#32
    cmdsDone := 0#32
    inbox := []
    hostData := 0#64
    raced := false
    hostWrote := []
    draws := 0
    wordDraws := 0 }

end Sys2Proof.Machine
end

