-- ==== Sys2Proof/Machine/Ops.lean ====
section
/-! DEFINITION. The named operations over memory, descriptors and registers: reading and writing MEM (00_scope R11,
20_memory R81), drawing free bytes, the one action that records a command error (60_exceptions R272), the way back from it
(10_state R46, 60_exceptions R277), write-back and completion (40_command_execution R150, R151), and what a reset does to the
registers (10_state R57). -/

namespace Sys2Proof.Machine

/-! Local memory as a list of cells. -/

/-- The byte listed for an address, if one is. -/
def Memory.read? : Memory → Nat → Option Byte
  | [], _ => none
  | (x, b) :: m, a => if x = a then some b else Memory.read? m a

/-- Store a byte. The addresses stay strictly rising. -/
def Memory.set : Memory → Nat → Byte → Memory
  | [], a, v => [(a, v)]
  | (x, b) :: m, a, v =>
    if a < x then (a, v) :: (x, b) :: m
    else if a = x then (a, v) :: m
    else (x, b) :: Memory.set m a v

/-- Store bytes at rising addresses from `a`. -/
def Memory.setBytes : Memory → Nat → List Byte → Memory
  | m, _, [] => m
  | m, a, b :: bs => Memory.setBytes (Memory.set m a b) (a + 1) bs

/-- The canonical form: addresses strictly rising. An unlisted address has no value, so no entry repeats one (log 2). -/
abbrev Memory.wf (m : Memory) : Prop := List.Pairwise (fun p q => p.1 < q.1) m

/-- Every listed address is inside a memory of `n` bytes (20_memory R80). -/
abbrev Memory.below (m : Memory) (n : Nat) : Prop := ∀ c ∈ m, c.1 < n

/-! MEM as the rules read and write it. -/

/-- One byte of MEM. A byte that nothing has written holds its power-on draw (70_reset R301, R304; log 2). -/
def readByte (s : State) (a : Nat) : Byte := (s.mem.read? a).getD (Config.powerOnByte a)

/-- `MemRead(addr, n)`: n bytes, little-endian, as an unsigned number (00_scope R11). -/
def memRead (s : State) (a : Nat) : Nat → Nat
  | 0 => 0
  | n + 1 => (readByte s a).toNat + 256 * memRead s (a + 1) n

/-- The n low bytes of a number, low byte first (00_scope R11, 20_memory R81). -/
def leBytes : Nat → Nat → List Byte
  | 0, _ => []
  | n + 1, v => BitVec.ofNat 8 v :: leBytes n (v / 256)

/-- Store bytes in MEM from address `a`. -/
def memWrite (s : State) (a : Nat) (bs : List Byte) : State := { s with mem := s.mem.setBytes a bs }

/-- The bytes of `n` draws, from draw `k`. -/
def drawnBytes (k n : Nat) : List Byte := (List.range n).map fun i => Config.freeByte (k + i)

/-- The `n` bytes from address `a` hold any value afterwards: each takes a fresh draw (log 5). -/
def drawRange (s : State) (a n : Nat) : State :=
  { memWrite s a (drawnBytes s.draws n) with draws := s.draws + n }

/-! Descriptors. -/

/-- `D[n]` (10_state R33). -/
def State.desc (s : State) (n : DescNo) : Desc := s.descs[n.val]

/-- `D[n]` becomes `d`. -/
def setDesc (s : State) (n : DescNo) (d : Desc) : State := { s with descs := s.descs.set n.val d }

/-- FMT.CHAN (10_state R38). -/
def Desc.chan (d : Desc) : BitVec 8 := d.fmt.extractLsb' 0 8

/-- FMT.DEPTH (10_state R38). -/
def Desc.depth (d : Desc) : BitVec 8 := d.fmt.extractLsb' 8 8

/-- FMT.KIND (10_state R38). -/
def Desc.kind (d : Desc) : BufKind := if d.fmt.getLsbD 16 then .pcm else .sample

/-- The bit of FMT.KIND. -/
def BufKind.bit : BufKind → BitVec 1
  | .sample => 0#1
  | .pcm => 1#1

/-- The FMT of a result: one channel (40_command_execution R150). -/
def resultFmt (kind : BufKind) (depth : BitVec 8) : BitVec 17 := kind.bit ++ depth ++ 1#8

/-- Write-back (40_command_execution R150): LEN, RATE and FMT of the destination; BASE and CAP stay. -/
def writeBack (s : State) (rd : DescNo) (len : Nat) (rate : Word) (kind : BufKind) (depth : BitVec 8) : State :=
  setDesc s rd
    { base := (s.desc rd).base, len := BitVec.ofNat 32 len, cap := (s.desc rd).cap, rate := rate,
      fmt := resultFmt kind depth }

/-! Completion and errors. -/

/-- What completion does for every command (40_command_execution R151). -/
def complete (s : State) : State :=
  { s with cmdPtr := s.cmdPtr + 4#32, cmdsDone := s.cmdsDone + 1#32 }

/-- The code of an error (60_exceptions R271). -/
def ErrName.code : ErrName → BitVec 8
  | .illegalOpcode => 0x01
  | .reservedField => 0x02
  | .cmdAlign => 0x03
  | .cmdRange => 0x04
  | .fmtDepth => 0x10
  | .fmtChannels => 0x11
  | .fmtLength => 0x12
  | .fmtKind => 0x13
  | .fmtRate => 0x14
  | .rateMismatch => 0x20
  | .amplitudeBounds => 0x21
  | .encRange => 0x22
  | .lengthMismatch => 0x23
  | .empty => 0x24
  | .peakDegenerate => 0x25
  | .numericNan => 0x26
  | .memRange => 0x30
  | .memAlign => 0x31
  | .dstCapacity => 0x32
  | .overlap => 0x33

/-- The number of a role (10_state R49). -/
def Role.code : Role → BitVec 2
  | .none => 0
  | .rs1 => 1
  | .rs2 => 2
  | .rd => 3

/-- The ERR_CODE that an error records (60_exceptions R272). -/
def CmdError.word (e : CmdError) : Word :=
  0#18 ++ e.role.code ++ BitVec.ofNat 4 e.desc.val ++ e.name.code

/-- Raising an error: the one action of 60_exceptions R272. CMD_PTR, CMDS_DONE, LAG, DONE and every descriptor stay. -/
def raiseError (e : CmdError) (s : State) : State :=
  { s with busy := false, err := true, errCode := e.word, errIndex := BitVec.ofNat 32 e.index }

/-- An error that names no operand (60_exceptions R271, ROLE and DESC 0). -/
def plainError (name : ErrName) (index : Nat) : CmdError :=
  { name := name, role := .none, desc := 0, index := index }

/-- A command after its checks: the first failing check raises its error, and with none the command has its effect
(40_command_execution R140). -/
def orRaise (first : Option CmdError) (s after : State) : State :=
  match first with
  | some e => raiseError e s
  | none => after

/-- The result bytes go to U_out, then write-back, then completion (40_command_execution R150, R151). -/
def finishInto (s : State) (rd : DescNo) (bytes : List Byte) (len : Nat) (rate : Word) (kind : BufKind)
    (depth : BitVec 8) : State :=
  complete (writeBack (memWrite s (s.desc rd).base.toNat bytes) rd len rate kind depth)

/-! Starting and resetting. -/

/-- START while idle: one atomic action (10_state R46). A new run has no race of its own yet, and a word of its own for
one (log 7). -/
def startRun (s : State) : State :=
  { s with
    done := false, err := false, errCode := 0#32, errIndex := 0#32, cmdsDone := 0#32, busy := true,
    raced := false, hostWrote := [], wordDraws := s.wordDraws + 1 }

/-- What either reset does to the registers and descriptors (10_state R57, 70_reset R301, R302). MEM, the instance's
parameters and the model's own schedule stay. -/
def resetRegisters (s : State) : State :=
  { s with
    descs := Vector.replicate 16 Desc.zero,
    busy := false, done := false, err := false, doneIe := false, errIe := false,
    cmdPtr := 0#32, errCode := 0#32, errIndex := 0#32, lag := 0#32, cmdsDone := 0#32,
    raced := false, hostWrote := [] }

end Sys2Proof.Machine
end

