-- ==== Sys2Proof/Machine/Operands.lean ====
section
/-! DEFINITION. The operands of the commands: the table of operand signatures (40_command_execution R143), the source, pair
and destination checks in their order (R145, R147, R148, R149), used ranges (R146), and the buffers that operands name
(00_scope R14). -/

namespace Sys2Proof.Machine

/-- A source column of 40_command_execution R143: which descriptor, of which kind, with or without checks 2 and 4
(`chanRate`), with or without check 7 (`nonempty`). -/
structure SrcSpec where
  desc : DescNo
  kind : BufKind
  chanRate : Bool
  nonempty : Bool
  deriving DecidableEq, Repr

/-- The output length of 40_command_execution R143: L1, or L1 + L2 - 1. -/
inductive OutLen where
  | same
  | full
  deriving DecidableEq, Repr

/-- The output column of 40_command_execution R143. -/
structure DstSpec where
  desc : DescNo
  kind : BufKind
  len : OutLen
  bpf : Nat
  deriving DecidableEq, Repr

/-- A row of the table of 40_command_execution R143. -/
structure OperandSig where
  src1 : Option SrcSpec
  src2 : Option SrcSpec
  rateMatch : Bool
  lenMatch : Bool
  dst : Option DstSpec
  deriving DecidableEq, Repr

/-- A sample source with every check, that may not be empty. -/
def fullSample (n : DescNo) : SrcSpec := { desc := n, kind := .sample, chanRate := true, nonempty := true }

/-- A sample result of 8 bytes per frame. -/
def sampleDst (n : DescNo) (len : OutLen) : DstSpec := { desc := n, kind := .sample, len := len, bpf := 8 }

/-- The row of DECONV, the same for both values of the mode bit. -/
def deconvSig (rd rs1 rs2 : DescNo) : OperandSig :=
  { src1 := some (fullSample rs1), src2 := some (fullSample rs2), rateMatch := true, lenMatch := false,
    dst := some (sampleDst rd .full) }

/-- The table of 40_command_execution R143. -/
def sigOf : Instr → OperandSig
  | .halt => { src1 := none, src2 := none, rateMatch := false, lenMatch := false, dst := none }
  | .nop => { src1 := none, src2 := none, rateMatch := false, lenMatch := false, dst := none }
  | .dec rd rs1 =>
    { src1 := some { desc := rs1, kind := .pcm, chanRate := true, nonempty := false }, src2 := none,
      rateMatch := false, lenMatch := false, dst := some (sampleDst rd .same) }
  | .enc rd rs1 =>
    { src1 := some { desc := rs1, kind := .sample, chanRate := true, nonempty := false }, src2 := none,
      rateMatch := false, lenMatch := false, dst := some { desc := rd, kind := .pcm, len := .same, bpf := 2 } }
  | .conv rd rs1 rs2 =>
    { src1 := some (fullSample rs1), src2 := some (fullSample rs2), rateMatch := true, lenMatch := false,
      dst := some (sampleDst rd .same) }
  | .fir rd rs1 rs2 =>
    { src1 := some (fullSample rs1),
      src2 := some { desc := rs2, kind := .sample, chanRate := false, nonempty := true },
      rateMatch := false, lenMatch := false, dst := some (sampleDst rd .same) }
  | .deconvT rd rs1 rs2 => deconvSig rd rs1 rs2
  | .deconvF rd rs1 rs2 => deconvSig rd rs1 rs2
  | .xcorr rs1 rs2 =>
    { src1 := some (fullSample rs1), src2 := some (fullSample rs2), rateMatch := true, lenMatch := true,
      dst := none }

/-- Bytes per frame (40_command_execution R144). The rule gives it for DEPTH 16 and 24; check 3 has passed before any
command uses it (log 15). -/
def Desc.bpf (d : Desc) : Nat :=
  match d.kind with
  | .sample => 8
  | .pcm => d.depth.toNat / 8

/-- How many bytes the frames of a descriptor take. -/
def Desc.usedBytes (d : Desc) : Nat := d.len.toNat * d.bpf

/-- Two intervals, each as its first address and its length, overlap: both non-empty and intersecting
(40_command_execution R146, 90_conflicts C8). -/
def overlaps (a n c m : Nat) : Bool :=
  decide (a < a + n) && decide (c < c + m) && decide (a < c + m) && decide (c < a + n)

/-- The error of a check that fails on an operand, with ERR_INDEX 0 (60_exceptions R271). -/
def operandFault (name : ErrName) (r : Role) (n : DescNo) : Option CmdError :=
  some { name := name, role := r, desc := n, index := 0 }

/-- The eight source checks in order (40_command_execution R145): the first that fails. -/
def checkSrc (s : State) (r : Role) (sp : SrcSpec) : Option CmdError :=
  let d := s.desc sp.desc
  if d.kind ≠ sp.kind then operandFault .fmtKind r sp.desc
  else if sp.chanRate = true ∧ d.chan ≠ 1#8 then operandFault .fmtChannels r sp.desc
  else if sp.kind = .pcm ∧ d.depth ≠ 16#8 ∧ d.depth ≠ 24#8 then operandFault .fmtDepth r sp.desc
  else if sp.chanRate = true ∧ d.rate = 0#32 then operandFault .fmtRate r sp.desc
  else if s.cfg.memBytes < d.base.toNat + d.cap.toNat then operandFault .memRange r sp.desc
  else if sp.kind = .sample ∧ d.base.toNat % 8 ≠ 0 then operandFault .memAlign r sp.desc
  else if sp.nonempty = true ∧ d.len = 0#32 then operandFault .empty r sp.desc
  else if d.cap.toNat < d.usedBytes then operandFault .fmtLength r sp.desc
  else none

/-- The source checks of a column of the table, if the command has that source. -/
def checkSrcOf (s : State) (r : Role) (sp : Option SrcSpec) : Option CmdError := sp.bind (checkSrc s r)

/-- The pair checks (40_command_execution R147): rate, then length; RS2 is named. -/
def checkPair (s : State) (sig : OperandSig) : Option CmdError :=
  match sig.src1, sig.src2 with
  | some a, some b =>
    if sig.rateMatch = true ∧ (s.desc a.desc).rate ≠ (s.desc b.desc).rate then
      operandFault .rateMismatch .rs2 b.desc
    else if sig.lenMatch = true ∧ (s.desc a.desc).len ≠ (s.desc b.desc).len then
      operandFault .lengthMismatch .rs2 b.desc
    else none
  | _, _ => none

/-- The frame count of a source, 0 where the command has none. -/
def srcLen (s : State) : Option SrcSpec → Nat
  | some a => (s.desc a.desc).len.toNat
  | none => 0

/-- The output length of a command (40_command_execution R143). -/
def outLength (s : State) (sig : OperandSig) : OutLen → Nat
  | .same => srcLen s sig.src1
  | .full => srcLen s sig.src1 + srcLen s sig.src2 - 1

/-- How many bytes a command writes (40_command_execution R146). -/
def outBytes (s : State) (sig : OperandSig) (d : DstSpec) : Nat := outLength s sig d.len * d.bpf

/-- U_out overlaps the used range of this source (40_command_execution R149). -/
def overlapsSrc (s : State) (base n : Nat) : Option SrcSpec → Bool
  | some a => overlaps base n (s.desc a.desc).base.toNat (s.desc a.desc).usedBytes
  | none => false

/-- The destination checks in order (40_command_execution R148, R149). -/
def checkDst (s : State) (sig : OperandSig) (sp : DstSpec) : Option CmdError :=
  let d := s.desc sp.desc
  if s.cfg.memBytes < d.base.toNat + d.cap.toNat then operandFault .memRange .rd sp.desc
  else if sp.kind = .sample ∧ d.base.toNat % 8 ≠ 0 then operandFault .memAlign .rd sp.desc
  else if d.cap.toNat < outBytes s sig sp then operandFault .dstCapacity .rd sp.desc
  else if overlapsSrc s d.base.toNat (outBytes s sig sp) sig.src1 = true ∨
      overlapsSrc s d.base.toNat (outBytes s sig sp) sig.src2 = true then operandFault .overlap .rd sp.desc
  else none

/-- Every operand check of a command, in the order of 40_command_execution R143: RS1, RS2, the pair, RD. -/
def operandError (s : State) (sig : OperandSig) : Option CmdError :=
  (((checkSrcOf s .rs1 sig.src1).or (checkSrcOf s .rs2 sig.src2)).or (checkPair s sig)).or
    (sig.dst.bind (checkDst s sig))

/-! The buffers. -/

/-- The sample buffer a descriptor names (00_scope R14). -/
def readSamples (s : State) (n : DescNo) : List F64 :=
  (List.range (s.desc n).len.toNat).map fun i => BitVec.ofNat 64 (memRead s ((s.desc n).base.toNat + 8 * i) 8)

/-- The frames, of `k` bytes each, of the PCM buffer a descriptor names (00_scope R14). -/
def readFrames (s : State) (n : DescNo) (k : Nat) : List Nat :=
  (List.range (s.desc n).len.toNat).map fun i => memRead s ((s.desc n).base.toNat + k * i) k

/-- The bytes of a sample buffer (20_memory R81). -/
def sampleBytes (xs : List F64) : List Byte := xs.flatMap fun x => leBytes 8 x.toNat

/-- A sample result with write-back and completion: RATE and DEPTH are those of RS1 (40_command_execution R150,
92_eei_decisions D24). -/
def finishSamples (s : State) (rd rs1 : DescNo) (xs : List F64) : State :=
  finishInto s rd (sampleBytes xs) xs.length (s.desc rs1).rate .sample (s.desc rs1).depth

/-- The first sample of a list that fails a test, as an error on an operand with its index (60_exceptions R271). -/
def firstOffender (bad : F64 → Bool) (name : ErrName) (r : Role) (n : DescNo) (xs : List F64) : Option CmdError :=
  (xs.findIdx? bad).map fun i => { name := name, role := r, desc := n, index := i }

/-! Used ranges of a whole command (40_command_execution R146). -/

/-- U_out of a command: its first address and its length; empty for a command without a destination. -/
def outRange (s : State) (i : Instr) : Nat × Nat :=
  match (sigOf i).dst with
  | some d => ((s.desc d.desc).base.toNat, outBytes s (sigOf i) d)
  | none => (0, 0)

/-- The used range of a source. -/
def srcRange (s : State) : Option SrcSpec → List (Nat × Nat)
  | some a => [((s.desc a.desc).base.toNat, (s.desc a.desc).usedBytes)]
  | none => []

/-- Every used range of a command. -/
def usedRanges (s : State) (i : Instr) : List (Nat × Nat) :=
  srcRange s (sigOf i).src1 ++ srcRange s (sigOf i).src2 ++ [outRange s i]

/-- The address lies in one of these ranges. -/
def inRanges (rs : List (Nat × Nat)) (a : Nat) : Bool := rs.any fun r => decide (r.1 ≤ a) && decide (a < r.1 + r.2)

end Sys2Proof.Machine
end

