-- ==== Sys2Proof/Machine/Codec.lean ====
section
/-! DEFINITION. The PCM codec commands DEC and ENC (41_pcm_codec). -/

namespace Sys2Proof.Machine

/-- A 16-bit frame as a sample: its signed value over 2^15 (41_pcm_codec R181). -/
def decodeFrame16 (w : Nat) : F64 := fdiv (i2f (BitVec.ofNat 16 w).toInt) f64TwoPow15

/-- A 24-bit frame as a sample: its signed value over 2^23 (41_pcm_codec R182). -/
def decodeFrame24 (w : Nat) : F64 := fdiv (i2f (BitVec.ofNat 24 w).toInt) f64TwoPow23

/-- The largest magnitude of a list that starts with this sample (41_pcm_codec R183). -/
def peakMagnitude (s0 : F64) (rest : List F64) : F64 :=
  rest.foldl (fun m x => if fgt (fabs x) m then fabs x else m) (fabs s0)

/-- The post-decode rescale (41_pcm_codec R183). -/
def rescale : List F64 → List F64
  | [] => []
  | s0 :: rest =>
    let m := peakMagnitude s0 rest
    if fgt m f64One then (s0 :: rest).map fun x => fmul x (fdiv f64One m) else s0 :: rest

/-- The samples of the PCM buffer a descriptor names, decoded by its DEPTH and rescaled (41_pcm_codec R181 to R183). -/
def decodedSamples (s : State) (n : DescNo) : List F64 :=
  rescale (if (s.desc n).depth = 16#8 then (readFrames s n 2).map decodeFrame16
    else (readFrames s n 3).map decodeFrame24)

/-- DEC (41_pcm_codec R180, R184). -/
def execDec (rd rs1 : DescNo) (s : State) : Host.Outcome State Fault Refusal :=
  .next (orRaise (operandError s (sigOf (.dec rd rs1))) s (finishSamples s rd rs1 (decodedSamples s rs1)))

/-- A sample that ENC refuses: its magnitude is not below 1.0 (41_pcm_codec R187). -/
def encOutOfRange (x : F64) : Bool := !flt (fabs x) f64One

/-- A sample as a 16-bit frame, truncated toward zero (41_pcm_codec R188). -/
def encodeSample (x : F64) : BitVec 16 := BitVec.ofInt 16 (ftrunc (fmul x f64TwoPow15))

/-- The bytes of the encoded frames (41_pcm_codec R188). -/
def frameBytes (xs : List F64) : List Byte := xs.flatMap fun x => leBytes 2 (encodeSample x).toNat

/-- ENC (41_pcm_codec R186, R189). -/
def execEnc (rd rs1 : DescNo) (s : State) : Host.Outcome State Fault Refusal :=
  let xs := readSamples s rs1
  .next (orRaise
    ((operandError s (sigOf (.enc rd rs1))).or (firstOffender encOutOfRange .encRange .rs1 rs1 xs)) s
    (finishInto s rd (frameBytes xs) xs.length (s.desc rs1).rate .pcm 16#8))

end Sys2Proof.Machine
end

