-- ==== Sys2Proof/Machine/Convolution.lean ====
section
/-! DEFINITION. The convolution unit: CONV, FIR, DECONV (42_convolution). -/

namespace Sys2Proof.Machine

/-- Sample `i` of a buffer. The rules index inside the buffer. -/
def sampleAt (xs : List F64) (i : Nat) : F64 := xs.getD i (fzero false)

/-- The sum of the products a[k-j] * b[j] for j ascending over max(0, k-A+1) ≤ j ≤ min(k, B-1) (42_convolution R210). -/
def convTerm (a b : List F64) (k : Nat) : F64 :=
  let lo := k + 1 - a.length
  let hi := min k (b.length - 1)
  fsum ((List.range' lo (hi + 1 - lo)).map fun j => fmul (sampleAt a (k - j)) (sampleAt b j))

/-- `fullconv` (42_convolution R210). -/
def fullconv (a b : List F64) : List F64 := (List.range (a.length + b.length - 1)).map (convTerm a b)

/-- The sum of the products x[n-j] * t[j] for j ascending over 0 ≤ j ≤ min(n, T-1) (42_convolution R213, R221). -/
def firTerm (x t : List F64) (n : Nat) : F64 :=
  fsum ((List.range (min n (t.length - 1) + 1)).map fun j => fmul (sampleAt x (n - j)) (sampleAt t j))

/-- A sample that CONV refuses: it is not in [-1.0, 1.0] (42_convolution R212). -/
def outOfBounds (x : F64) : Bool := !(fge x f64MinusOne && fle x f64One)

/-- CONV's amplitude check: the whole source before the impulse (42_convolution R212). -/
def amplitudeError (rs1 rs2 : DescNo) (src imp : List F64) : Option CmdError :=
  (firstOffender outOfBounds .amplitudeBounds .rs1 rs1 src).or
    (firstOffender outOfBounds .amplitudeBounds .rs2 rs2 imp)

/-- CONV's result: the sums times 0.75, one for each source sample (42_convolution R213). -/
def convOut (src imp : List F64) : List F64 :=
  (List.range src.length).map fun n => fmul (firTerm src imp n) f64Attenuation

/-- CONV (42_convolution R211, R214). -/
def execConv (rd rs1 rs2 : DescNo) (s : State) : Host.Outcome State Fault Refusal :=
  let src := readSamples s rs1
  let imp := readSamples s rs2
  .next (orRaise ((operandError s (sigOf (.conv rd rs1 rs2))).or (amplitudeError rs1 rs2 src imp)) s
    (finishSamples s rd rs1 (convOut src imp)))

/-- FIR's sums, one for each source sample (42_convolution R221). -/
def firOut (x t : List F64) : List F64 := (List.range x.length).map (firTerm x t)

/-- NAN_OUT of draw `k`: any quiet NaN (00_scope R7). -/
def nanOut (k : Nat) : F64 :=
  (Config.nanOutBits k).extractLsb' 51 1 ++ 0x7FF#11 ++ 1#1 ++ (Config.nanOutBits k).extractLsb' 0 51

/-- Each NaN of a result becomes NAN_OUT, drawn for each write (42_convolution R221, R223; log 3). -/
def replaceNans : Nat → List F64 → List F64
  | _, [] => []
  | k, y :: ys => if isNaN y then nanOut k :: replaceNans (k + 1) ys else y :: replaceNans k ys

/-- FIR (42_convolution R220, R221). -/
def execFir (rd rs1 rs2 : DescNo) (s : State) : Host.Outcome State Fault Refusal :=
  let ys := firOut (readSamples s rs1) (readSamples s rs2)
  .next (orRaise (operandError s (sigOf (.fir rd rs1 rs2))) s
    { finishSamples s rd rs1 (replaceNans s.draws ys) with draws := s.draws + ys.countP isNaN })

/-- The peak: the signed maximum, the first one on a tie (42_convolution R226). -/
def peakOf : List F64 → F64
  | [] => fzero false
  | c0 :: cs => cs.foldl (fun p c => if fgt c p then c else p) c0

/-- A convolution that cannot be normalized: a NaN in it, or a peak that is not positive and finite (42_convolution R226). -/
def peakDegenerate (c : List F64) : Bool :=
  c.any isNaN || !(isFinite (peakOf c) && fgt (peakOf c) (fzero false))

/-- DECONV's convolution with the time-reversed excitation (42_convolution R225). -/
def deconvSums (response excitation : List F64) : List F64 := fullconv response excitation.reverse

/-- Division by the peak (42_convolution R227). -/
def normalize (c : List F64) : List F64 := c.map fun x => fdiv x (peakOf c)

/-- DECONV, both methods (42_convolution R224 to R228). A degenerate peak is found after the convolution, so the bytes of
U_out hold any value then (R226, 60_exceptions R273). -/
def deconvolve (rd rs1 rs2 : DescNo) (s : State) : State :=
  let c := deconvSums (readSamples s rs1) (readSamples s rs2)
  orRaise (operandError s (deconvSig rd rs1 rs2)) s
    (if peakDegenerate c then
      raiseError { name := .peakDegenerate, role := .rd, desc := rd, index := 0 }
        (drawRange s (s.desc rd).base.toNat (8 * c.length))
    else finishSamples s rd rs1 (normalize c))

/-- DECONV.T (42_convolution R224, R228). -/
def execDeconvT (rd rs1 rs2 : DescNo) (s : State) : Host.Outcome State Fault Refusal :=
  .next (deconvolve rd rs1 rs2 s)

/-- DECONV.F: the same result by the same direct sum (42_convolution R228). -/
def execDeconvF (rd rs1 rs2 : DescNo) (s : State) : Host.Outcome State Fault Refusal :=
  .next (deconvolve rd rs1 rs2 s)

end Sys2Proof.Machine
end

