-- ==== Sys2Proof/Machine/Correlation.lean ====
section
/-! DEFINITION. The cross-correlation peak detector XCORR (43_correlation). -/

namespace Sys2Proof.Machine

/-- r(L): the sum of the products x[n] * y[n-L] for n ascending over max(0, L) ≤ n ≤ min(N-1, N-1+L), N the length of both
(43_correlation R251). -/
def corrTerm (x y : List F64) (lag : Int) : F64 :=
  let n : Int := x.length
  let lo := (max 0 lag).toNat
  let hi := min (n - 1) (n - 1 + lag)
  fsum ((List.range' lo (hi + 1 - lo).toNat).map fun (k : Nat) =>
    fmul (sampleAt x k) (sampleAt y ((k : Int) - lag).toNat))

/-- The lag at position j of the window of N lags (43_correlation R252). -/
def lagAt (n j : Nat) : Int := (j : Int) - ((n / 2 : Nat) : Int)

/-- The N correlations, in ascending order of the lag (43_correlation R251, R252). -/
def correlations (x y : List F64) : List F64 :=
  (List.range x.length).map fun j => corrTerm x y (lagAt x.length j)

/-- The position of the signed maximum, the first one on a tie (43_correlation R254). -/
def bestPosition (r : List F64) : Nat :=
  (List.range r.length).foldl (fun best j => if fgt (sampleAt r j) (sampleAt r best) then j else best) 0

/-- The NaN check, after all correlations: no role, no descriptor, the first position (43_correlation R253). -/
def nanError (r : List F64) : Option CmdError := (r.findIdx? isNaN).map (plainError .numericNan)

/-- XCORR's effect: LAG, then completion (43_correlation R255). -/
def finishLag (s : State) (lag : Int) : State := complete { s with lag := BitVec.ofInt 32 lag }

/-- XCORR (43_correlation R250). -/
def execXcorr (rs1 rs2 : DescNo) (s : State) : Host.Outcome State Fault Refusal :=
  let r := correlations (readSamples s rs1) (readSamples s rs2)
  .next (orRaise ((operandError s (sigOf (.xcorr rs1 rs2))).or (nanError r)) s
    (finishLag s (lagAt r.length (bestPosition r))))

end Sys2Proof.Machine
end

