-- ==== Sys2Proof/Machine/Flags.lean ====
section
/-! DEFINITION. The flags: STATUS, IRQ_EN and the irq output (10_state R47, R48, R55, 60_exceptions R275, R276). No command
sets a condition code. -/

namespace Sys2Proof.Machine

/-- The irq output, also read as STATUS.IRQ (60_exceptions R275). -/
def State.irq (s : State) : Bool := (s.done && s.doneIe) || (s.err && s.errIe)

/-- One flag as a bit. -/
def flagBit (b : Bool) : BitVec 1 := if b then 1#1 else 0#1

/-- STATUS as a host reads it (10_state R47). -/
def statusWord (s : State) : Word :=
  0#28 ++ flagBit s.irq ++ flagBit s.err ++ flagBit s.done ++ flagBit s.busy

/-- IRQ_EN as a host reads it (10_state R48). -/
def irqEnWord (s : State) : Word :=
  0#29 ++ flagBit s.errIe ++ flagBit s.doneIe ++ 0#1

/-- A host write of STATUS: writing 1 to DONE or ERR clears it, nothing else can be written (10_state R47). -/
def clearFlags (v : Word) (s : State) : State :=
  { s with done := s.done && !v.getLsbD 1, err := s.err && !v.getLsbD 2 }

/-- A host write of IRQ_EN: bits 1 and 2 exist (10_state R48). -/
def setIrqEn (v : Word) (s : State) : State :=
  { s with doneIe := v.getLsbD 1, errIe := v.getLsbD 2 }

/-- The flags of a completed HALT (40_command_execution R151, R152). -/
def haltFlags (s : State) : State := { s with busy := false, done := true }

end Sys2Proof.Machine
end

