-- ==== Sys2Proof/Machine/Sequencing.lean ====
section
/-! DEFINITION. The sequencing commands HALT and NOP (40_command_execution R152, R153). -/

namespace Sys2Proof.Machine

/-- HALT: completion, then BUSY <- 0 and DONE <- 1 (40_command_execution R151, R152). -/
def execHalt (s : State) : Host.Outcome State Fault Refusal := .next (haltFlags (complete s))

/-- NOP: completion (40_command_execution R153). -/
def execNop (s : State) : Host.Outcome State Fault Refusal := .next (complete s)

end Sys2Proof.Machine
end

