-- ==== Sys2Proof/Machine/Dispatch.lean ====
section
/-! DEFINITION. The meaning of every command: one arm per constructor (30_encoding R114). -/

namespace Sys2Proof.Machine

/-- `execute(cmd)` with its completion or its error (40_command_execution R140). -/
def exec (i : Instr) (s : State) : Host.Outcome State Fault Refusal :=
  match i with
  | .halt => Sys2Proof.Machine.execHalt s
  | .nop => Sys2Proof.Machine.execNop s
  | .dec rd rs1 => Sys2Proof.Machine.execDec rd rs1 s
  | .enc rd rs1 => Sys2Proof.Machine.execEnc rd rs1 s
  | .conv rd rs1 rs2 => Sys2Proof.Machine.execConv rd rs1 rs2 s
  | .fir rd rs1 rs2 => Sys2Proof.Machine.execFir rd rs1 rs2 s
  | .deconvT rd rs1 rs2 => Sys2Proof.Machine.execDeconvT rd rs1 rs2 s
  | .deconvF rd rs1 rs2 => Sys2Proof.Machine.execDeconvF rd rs1 rs2 s
  | .xcorr rs1 rs2 => Sys2Proof.Machine.execXcorr rs1 rs2 s

end Sys2Proof.Machine
end

