-- ==== Sys2Proof/Machine/Engine.lean ====
section
/-! DEFINITION. The engine's step: fetch, decode, execute (40_command_execution R140 to R142), and the step of a command
that a host access has raced (20_memory R90). -/

namespace Sys2Proof.Machine

/-- The checks of a fetch: alignment first, then range (40_command_execution R141). -/
def fetchError (s : State) : Option CmdError :=
  if s.cmdPtr.toNat % 4 ≠ 0 then some (plainError .cmdAlign 0)
  else if s.cfg.memBytes < s.cmdPtr.toNat + 4 then some (plainError .cmdRange 0)
  else none

/-- The four bytes at CMD_PTR. -/
def fetchedBytes (s : State) : List Byte := (List.range 4).map fun i => readByte s (s.cmdPtr.toNat + i)

/-- The error of a word that is no command (40_command_execution R142). -/
def decodeFault : DecodeError → CmdError
  | .illegalOpcode => plainError .illegalOpcode 0
  | .reservedField => plainError .reservedField 0

/-- Decode and execute (40_command_execution R140). -/
def runDecoded (c : Except DecodeError Instr) (s : State) : Host.Outcome State Fault Refusal :=
  match c with
  | .ok i => exec i s
  | .error e => .next (raiseError (decodeFault e) s)

/-- The running command is raced: a host write has hit one of its used ranges, or its command word (20_memory R90). -/
def wordRaced (s : State) : Bool :=
  s.raced || s.hostWrote.any fun a => decide (s.cmdPtr.toNat ≤ a) && decide (a < s.cmdPtr.toNat + 4)

/-- The command that the engine is running: the one at CMD_PTR (10_state R40); after a race its word holds any value,
the same value for every look at the command and for its step (20_memory R90; DESIGN CHOICE, log 7, 9). -/
def runningDecoded (s : State) : Except DecodeError Instr :=
  if wordRaced s then decode (Config.freeWord s.wordDraws) else decodeBytes (fetchedBytes s)

/-- After a raced command that completed, every byte it writes holds any value (20_memory R90). `before` is the state it
started from. -/
def scrambleOut (c : Except DecodeError Instr) (before after : State) : State :=
  match c with
  | .ok i =>
    if after.cmdPtr = before.cmdPtr then after
    else drawRange after (outRange before i).1 (outRange before i).2
  | .error _ => after

/-- The step of a raced command (20_memory R90; log 7): any word, and any value in every byte it writes.
The next raced command has a word of its own. -/
def racedStep (s : State) : Host.Outcome State Fault Refusal :=
  let s1 : State := { s with wordDraws := s.wordDraws + 1, raced := false }
  match runDecoded (runningDecoded s) s1 with
  | .next t => .next (scrambleOut (runningDecoded s) s1 t)
  | .fault r => .fault r
  | .refused r => .refused r

/-- One step of the running engine (40_command_execution R140). -/
def engineStep (s : State) : Host.Outcome State Fault Refusal :=
  match fetchError s with
  | some e => .next (raiseError e s)
  | none => if wordRaced s then racedStep s else runDecoded (runningDecoded s) s

/-- The engine's turn: while BUSY = 0 it takes no step (40_command_execution R140; log 6). -/
def engineTurn (s : State) : Host.Outcome State Fault Refusal :=
  if s.busy then engineStep s else .next s

end Sys2Proof.Machine
end

