-- ==== Sys2Proof/Machine/HostPort.lean ====
section
/-! DEFINITION. What the host and the reset input do: register reads and writes (10_state R42 to R54), MEM accesses
(20_memory R83, R85), their outcomes during a run (20_memory R90, 70_reset R305), and the two resets (70_reset R300 to
R302). -/

namespace Sys2Proof.Machine

/-- The bytes of an access. -/
def AccessWidth.bytes : AccessWidth → Nat
  | .w1 => 1
  | .w2 => 2
  | .w4 => 4
  | .w8 => 8

/-- Bytes as a number, low byte first (20_memory R81). -/
def numOfBytes : List Byte → Nat
  | [] => 0
  | b :: bs => b.toNat + 256 * numOfBytes bs

/-! Resets. -/

/-- The command that is running, if the engine runs one (10_state R40, R41). -/
def runningCmd (s : State) : Option Instr :=
  if s.busy = true ∧ fetchError s = none then (runningDecoded s).toOption else none

/-- The destination region of a command: [BASE, BASE + CAP) inside MEM, as its first address and its length
(70_reset R301). Empty for a command without a destination. -/
def destRegion (s : State) (i : Instr) : Nat × Nat :=
  match (sigOf i).dst with
  | some d =>
    ((s.desc d.desc).base.toNat,
      min ((s.desc d.desc).base.toNat + (s.desc d.desc).cap.toNat) s.cfg.memBytes - (s.desc d.desc).base.toNat)
  | none => (0, 0)

/-- A reset aborts the running command: the bytes of its destination region hold any value (70_reset R301, R302; log 10). -/
def abortRunning (s : State) : State :=
  match runningCmd s with
  | some i => drawRange s (destRegion s i).1 (destRegion s i).2
  | none => s

/-- A hardware reset after power-on, and the soft reset, which has the same effect (70_reset R301, R302). -/
def resetMachine (s : State) : State := resetRegisters (abortRunning s)

/-! Registers. -/

/-- The descriptor registers lie at offsets 0x100 to 0x2FF (10_state R33, R42). -/
def inDescWindow (off : Nat) : Bool := decide (0x100 ≤ off) && decide (off < 0x300)

/-- The descriptor of an offset in the window (10_state R33). -/
def descOfOffset (off : Nat) : DescNo := Fin.ofNat 16 ((off - 0x100) / 0x20)

/-- A field of a descriptor by its offset; reserved offsets read 0 (10_state R33, R38). -/
def descFieldRead (d : Desc) : Nat → Word
  | 0x00 => d.base
  | 0x04 => d.len
  | 0x08 => d.cap
  | 0x0C => d.rate
  | 0x10 => d.fmt.setWidth 32
  | _ => 0#32

/-- A descriptor with the field at this offset written; reserved offsets and FMT[31:17] ignore writes (10_state R33, R38). -/
def descFieldWrite (d : Desc) (v : Word) : Nat → Desc
  | 0x00 => { d with base := v }
  | 0x04 => { d with len := v }
  | 0x08 => { d with cap := v }
  | 0x0C => { d with rate := v }
  | 0x10 => { d with fmt := v.setWidth 17 }
  | _ => d

/-- The value of the register at a 4-aligned offset (10_state R42 to R53). -/
def regValue (s : State) (off : Nat) : Word :=
  match off with
  | 0x000 => Config.idValue
  | 0x004 => Config.versionValue
  | 0x008 => BitVec.ofNat 32 s.cfg.memBytes
  | 0x010 => statusWord s
  | 0x014 => irqEnWord s
  | 0x018 => s.cmdPtr
  | 0x01C => s.errCode
  | 0x020 => s.errIndex
  | 0x024 => s.lag
  | 0x028 => s.cmdsDone
  | _ => if inDescWindow off then descFieldRead (s.desc (descOfOffset off)) ((off - 0x100) % 0x20) else 0#32

/-- A register access is performed when it is 32 bits wide at a 4-aligned offset (10_state R53, 20_memory R83). -/
def regAccessOk (off : BitVec 12) (width : AccessWidth) : Bool := width == .w4 && off.toNat % 4 == 0

/-- The registers that a running command may write with its result: LAG and the descriptors (70_reset R305). -/
def resultRegister (off : Nat) : Bool := off == 0x024 || inDescWindow off

/-- The state after the running command, as MEM and the descriptors stand. Of a raced command it is the state after the word
that its step will execute (`runningDecoded`; DESIGN CHOICE, log 7, 9). -/
def afterRunning (s : State) : State :=
  match engineStep s with
  | .next t => t
  | _ => s

/-- What a host read of a register gives. During a run, a result register gives its value before or after the running
command (70_reset R305; log 9). -/
def regView (s : State) (off : Nat) : Word :=
  if s.busy = true ∧ resultRegister off = true ∧ Config.freeBit s.draws = 1#1 then regValue (afterRunning s) off
  else regValue s off

/-- A host register read (10_state R42, R53). -/
def hostRegRead (off : BitVec 12) (width : AccessWidth) (s : State) : State :=
  { s with
    hostData := if regAccessOk off width then (regView s off.toNat).setWidth 64 else 0#64
    draws := if s.busy then s.draws + 1 else s.draws }

/-- A write of CTRL: SRST at any time; START, when SRST is not written with it, while idle (10_state R46). -/
def hostWriteCtrl (v : Word) (s : State) : State :=
  if v.getLsbD 1 then resetMachine s
  else if v.getLsbD 0 && !s.busy then startRun s
  else s

/-- A write of the register at a 4-aligned offset (10_state R39, R40, R42 to R54). CMD_PTR and the descriptors ignore it
while BUSY = 1. -/
def regWrite (off : Nat) (v : Word) (s : State) : State :=
  match off with
  | 0x00C => hostWriteCtrl v s
  | 0x010 => clearFlags v s
  | 0x014 => setIrqEn v s
  | 0x018 => if s.busy then s else { s with cmdPtr := v }
  | _ =>
    if inDescWindow off && !s.busy then
      setDesc s (descOfOffset off) (descFieldWrite (s.desc (descOfOffset off)) v ((off - 0x100) % 0x20))
    else s

/-- A host register write (10_state R42, R53). -/
def hostRegWrite (off : BitVec 12) (width : AccessWidth) (v : Word) (s : State) : State :=
  if regAccessOk off width then regWrite off.toNat v s else s

/-! MEM. -/

/-- The used ranges of the running command (20_memory R90); of a raced command, those of the command that its drawn word gives
(log 7, 8). Where no command can be fetched, or the word is no command, there are none. -/
def runningRanges (s : State) : List (Nat × Nat) :=
  match runningCmd s with
  | some i => usedRanges s i
  | none => []

/-- Byte `i` of a host read, at address `a`: 0 outside MEM (20_memory R85); any value in a used range of the running
command (R90; log 8); what MEM holds elsewhere. -/
def hostReadByte (s : State) (i a : Nat) : Byte :=
  if s.cfg.memBytes ≤ a then 0#8
  else if s.busy && inRanges (runningRanges s) a then Config.freeByte (s.draws + i)
  else readByte s a

/-- A host MEM read as one access (20_memory R83, R85, R90). -/
def hostMemRead (addr : Word) (width : AccessWidth) (s : State) : State :=
  { s with
    hostData := BitVec.ofNat 64
      (numOfBytes ((List.range width.bytes).map fun i => hostReadByte s i (addr.toNat + i)))
    draws := if s.busy then s.draws + width.bytes else s.draws }

/-- The number of bytes of an access that lie inside MEM (20_memory R85). -/
def bytesInside (s : State) (addr : Word) (width : AccessWidth) : Nat := min width.bytes (s.cfg.memBytes - addr.toNat)

/-- The addresses inside MEM that an access touches (20_memory R85). -/
def touched (s : State) (addr : Word) (width : AccessWidth) : List Nat :=
  (List.range (bytesInside s addr width)).map fun i => addr.toNat + i

/-- A host MEM write as one access: bytes outside MEM are dropped (20_memory R83, R85). During a run it is recorded, and it
races the running command when it hits one of that command's used ranges (R90; log 7). -/
def hostMemWrite (addr : Word) (width : AccessWidth) (v : BitVec 64) (s : State) : State :=
  let w := memWrite s addr.toNat ((leBytes width.bytes v.toNat).take (s.cfg.memBytes - addr.toNat))
  if s.busy then
    { w with
      hostWrote := touched s addr width ++ s.hostWrote
      raced := s.raced || (touched s addr width).any (inRanges (runningRanges s)) }
  else w

/-! Misaligned accesses (20_memory R83; log 13). -/

/-- A value with its byte at position `pos` replaced. -/
def putByte (v : BitVec 64) (pos : Fin 8) (b : Byte) : BitVec 64 :=
  (v &&& ~~~(0xFF#64 <<< (8 * pos.val))) ||| (b.setWidth 64 <<< (8 * pos.val))

/-- One byte of a misaligned read takes its place in the value that the host gets. -/
def hostMemReadByte (addr : Word) (pos : Fin 8) (s : State) : State :=
  { s with
    hostData := putByte s.hostData pos (hostReadByte s 0 addr.toNat)
    draws := if s.busy then s.draws + 1 else s.draws }

/-- An access that the engine's steps may split: a misaligned one during a run. While the engine is idle nothing can fall
between its bytes (20_memory R83, 40_command_execution R140). -/
def splits (s : State) (addr : Word) (width : AccessWidth) : Bool := s.busy && addr.toNat % width.bytes != 0

/-- The byte accesses of a read. -/
def readParts (s : State) (addr : Word) (width : AccessWidth) : List HostOp :=
  (List.range (bytesInside s addr width)).map fun i => .memReadByte (addr + BitVec.ofNat 32 i) (Fin.ofNat 8 i)

/-- The byte accesses of a write. -/
def writeParts (s : State) (addr : Word) (width : AccessWidth) (v : BitVec 64) : List HostOp :=
  (List.range (bytesInside s addr width)).map fun i =>
    .memWrite (addr + BitVec.ofNat 32 i) .w1 ((v.extractLsb' (8 * i) 8).setWidth 64)

/-- Byte accesses among turns of the engine: any number of turns, and any place for each byte (20_memory R83: a sequence of
byte accesses, with no atomicity across them). -/
def spread : List HostOp → Nat → List Turn
  | [], k => List.replicate (Config.freeCount k) .engine
  | p :: ps, k => (spread ps (k + 1)).take (Config.freeCount k) ++ .host p :: (spread ps (k + 1)).drop (Config.freeCount k)

/-- A misaligned access begins: its byte accesses and the turns of the engine among them come next. -/
def issueParts (ps : List HostOp) (s : State) : State :=
  { s with inbox := spread ps s.draws ++ s.inbox, draws := s.draws + (ps.length + 1) }

/-- A host read of MEM: one access, or a sequence of byte accesses (20_memory R83). Bytes outside MEM read 0 (R85). -/
def hostRead (addr : Word) (width : AccessWidth) (s : State) : State :=
  if splits s addr width then issueParts (readParts s addr width) { s with hostData := 0#64 }
  else hostMemRead addr width s

/-- A host write of MEM: one access, or a sequence of byte accesses (20_memory R83). -/
def hostWrite (addr : Word) (width : AccessWidth) (v : BitVec 64) (s : State) : State :=
  if splits s addr width then issueParts (writeParts s addr width v) s else hostMemWrite addr width v s

/-! Turns. -/

/-- One access of the host. -/
def hostAccess : HostOp → State → State
  | .regRead off width, s => hostRegRead off width s
  | .regWrite off width v, s => hostRegWrite off width v s
  | .memRead addr width, s => hostRead addr width s
  | .memReadByte addr pos, s => hostMemReadByte addr pos s
  | .memWrite addr width v, s => hostWrite addr width v s

/-- One turn (10_state R30, 70_reset R300). -/
def takeTurn (t : Turn) (s : State) : Host.Outcome State Fault Refusal :=
  match t with
  | .engine => engineTurn s
  | .host op => .next (hostAccess op s)
  | .reset => .next (resetMachine s)

/-- A run of the engine that has just begun, for placing a command in front of it: START if the engine is idle, no race, and
no other agent's turn before the engine's. -/
def readyToRun (s : State) : State :=
  { (if s.busy then s else startRun s) with inbox := [], raced := false, hostWrote := [] }

/-- The four bytes of an instruction of `nbits` bits, the bits above them 0. -/
def tableBytes (nbits w : Nat) : List Byte := bytesOfWord (BitVec.ofNat 32 (w % 2 ^ nbits))

/-- The instruction stored where the engine fetches next. -/
def placeCommand (s : State) (nbits w : Nat) : State :=
  memWrite (readyToRun s) s.cmdPtr.toNat (tableBytes nbits w)

end Sys2Proof.Machine
end

