-- ==== Sys2Proof/Machine/Step.lean ====
section
/-! DEFINITION. One step of the whole machine: the next turn of the inbox, or the engine's when the inbox is empty. -/

namespace Sys2Proof.Machine

/-- The next turn, in the order that the inbox gives; with an empty inbox the engine moves (10_state R30; log 4, 6). -/
def step (s : State) : Host.Outcome State Fault Refusal :=
  match s.inbox with
  | [] => engineTurn s
  | t :: rest => takeTurn t { s with inbox := rest }

/-- The state with an instruction placed where the next step fetches it: it stands for the host's loading of MEM and its
write of START (70_reset R304; log 4). -/
def State.withFetchWord (s : State) (nbits w : Nat) : State := placeCommand s nbits w

end Sys2Proof.Machine
end

