-- ==== Sys2Proof/Safety.lean ====
section
/-! DEFINITION. The terms in which claims about the machine are stated: the invariant of its states, when the operands of a
command are ready (40_command_execution R145, R147, R148, R149), what a completed command leaves as it was (R150, R151), and
the sums of the convolution and correlation units over the samples in MEM (42_convolution, 43_correlation). -/

namespace Sys2Proof.Machine

/-! The invariant. -/

/-- Memory is in its canonical form and lists only addresses inside MEM (20_memory R80). -/
abbrev State.MemOk (s : State) : Prop := s.mem.wf ∧ s.mem.below s.cfg.memBytes

/-- DONE and ERR are never both 1, and either implies BUSY = 0 (10_state R47). -/
abbrev State.FlagsOk (s : State) : Prop :=
  ¬(s.done = true ∧ s.err = true) ∧ (s.done = true ∨ s.err = true → s.busy = false)

/-- ERR_CODE[31:14] is 0, ERR = 1 goes with a code other than NONE, and a running engine has no error recorded
(10_state R46, R49, 60_exceptions R271, R272). -/
abbrev State.ErrorOk (s : State) : Prop :=
  s.errCode.toNat < 2 ^ 14 ∧ (s.err = true → s.errCode.toNat % 256 ≠ 0) ∧
    (s.busy = true → s.errCode = 0#32 ∧ s.errIndex = 0#32)

/-- During a run CMDS_DONE counts commands of 4 bytes each below CMD_PTR, so it never wraps (10_state R52). -/
abbrev State.RunOk (s : State) : Prop :=
  s.busy = true →
    4 * s.cmdsDone.toNat ≤ s.cmdPtr.toNat ∧ (s.cmdsDone ≠ 0#32 → s.cmdPtr.toNat ≤ s.cfg.memBytes)

/-- LAG is a lag of a window of at most 2^28 lags (43_correlation R255). -/
abbrev State.LagOk (s : State) : Prop := -(2 ^ 27) ≤ s.lag.toInt ∧ s.lag.toInt < 2 ^ 27

/-- What holds after reset and is kept by every step. -/
abbrev State.Inv (s : State) : Prop :=
  s.cfg.Valid ∧ s.MemOk ∧ s.FlagsOk ∧ s.ErrorOk ∧ s.RunOk ∧ s.LagOk

/-! Operands. -/

/-- BASE as a number. -/
abbrev baseOf (s : State) (n : DescNo) : Nat := (s.desc n).base.toNat
/-- LEN as a number. -/
abbrev lenOf (s : State) (n : DescNo) : Nat := (s.desc n).len.toNat
/-- CAP as a number. -/
abbrev capOf (s : State) (n : DescNo) : Nat := (s.desc n).cap.toNat

/-- Sample `i` of the buffer that a descriptor names (00_scope R14). -/
abbrev sampleOf (s : State) (n : DescNo) (i : Nat) : F64 := BitVec.ofNat 64 (memRead s (baseOf s n + 8 * i) 8)

/-- A source passes the checks of 40_command_execution R145, with or without checks 2 and 4 and check 7. -/
abbrev SourceReady (s : State) (n : DescNo) (k : BufKind) (chanRate nonempty : Bool) : Prop :=
  (s.desc n).kind = k ∧
  (chanRate = true → (s.desc n).chan = 1#8) ∧
  (k = .pcm → (s.desc n).depth = 16#8 ∨ (s.desc n).depth = 24#8) ∧
  (chanRate = true → (s.desc n).rate ≠ 0#32) ∧
  baseOf s n + capOf s n ≤ s.cfg.memBytes ∧
  (k = .sample → baseOf s n % 8 = 0) ∧
  (nonempty = true → 0 < lenOf s n) ∧
  (s.desc n).usedBytes ≤ capOf s n

/-- A destination for `n` bytes passes checks 1 to 3 of 40_command_execution R148. -/
abbrev DestReady (s : State) (rd : DescNo) (k : BufKind) (n : Nat) : Prop :=
  baseOf s rd + capOf s rd ≤ s.cfg.memBytes ∧ (k = .sample → baseOf s rd % 8 = 0) ∧ n ≤ capOf s rd

/-- `n` bytes at the destination do not overlap the used range of a source (40_command_execution R146, R149). -/
abbrev NoOverlap (s : State) (rd : DescNo) (n : Nat) (src : DescNo) : Prop :=
  n = 0 ∨ (s.desc src).usedBytes = 0 ∨ baseOf s rd + n ≤ baseOf s src ∨
    baseOf s src + (s.desc src).usedBytes ≤ baseOf s rd

/-- DEC's operands pass every check (41_pcm_codec R180). -/
abbrev DecReady (s : State) (rd rs1 : DescNo) : Prop :=
  SourceReady s rs1 .pcm true false ∧ DestReady s rd .sample (8 * lenOf s rs1) ∧
    NoOverlap s rd (8 * lenOf s rs1) rs1

/-- ENC's operands pass every check but the range check (41_pcm_codec R186). -/
abbrev EncReady (s : State) (rd rs1 : DescNo) : Prop :=
  SourceReady s rs1 .sample true false ∧ DestReady s rd .pcm (2 * lenOf s rs1) ∧
    NoOverlap s rd (2 * lenOf s rs1) rs1

/-- CONV's operands pass every check but the amplitude check (42_convolution R211). -/
abbrev ConvReady (s : State) (rd rs1 rs2 : DescNo) : Prop :=
  SourceReady s rs1 .sample true true ∧ SourceReady s rs2 .sample true true ∧
  (s.desc rs1).rate = (s.desc rs2).rate ∧ DestReady s rd .sample (8 * lenOf s rs1) ∧
  NoOverlap s rd (8 * lenOf s rs1) rs1 ∧ NoOverlap s rd (8 * lenOf s rs1) rs2

/-- FIR's operands pass every check (42_convolution R220). -/
abbrev FirReady (s : State) (rd rs1 rs2 : DescNo) : Prop :=
  SourceReady s rs1 .sample true true ∧ SourceReady s rs2 .sample false true ∧
  DestReady s rd .sample (8 * lenOf s rs1) ∧
  NoOverlap s rd (8 * lenOf s rs1) rs1 ∧ NoOverlap s rd (8 * lenOf s rs1) rs2

/-- DECONV's operands pass every check but the peak check (42_convolution R224). -/
abbrev DeconvReady (s : State) (rd rs1 rs2 : DescNo) : Prop :=
  SourceReady s rs1 .sample true true ∧ SourceReady s rs2 .sample true true ∧
  (s.desc rs1).rate = (s.desc rs2).rate ∧ DestReady s rd .sample (8 * (lenOf s rs1 + lenOf s rs2 - 1)) ∧
  NoOverlap s rd (8 * (lenOf s rs1 + lenOf s rs2 - 1)) rs1 ∧
  NoOverlap s rd (8 * (lenOf s rs1 + lenOf s rs2 - 1)) rs2

/-- XCORR's operands pass every check but the NaN check (43_correlation R250). -/
abbrev XcorrReady (s : State) (rs1 rs2 : DescNo) : Prop :=
  SourceReady s rs1 .sample true true ∧ SourceReady s rs2 .sample true true ∧
  (s.desc rs1).rate = (s.desc rs2).rate ∧ (s.desc rs1).len = (s.desc rs2).len

/-! What a command leaves as it was. -/

/-- Nothing of the control registers but CMD_PTR, CMDS_DONE and LAG has changed, and nothing of the model's own fields but
the counter of draws. -/
abbrev SameControl (s t : State) : Prop :=
  t.cfg = s.cfg ∧ t.busy = s.busy ∧ t.done = s.done ∧ t.err = s.err ∧ t.doneIe = s.doneIe ∧ t.errIe = s.errIe ∧
  t.errCode = s.errCode ∧ t.errIndex = s.errIndex ∧ t.inbox = s.inbox ∧ t.hostData = s.hostData ∧
  t.raced = s.raced ∧ t.hostWrote = s.hostWrote ∧ t.wordDraws = s.wordDraws

/-- The command has completed: CMD_PTR and CMDS_DONE have moved on (40_command_execution R151). -/
abbrev Counted (s t : State) : Prop := t.cmdPtr = s.cmdPtr + 4#32 ∧ t.cmdsDone = s.cmdsDone + 1#32

/-- Every byte of MEM outside `n` bytes at `a` reads as before. -/
abbrev MemSameOutside (s t : State) (a n : Nat) : Prop := ∀ x, x < a ∨ a + n ≤ x → readByte t x = readByte s x

/-- Only the destination descriptor has changed, and it describes the result (40_command_execution R150): BASE and CAP as
before, LEN the output length, RATE that of RS1, FMT = {15'b0, KIND, DEPTH, 8'd1}. -/
abbrev ResultDescribed (s t : State) (rd rs1 : DescNo) (len : Nat) (kind : BufKind) (depth : BitVec 8) : Prop :=
  (t.desc rd).base = (s.desc rd).base ∧ (t.desc rd).cap = (s.desc rd).cap ∧
  (t.desc rd).len.toNat = len ∧ (t.desc rd).rate = (s.desc rs1).rate ∧
  (t.desc rd).kind = kind ∧ (t.desc rd).depth = depth ∧ (t.desc rd).chan = 1#8 ∧
  ∀ n, n ≠ rd → t.desc n = s.desc n

/-- Everything about a completed command with a destination but the result bytes themselves: `n` bytes may have changed. -/
abbrev CompletedInto (s t : State) (rd rs1 : DescNo) (len n : Nat) (kind : BufKind) (depth : BitVec 8) : Prop :=
  Counted s t ∧ t.lag = s.lag ∧ SameControl s t ∧ ResultDescribed s t rd rs1 len kind depth ∧
    MemSameOutside s t (baseOf s rd) n

/-! Errors. -/

/-- What an error keeps besides MEM (60_exceptions R272, R273): every descriptor, CMD_PTR, CMDS_DONE, LAG, DONE, IRQ_EN and
the model's own fields but the counter of draws. -/
abbrev KeptByError (s t : State) : Prop :=
  t.cfg = s.cfg ∧ t.descs = s.descs ∧ t.done = s.done ∧ t.doneIe = s.doneIe ∧ t.errIe = s.errIe ∧
  t.cmdPtr = s.cmdPtr ∧ t.lag = s.lag ∧ t.cmdsDone = s.cmdsDone ∧ t.inbox = s.inbox ∧ t.hostData = s.hostData ∧
  t.raced = s.raced ∧ t.hostWrote = s.hostWrote ∧ t.wordDraws = s.wordDraws

/-- The error with this code, role number, descriptor number and index has been recorded (60_exceptions R272). -/
abbrev ErrorRecorded (s t : State) (code role desc index : Nat) : Prop :=
  t.busy = false ∧ t.err = true ∧ t.errCode.toNat = role * 2 ^ 12 + desc * 2 ^ 8 + code ∧
  t.errIndex = BitVec.ofNat 32 index ∧ KeptByError s t

/-- The command has failed with this error, and MEM is as it was (60_exceptions R272, R273). -/
abbrev FailedWith (s t : State) (code role desc index : Nat) : Prop :=
  ErrorRecorded s t code role desc index ∧ t.mem = s.mem ∧ t.draws = s.draws

/-- The engine is running and can fetch: CMD_PTR is aligned and in range (40_command_execution R141), and no host write has
raced the running command (20_memory R90). -/
abbrev ReadyToFetch (s : State) : Prop :=
  s.busy = true ∧ s.cmdPtr.toNat % 4 = 0 ∧ s.cmdPtr.toNat + 4 ≤ s.cfg.memBytes ∧ s.raced = false ∧
  ∀ a ∈ s.hostWrote, a < s.cmdPtr.toNat ∨ s.cmdPtr.toNat + 4 ≤ a

/-- The four bytes at CMD_PTR, the lowest address first. -/
abbrev commandBytes (s : State) : List Byte :=
  [readByte s s.cmdPtr.toNat, readByte s (s.cmdPtr.toNat + 1), readByte s (s.cmdPtr.toNat + 2),
    readByte s (s.cmdPtr.toNat + 3)]

/-! Numbers. -/

/-- `r` is the binary64 number nearest to `n / d` units of 2^-1074, and on a tie the one whose last bit is 0
(roundTiesToEven, 00_scope R12). -/
abbrev NearestEven (r : F64) (n d : Int) : Prop :=
  ∀ y : F64, isFinite y = true →
    |fvalue r * d - n| ≤ |fvalue y * d - n| ∧
    (|fvalue r * d - n| = |fvalue y * d - n| → fvalue y ≠ fvalue r → fmag r % 2 = 0)

/-! The sums of the rules, over the samples in MEM. -/

/-- The sum of x[n-j] * h[j] for j ascending over 0 ≤ j ≤ min(n, P-1) (42_convolution R213, R221). -/
def firSum (s : State) (x h : DescNo) (n : Nat) : F64 :=
  fsum ((List.range (min n (lenOf s h - 1) + 1)).map fun j => fmul (sampleOf s x (n - j)) (sampleOf s h j))

/-- c[k]: the sum of r[k-j] * e[E-1-j] for j ascending over max(0, k-R+1) ≤ j ≤ min(k, E-1) (42_convolution R225). -/
def deconvSum (s : State) (r e : DescNo) (k : Nat) : F64 :=
  fsum ((List.range' (k + 1 - lenOf s r) (min k (lenOf s e - 1) + 1 - (k + 1 - lenOf s r))).map fun j =>
    fmul (sampleOf s r (k - j)) (sampleOf s e (lenOf s e - 1 - j)))

/-- r(L) at window position j, L = j - (N div 2): for L ≥ 0 the sum of x[n] * y[n-L] for n from L to N-1, for L < 0 for n
from 0 to N-1+L (43_correlation R251, R252). -/
def corrSum (s : State) (x y : DescNo) (j : Nat) : F64 :=
  let half := lenOf s x / 2
  if half ≤ j then
    fsum ((List.range' (j - half) (lenOf s x - (j - half))).map fun n =>
      fmul (sampleOf s x n) (sampleOf s y (n - (j - half))))
  else
    fsum ((List.range (lenOf s x - (half - j))).map fun n =>
      fmul (sampleOf s x n) (sampleOf s y (n + (half - j))))

end Sys2Proof.Machine
end

