-- ==== Sys2Proof/Certificates/Slice0/Obligations.lean ====
section
/-! DEFINITION. The statements for the provers. Each docstring names the rules that the statement formalises. -/

open Sys2Proof Sys2Proof.Machine

/-! Encoding (30_encoding). -/

/-- R111, R114: every command is well formed, and decoding the bytes of its word gives it back, with every operand. -/
def Obligations.EncodedCommandsDecodeBack : Prop :=
  ∀ i : Instr, i.wellFormed = true ∧ decodeBytes (bytesOfWord (encode i)) = .ok i

/-- R114: a word that decodes is the word of the command it decodes to: decoding drops no bit. -/
def Obligations.DecodedWordsEncodeBack : Prop :=
  ∀ (w : Word) (i : Instr), decode w = .ok i → encode i = w

/-- R118: the example words of the encoding table decode to their commands. -/
def Obligations.ExampleWordsDecode : Prop :=
  decode 0x00000000#32 = .ok .halt ∧ decode 0x00000001#32 = .ok .nop ∧
  decode 0x00000210#32 = .ok (.dec 2 0) ∧ decode 0x00003411#32 = .ok (.enc 4 3) ∧
  decode 0x00021320#32 = .ok (.conv 3 1 2) ∧ decode 0x000DEF21#32 = .ok (.fir 15 14 13) ∧
  decode 0x00000122#32 = .ok (.deconvT 1 0 0) ∧ decode 0x00110222#32 = .ok (.deconvF 2 0 1) ∧
  decode 0x00032030#32 = .ok (.xcorr 2 3)

/-- R114: a word w is the command C exactly when w under C's mask is C's match value, with the operands in their fields;
the words that match no row have an opcode outside the map, or a field that must be 0. -/
def Obligations.DecodingIsTheMatchTable : Prop :=
  ∀ w : Word,
    let rdIs := fun n : DescNo => n.val = (w.extractLsb' 8 4).toNat
    let rs1Is := fun n : DescNo => n.val = (w.extractLsb' 12 4).toNat
    let rs2Is := fun n : DescNo => n.val = (w.extractLsb' 16 4).toNat
    (decode w = .ok .halt ↔ w &&& 0xFFFFFFFF#32 = 0x00000000#32) ∧
    (decode w = .ok .nop ↔ w &&& 0xFFFFFFFF#32 = 0x00000001#32) ∧
    (∀ rd rs1, decode w = .ok (.dec rd rs1) ↔ w &&& 0xFFFF00FF#32 = 0x00000010#32 ∧ rdIs rd ∧ rs1Is rs1) ∧
    (∀ rd rs1, decode w = .ok (.enc rd rs1) ↔ w &&& 0xFFFF00FF#32 = 0x00000011#32 ∧ rdIs rd ∧ rs1Is rs1) ∧
    (∀ rd rs1 rs2, decode w = .ok (.conv rd rs1 rs2) ↔
      w &&& 0xFFF000FF#32 = 0x00000020#32 ∧ rdIs rd ∧ rs1Is rs1 ∧ rs2Is rs2) ∧
    (∀ rd rs1 rs2, decode w = .ok (.fir rd rs1 rs2) ↔
      w &&& 0xFFF000FF#32 = 0x00000021#32 ∧ rdIs rd ∧ rs1Is rs1 ∧ rs2Is rs2) ∧
    (∀ rd rs1 rs2, decode w = .ok (.deconvT rd rs1 rs2) ↔
      w &&& 0xFFF000FF#32 = 0x00000022#32 ∧ rdIs rd ∧ rs1Is rs1 ∧ rs2Is rs2) ∧
    (∀ rd rs1 rs2, decode w = .ok (.deconvF rd rs1 rs2) ↔
      w &&& 0xFFF000FF#32 = 0x00100022#32 ∧ rdIs rd ∧ rs1Is rs1 ∧ rs2Is rs2) ∧
    (∀ rs1 rs2, decode w = .ok (.xcorr rs1 rs2) ↔ w &&& 0xFFF00FFF#32 = 0x00000030#32 ∧ rs1Is rs1 ∧ rs2Is rs2) ∧
    (decode w = .error .illegalOpcode ↔
      (w.extractLsb' 0 8).toNat ∉ [0x00, 0x01, 0x10, 0x11, 0x20, 0x21, 0x22, 0x30]) ∧
    (decode w = .error .reservedField ↔
      (w.extractLsb' 0 8).toNat ∈ [0x00, 0x01, 0x10, 0x11, 0x20, 0x21, 0x22, 0x30] ∧
        (fieldsOfWord w).wellFormed = false)

/-! The step (40_command_execution, sections 1 and 5). -/

/-- R140: when the bytes at CMD_PTR decode to a well-formed command, the step of the running engine is that command's
meaning, at an empty inbox and at the engine's turn. -/
def Obligations.StepRunsTheDecodedCommand : Prop :=
  ∀ (s : State) (i : Instr), ReadyToFetch s → decodeBytes (commandBytes s) = .ok i → i.wellFormed = true →
    (s.inbox = [] → step s = exec i s) ∧
    (∀ rest, s.inbox = .engine :: rest → step s = exec i { s with inbox := rest })

/-- R140: while BUSY = 0 the engine takes no step. -/
def Obligations.IdleEngineTakesNoStep : Prop :=
  ∀ s : State, s.busy = false →
    (s.inbox = [] → step s = .next s) ∧
    (∀ rest, s.inbox = .engine :: rest → step s = .next { s with inbox := rest })

/-- R141: a misaligned CMD_PTR fails with CMD_ALIGN, an aligned one whose word does not lie in MEM with CMD_RANGE, and
otherwise the four bytes at CMD_PTR, low byte first, are the word that is decoded (R142) and executed. -/
def Obligations.FetchChecksCmdPtr : Prop :=
  ∀ s : State, s.inbox = [] → s.busy = true →
    (s.cmdPtr.toNat % 4 ≠ 0 → ∃ t, step s = .next t ∧ FailedWith s t 0x03 0 0 0) ∧
    (s.cmdPtr.toNat % 4 = 0 → s.cfg.memBytes < s.cmdPtr.toNat + 4 →
      ∃ t, step s = .next t ∧ FailedWith s t 0x04 0 0 0) ∧
    (ReadyToFetch s → ∀ w : Word, w.toNat = memRead s s.cmdPtr.toNat 4 →
      (∀ i, decode w = .ok i → step s = exec i s) ∧
      (decode w = .error .illegalOpcode → ∃ t, step s = .next t ∧ FailedWith s t 0x01 0 0 0) ∧
      (decode w = .error .reservedField → ∃ t, step s = .next t ∧ FailedWith s t 0x02 0 0 0))

/-- R115, R116: a fetched word with an opcode outside the map fails with ILLEGAL_OPCODE whatever its other bits hold; one
with a legal opcode and a bit set in a field that must be 0 fails with RESERVED_FIELD. -/
def Obligations.BadWordsAreRefused : Prop :=
  ∀ s : State, ReadyToFetch s → s.inbox = [] →
    let w := wordOfBytes (commandBytes s)
    let opc := (w.extractLsb' 0 8).toNat
    (opc ∉ [0x00, 0x01, 0x10, 0x11, 0x20, 0x21, 0x22, 0x30] → ∃ t, step s = .next t ∧ FailedWith s t 0x01 0 0 0) ∧
    (opc ∈ [0x00, 0x01, 0x10, 0x11, 0x20, 0x21, 0x22, 0x30] → (fieldsOfWord w).wellFormed = false →
      ∃ t, step s = .next t ∧ FailedWith s t 0x02 0 0 0)

/-- R152: HALT completes, clears BUSY and sets DONE, and changes nothing else. -/
def Obligations.HaltStopsTheRun : Prop :=
  ∀ s : State, ∃ t, exec .halt s = .next t ∧ Counted s t ∧ t.busy = false ∧ t.done = true ∧
    t.cfg = s.cfg ∧ t.mem = s.mem ∧ t.descs = s.descs ∧ t.err = s.err ∧ t.doneIe = s.doneIe ∧ t.errIe = s.errIe ∧
    t.errCode = s.errCode ∧ t.errIndex = s.errIndex ∧ t.lag = s.lag ∧ t.inbox = s.inbox ∧
    t.hostData = s.hostData ∧ t.raced = s.raced ∧ t.hostWrote = s.hostWrote ∧ t.draws = s.draws ∧
    t.wordDraws = s.wordDraws

/-- R153: NOP completes and changes nothing else. -/
def Obligations.NopOnlyCounts : Prop :=
  ∀ s : State, ∃ t, exec .nop s = .next t ∧ Counted s t ∧ SameControl s t ∧ t.mem = s.mem ∧ t.descs = s.descs ∧
    t.lag = s.lag ∧ t.draws = s.draws

/-- R140, R270: every step of the machine answers a next state, and every command either completes, which moves CMD_PTR and
CMDS_DONE on by one command and leaves ERR, or fails, which ends the run with ERR set and moves neither. -/
def Obligations.EveryCommandCompletesOrFails : Prop :=
  (∀ s : State, ∃ t, step s = .next t) ∧
  ∀ (i : Instr) (s : State), ∃ t, exec i s = .next t ∧
    ((Counted s t ∧ t.err = s.err ∧ t.errCode = s.errCode ∧ t.errIndex = s.errIndex) ∨
     (t.cmdPtr = s.cmdPtr ∧ t.cmdsDone = s.cmdsDone ∧ t.busy = false ∧ t.err = true ∧ t.done = s.done))

/-- R280, R51, R36, R150: what a command can change. MEM changes only inside U_out; only the destination descriptor changes,
and never its BASE or CAP; only XCORR writes LAG; only HALT sets DONE; IRQ_EN and MEM_BYTES never change. -/
def Obligations.CommandsKeepEverythingElse : Prop :=
  ∀ (i : Instr) (s t : State), exec i s = .next t →
    MemSameOutside s t (outRange s i).1 (outRange s i).2 ∧
    (∀ n, (∀ d, (sigOf i).dst = some d → d.desc ≠ n) → t.desc n = s.desc n) ∧
    (∀ n, (t.desc n).base = (s.desc n).base ∧ (t.desc n).cap = (s.desc n).cap) ∧
    ((∀ x y, i ≠ .xcorr x y) → t.lag = s.lag) ∧ (i ≠ .halt → t.done = s.done) ∧
    t.doneIe = s.doneIe ∧ t.errIe = s.errIe ∧ t.cfg = s.cfg ∧ t.inbox = s.inbox ∧ t.hostData = s.hostData ∧
    t.raced = s.raced ∧ t.hostWrote = s.hostWrote ∧ t.wordDraws = s.wordDraws

/-! Errors (60_exceptions). -/

/-- R271: the codes of the errors. -/
def Obligations.ErrorCodesAreTheTable : Prop :=
  [ErrName.illegalOpcode, .reservedField, .cmdAlign, .cmdRange, .fmtDepth, .fmtChannels, .fmtLength, .fmtKind, .fmtRate,
    .rateMismatch, .amplitudeBounds, .encRange, .lengthMismatch, .empty, .peakDegenerate, .numericNan, .memRange,
    .memAlign, .dstCapacity, .overlap].map (fun n => n.code.toNat) =
  [0x01, 0x02, 0x03, 0x04, 0x10, 0x11, 0x12, 0x13, 0x14, 0x20, 0x21, 0x22, 0x23, 0x24, 0x25, 0x26, 0x30, 0x31, 0x32, 0x33]

/-- R272: raising an error is one action: BUSY <- 0, ERR <- 1, ERR_CODE and ERR_INDEX written, everything else kept. -/
def Obligations.RaisingRecordsTheError : Prop :=
  ∀ (e : CmdError) (s : State),
    FailedWith s (raiseError e s) e.name.code.toNat e.role.code.toNat e.desc.val e.index

/-- R273: a failing command changes no descriptor and no byte of MEM; PEAK_DEGENERATE may change bytes of its U_out. -/
def Obligations.ErrorsArePrecise : Prop :=
  ∀ (i : Instr) (s t : State), exec i s = .next t → t.cmdPtr = s.cmdPtr →
    KeptByError s t ∧ (t.errCode.toNat % 256 ≠ 0x25 → t.mem = s.mem) ∧
    (t.errCode.toNat % 256 = 0x25 → MemSameOutside s t (outRange s i).1 (outRange s i).2)

/-- R145: the eight source checks, in order, for RS1 of every command and, when RS1 has passed, for RS2. -/
def Obligations.SourceChecksInOrder : Prop :=
  ∀ (i : Instr) (s : State) (r : Role) (sp : SrcSpec),
    ((r = .rs1 ∧ (sigOf i).src1 = some sp) ∨
      (r = .rs2 ∧ (sigOf i).src2 = some sp ∧
        ∀ a, (sigOf i).src1 = some a → SourceReady s a.desc a.kind a.chanRate a.nonempty)) →
    let d := s.desc sp.desc
    let fails := fun code : Nat => ∃ t, exec i s = .next t ∧ FailedWith s t code r.code.toNat sp.desc.val 0
    let c1 := d.kind = sp.kind
    let c2 := sp.chanRate = true → d.chan = 1#8
    let c3 := sp.kind = .pcm → d.depth = 16#8 ∨ d.depth = 24#8
    let c4 := sp.chanRate = true → d.rate ≠ 0#32
    let c5 := baseOf s sp.desc + capOf s sp.desc ≤ s.cfg.memBytes
    let c6 := sp.kind = .sample → baseOf s sp.desc % 8 = 0
    let c7 := sp.nonempty = true → lenOf s sp.desc ≠ 0
    let c8 := lenOf s sp.desc * d.bpf ≤ capOf s sp.desc
    (¬c1 → fails 0x13) ∧ (c1 → ¬c2 → fails 0x11) ∧ (c1 → c2 → ¬c3 → fails 0x10) ∧
    (c1 → c2 → c3 → ¬c4 → fails 0x14) ∧ (c1 → c2 → c3 → c4 → ¬c5 → fails 0x30) ∧
    (c1 → c2 → c3 → c4 → c5 → ¬c6 → fails 0x31) ∧ (c1 → c2 → c3 → c4 → c5 → c6 → ¬c7 → fails 0x24) ∧
    (c1 → c2 → c3 → c4 → c5 → c6 → c7 → ¬c8 → fails 0x12)

/-- R147: when both sources pass, CONV, DECONV and XCORR fail with RATE_MISMATCH on unequal rates, and XCORR on equal rates
and unequal lengths with LENGTH_MISMATCH; RS2 is named. -/
def Obligations.PairChecksInOrder : Prop :=
  ∀ (s : State) (rd x y : DescNo), SourceReady s x .sample true true → SourceReady s y .sample true true →
    ((s.desc x).rate ≠ (s.desc y).rate →
      (∃ t, exec (.conv rd x y) s = .next t ∧ FailedWith s t 0x20 2 y.val 0) ∧
      (∃ t, exec (.deconvT rd x y) s = .next t ∧ FailedWith s t 0x20 2 y.val 0) ∧
      (∃ t, exec (.deconvF rd x y) s = .next t ∧ FailedWith s t 0x20 2 y.val 0) ∧
      (∃ t, exec (.xcorr x y) s = .next t ∧ FailedWith s t 0x20 2 y.val 0)) ∧
    ((s.desc x).rate = (s.desc y).rate → (s.desc x).len ≠ (s.desc y).len →
      ∃ t, exec (.xcorr x y) s = .next t ∧ FailedWith s t 0x23 2 y.val 0)

/-- R148, R149: the four destination checks, in order, when the sources and the pair have passed. -/
def Obligations.DestinationChecksInOrder : Prop :=
  ∀ (i : Instr) (s : State) (d : DstSpec), (sigOf i).dst = some d →
    (∀ a, (sigOf i).src1 = some a → SourceReady s a.desc a.kind a.chanRate a.nonempty) →
    (∀ b, (sigOf i).src2 = some b → SourceReady s b.desc b.kind b.chanRate b.nonempty) →
    (∀ a b, (sigOf i).src1 = some a → (sigOf i).src2 = some b → (sigOf i).rateMatch = true →
      (s.desc a.desc).rate = (s.desc b.desc).rate) →
    let n := outBytes s (sigOf i) d
    let fails := fun code : Nat => ∃ t, exec i s = .next t ∧ FailedWith s t code 3 d.desc.val 0
    let c1 := baseOf s d.desc + capOf s d.desc ≤ s.cfg.memBytes
    let c2 := d.kind = .sample → baseOf s d.desc % 8 = 0
    let c3 := n ≤ capOf s d.desc
    let c4 := (∀ a, (sigOf i).src1 = some a → NoOverlap s d.desc n a.desc) ∧
      (∀ b, (sigOf i).src2 = some b → NoOverlap s d.desc n b.desc)
    (¬c1 → fails 0x30) ∧ (c1 → ¬c2 → fails 0x31) ∧ (c1 → c2 → ¬c3 → fails 0x32) ∧ (c1 → c2 → c3 → ¬c4 → fails 0x33)

/-! The PCM codec (41_pcm_codec). -/

/-- R180, R181, R182, R184: DEC completes on ready operands: each frame is decoded by DEPTH, the destination describes the
result, and nothing else changes. The rescale of R183 leaves every sample as it is. -/
def Obligations.DecWritesTheDecodedSamples : Prop :=
  ∀ (s : State) (rd rs1 : DescNo), DecReady s rd rs1 →
    ∃ t, exec (.dec rd rs1) s = .next t ∧
      CompletedInto s t rd rs1 (lenOf s rs1) (8 * lenOf s rs1) .sample (s.desc rs1).depth ∧ t.draws = s.draws ∧
      ((s.desc rs1).depth = 16#8 → ∀ i < lenOf s rs1,
        sampleOf t rd i = decodeFrame16 (memRead s (baseOf s rs1 + 2 * i) 2)) ∧
      ((s.desc rs1).depth = 24#8 → ∀ i < lenOf s rs1,
        sampleOf t rd i = decodeFrame24 (memRead s (baseOf s rs1 + 3 * i) 3))

/-- R181, R182: a decoded frame is its signed value over 2^15 or 2^23, exactly: scaled by that power of two and by the
2^1074 units of 1.0, both sides are equal whole numbers. -/
def Obligations.DecodedFramesAreExact : Prop :=
  (∀ w : BitVec 16, isFinite (decodeFrame16 w.toNat) = true ∧
    fvalue (decodeFrame16 w.toNat) * 2 ^ 15 = w.toInt * 2 ^ 1074) ∧
  (∀ w : BitVec 24, isFinite (decodeFrame24 w.toNat) = true ∧
    fvalue (decodeFrame24 w.toNat) * 2 ^ 23 = w.toInt * 2 ^ 1074)

/-- R183: for every input, the rescale leaves the decoded samples unchanged. -/
def Obligations.RescaleLeavesDecodedSamples : Prop :=
  ∀ ws : List Nat, rescale (ws.map decodeFrame16) = ws.map decodeFrame16 ∧
    rescale (ws.map decodeFrame24) = ws.map decodeFrame24

/-- R187: ENC with ready operands fails with ENC_RANGE at the first sample whose magnitude is not below 1.0. -/
def Obligations.EncRefusesOutOfRange : Prop :=
  ∀ (s : State) (rd rs1 : DescNo) (k : Nat), EncReady s rd rs1 → k < lenOf s rs1 →
    flt (fabs (sampleOf s rs1 k)) f64One = false → (∀ j < k, flt (fabs (sampleOf s rs1 j)) f64One = true) →
    ∃ t, exec (.enc rd rs1) s = .next t ∧ FailedWith s t 0x22 1 rs1.val k

/-- R186, R188, R189: ENC completes when every magnitude is below 1.0: each frame is the encoded sample. -/
def Obligations.EncWritesTheEncodedFrames : Prop :=
  ∀ (s : State) (rd rs1 : DescNo), EncReady s rd rs1 →
    (∀ j < lenOf s rs1, flt (fabs (sampleOf s rs1 j)) f64One = true) →
    ∃ t, exec (.enc rd rs1) s = .next t ∧
      CompletedInto s t rd rs1 (lenOf s rs1) (2 * lenOf s rs1) .pcm 16#8 ∧ t.draws = s.draws ∧
      ∀ i < lenOf s rs1, memRead t (baseOf s rd + 2 * i) 2 = (encodeSample (sampleOf s rs1 i)).toNat

/-- R188: the encoded frame of a sample of magnitude below 1.0 is its value times 2^15, truncated toward zero, and lies in
[-32767, 32767]. -/
def Obligations.EncodingTruncatesTowardZero : Prop :=
  ∀ x : F64, flt (fabs x) f64One = true →
    (encodeSample x).toInt = (fvalue x * 2 ^ 15).tdiv (2 ^ 1074) ∧
    -32767 ≤ (encodeSample x).toInt ∧ (encodeSample x).toInt ≤ 32767

/-- R190: a 16-bit frame other than 0x8000 decodes and encodes back to itself, and 0x8000 is refused; a 24-bit frame other than
0x800000 passes ENC's range check and encodes to its value over 256, rounded toward zero, and 0x800000 is refused. -/
def Obligations.FramesRoundTrip : Prop :=
  (∀ w : BitVec 16, w ≠ 0x8000#16 → encOutOfRange (decodeFrame16 w.toNat) = false ∧
    encodeSample (decodeFrame16 w.toNat) = w) ∧
  encOutOfRange (decodeFrame16 0x8000) = true ∧
  (∀ w : BitVec 24, w ≠ 0x800000#24 → encOutOfRange (decodeFrame24 w.toNat) = false) ∧
  encOutOfRange (decodeFrame24 0x800000) = true ∧
  (∀ w : BitVec 24, (encodeSample (decodeFrame24 w.toNat)).toInt = w.toInt.tdiv 256)

/-- R190: on the machine, a DEC of a 16-bit PCM buffer and then an ENC of its result: with no frame 0x8000 the ENC completes
and its bytes are the PCM bytes; otherwise it fails with ENC_RANGE at the first such frame. -/
def Obligations.DecThenEncGivesTheSameBytes : Prop :=
  ∀ (s t : State) (rd rs1 out : DescNo), DecReady s rd rs1 → (s.desc rs1).depth = 16#8 →
    exec (.dec rd rs1) s = .next t → EncReady t out rd →
    ((∀ i < lenOf s rs1, memRead s (baseOf s rs1 + 2 * i) 2 ≠ 0x8000) →
      ∃ u, exec (.enc out rd) t = .next u ∧
        ∀ k < 2 * lenOf s rs1, readByte u (baseOf t out + k) = readByte s (baseOf s rs1 + k)) ∧
    (∀ i < lenOf s rs1, memRead s (baseOf s rs1 + 2 * i) 2 = 0x8000 →
      (∀ j < i, memRead s (baseOf s rs1 + 2 * j) 2 ≠ 0x8000) →
      ∃ u, exec (.enc out rd) t = .next u ∧ FailedWith t u 0x22 1 rd.val i)

/-! The convolution unit (42_convolution). -/

/-- R212: CONV with ready operands fails with AMPLITUDE_BOUNDS at the first source sample outside [-1.0, 1.0], and when
there is none, at the first such impulse sample. -/
def Obligations.ConvRefusesOutOfBounds : Prop :=
  ∀ (s : State) (rd rs1 rs2 : DescNo), ConvReady s rd rs1 rs2 →
    let ok := fun x : F64 => fge x f64MinusOne = true ∧ fle x f64One = true
    (∀ k < lenOf s rs1, ¬ ok (sampleOf s rs1 k) → (∀ j < k, ok (sampleOf s rs1 j)) →
      ∃ t, exec (.conv rd rs1 rs2) s = .next t ∧ FailedWith s t 0x21 1 rs1.val k) ∧
    ((∀ j < lenOf s rs1, ok (sampleOf s rs1 j)) →
      ∀ k < lenOf s rs2, ¬ ok (sampleOf s rs2 k) → (∀ j < k, ok (sampleOf s rs2 j)) →
      ∃ t, exec (.conv rd rs1 rs2) s = .next t ∧ FailedWith s t 0x21 2 rs2.val k)

/-- R211, R213, R214: CONV completes when every sample of both buffers lies in [-1.0, 1.0]: output n is the sum of the
products src[n-j] * h[j], j ascending, times 0.75. -/
def Obligations.ConvWritesTheAttenuatedSums : Prop :=
  ∀ (s : State) (rd rs1 rs2 : DescNo), ConvReady s rd rs1 rs2 →
    (∀ j < lenOf s rs1, fge (sampleOf s rs1 j) f64MinusOne = true ∧ fle (sampleOf s rs1 j) f64One = true) →
    (∀ j < lenOf s rs2, fge (sampleOf s rs2 j) f64MinusOne = true ∧ fle (sampleOf s rs2 j) f64One = true) →
    ∃ t, exec (.conv rd rs1 rs2) s = .next t ∧
      CompletedInto s t rd rs1 (lenOf s rs1) (8 * lenOf s rs1) .sample (s.desc rs1).depth ∧ t.draws = s.draws ∧
      ∀ n < lenOf s rs1, sampleOf t rd n = fmul (firSum s rs1 rs2 n) 0x3FE8000000000000#64

/-- R220, R221, R223: FIR completes on ready operands: output n is the sum of the products x[n-j] * t[j], j ascending; a NaN
is written as a quiet NaN, whichever it is. -/
def Obligations.FirWritesTheSums : Prop :=
  ∀ (s : State) (rd rs1 rs2 : DescNo), FirReady s rd rs1 rs2 →
    ∃ t, exec (.fir rd rs1 rs2) s = .next t ∧
      CompletedInto s t rd rs1 (lenOf s rs1) (8 * lenOf s rs1) .sample (s.desc rs1).depth ∧
      ∀ n < lenOf s rs1,
        (isNaN (firSum s rs1 rs2 n) = false → sampleOf t rd n = firSum s rs1 rs2 n) ∧
        (isNaN (firSum s rs1 rs2 n) = true →
          isNaN (sampleOf t rd n) = true ∧ (sampleOf t rd n).getLsbD 51 = true)

/-- R224 to R227: DECONV.T and DECONV.F complete when some sum is a positive finite peak, no sum being above it or NaN:
output k is c[k] over the peak. -/
def Obligations.DeconvWritesTheNormalizedSums : Prop :=
  ∀ (s : State) (rd rs1 rs2 : DescNo) (k0 : Nat), DeconvReady s rd rs1 rs2 →
    k0 < lenOf s rs1 + lenOf s rs2 - 1 → isFinite (deconvSum s rs1 rs2 k0) = true →
    fgt (deconvSum s rs1 rs2 k0) 0#64 = true →
    (∀ j < lenOf s rs1 + lenOf s rs2 - 1, fle (deconvSum s rs1 rs2 j) (deconvSum s rs1 rs2 k0) = true) →
    ∃ t, exec (.deconvT rd rs1 rs2) s = .next t ∧ exec (.deconvF rd rs1 rs2) s = .next t ∧
      CompletedInto s t rd rs1 (lenOf s rs1 + lenOf s rs2 - 1) (8 * (lenOf s rs1 + lenOf s rs2 - 1)) .sample
        (s.desc rs1).depth ∧ t.draws = s.draws ∧
      ∀ k < lenOf s rs1 + lenOf s rs2 - 1,
        sampleOf t rd k = fdiv (deconvSum s rs1 rs2 k) (deconvSum s rs1 rs2 k0)

/-- R226, R273: when there is no such peak, DECONV fails with PEAK_DEGENERATE; MEM outside U_out is as it was. -/
def Obligations.DeconvRefusesDegeneratePeak : Prop :=
  ∀ (s : State) (rd rs1 rs2 : DescNo), DeconvReady s rd rs1 rs2 →
    (¬ ∃ k0 < lenOf s rs1 + lenOf s rs2 - 1, isFinite (deconvSum s rs1 rs2 k0) = true ∧
      fgt (deconvSum s rs1 rs2 k0) 0#64 = true ∧
      ∀ j < lenOf s rs1 + lenOf s rs2 - 1, fle (deconvSum s rs1 rs2 j) (deconvSum s rs1 rs2 k0) = true) →
    ∃ t, exec (.deconvT rd rs1 rs2) s = .next t ∧ exec (.deconvF rd rs1 rs2) s = .next t ∧
      ErrorRecorded s t 0x25 3 rd.val 0 ∧
      MemSameOutside s t (baseOf s rd) (8 * (lenOf s rs1 + lenOf s rs2 - 1))

/-- R228: both values of the mode bit compute identical results. -/
def Obligations.DeconvModesAgree : Prop :=
  ∀ (s : State) (rd rs1 rs2 : DescNo), exec (.deconvT rd rs1 rs2) s = exec (.deconvF rd rs1 rs2) s

/-- R229: when DECONV normalizes, every output is at most 1.0, and it is 1.0 at every sum equal to the peak; the peak is one
of the sums. -/
def Obligations.NormalizedPeakIsOne : Prop :=
  ∀ c : List F64, c ≠ [] → peakDegenerate c = false →
    peakOf c ∈ c ∧ (∀ x ∈ c, fle x (peakOf c) = true) ∧
    (∀ x ∈ c, fle (fdiv x (peakOf c)) f64One = true) ∧
    (∀ x ∈ c, feq x (peakOf c) = true → fdiv x (peakOf c) = f64One)

/-! The correlation unit (43_correlation). -/

/-- R253: XCORR with ready operands fails with NUMERIC_NAN at the first position whose correlation is NaN. -/
def Obligations.XcorrRefusesNan : Prop :=
  ∀ (s : State) (rs1 rs2 : DescNo) (j : Nat), XcorrReady s rs1 rs2 → j < lenOf s rs1 →
    isNaN (corrSum s rs1 rs2 j) = true → (∀ i < j, isNaN (corrSum s rs1 rs2 i) = false) →
    ∃ t, exec (.xcorr rs1 rs2) s = .next t ∧ FailedWith s t 0x26 0 0 j

/-- R250 to R252, R254, R255: XCORR completes when no correlation is NaN: LAG is j - (N div 2) for the first position j of
the largest correlation, and nothing else changes but CMD_PTR and CMDS_DONE. -/
def Obligations.XcorrWritesTheBestLag : Prop :=
  ∀ (s : State) (rs1 rs2 : DescNo) (j : Nat), XcorrReady s rs1 rs2 → j < lenOf s rs1 →
    (∀ i < j, flt (corrSum s rs1 rs2 i) (corrSum s rs1 rs2 j) = true) →
    (∀ i < lenOf s rs1, fle (corrSum s rs1 rs2 i) (corrSum s rs1 rs2 j) = true) →
    ∃ t, exec (.xcorr rs1 rs2) s = .next t ∧ Counted s t ∧
      t.lag.toInt = (j : Int) - ((lenOf s rs1 / 2 : Nat) : Int) ∧
      SameControl s t ∧ t.mem = s.mem ∧ t.descs = s.descs ∧ t.draws = s.draws

/-- R254, R255: of two all-zero buffers every correlation is +0.0, and the tie goes to the smallest lag, -(N div 2). -/
def Obligations.XcorrOfZerosGivesTheSmallestLag : Prop :=
  ∀ (s : State) (rs1 rs2 : DescNo), XcorrReady s rs1 rs2 →
    (∀ i < lenOf s rs1, sampleOf s rs1 i = 0#64) → (∀ i < lenOf s rs1, sampleOf s rs2 i = 0#64) →
    ∃ t, exec (.xcorr rs1 rs2) s = .next t ∧ Counted s t ∧ t.lag.toInt = -((lenOf s rs1 / 2 : Nat) : Int)

/-! Numbers (00_scope R12). -/

/-- R12: sums, products and quotients of finite numbers, when they stay finite, are the exact result rounded to the nearest
binary64 number, ties to even. -/
def Obligations.ArithmeticRoundsToNearestEven : Prop :=
  ∀ a b : F64, isFinite a = true → isFinite b = true →
    (isFinite (fadd a b) = true → NearestEven (fadd a b) (fvalue a + fvalue b) 1) ∧
    (isFinite (fmul a b) = true → NearestEven (fmul a b) (fvalue a * fvalue b) (2 ^ 1074)) ∧
    (fvalue b ≠ 0 → isFinite (fdiv a b) = true → NearestEven (fdiv a b) (fvalue a * 2 ^ 1074) (fvalue b))

/-- R12: the comparisons are false on a NaN, compare finite numbers by value (so both zeros are equal), and put the
infinities at the ends. -/
def Obligations.ComparisonsAreQuietAndOrdered : Prop :=
  ∀ a b : F64,
    (isNaN a = true ∨ isNaN b = true →
      flt a b = false ∧ fle a b = false ∧ feq a b = false ∧ fgt a b = false ∧ fge a b = false) ∧
    (isFinite a = true → isFinite b = true →
      (flt a b = true ↔ fvalue a < fvalue b) ∧ (fle a b = true ↔ fvalue a ≤ fvalue b) ∧
      (feq a b = true ↔ fvalue a = fvalue b) ∧ (fgt a b = true ↔ fvalue b < fvalue a) ∧
      (fge a b = true ↔ fvalue b ≤ fvalue a)) ∧
    (isFinite a = true → flt a (finf false) = true ∧ flt (finf true) a = true)

/-! The host port (10_state, 20_memory). -/

/-- R42 to R52, R33, R38, R40, R86, R305: what the host reads from each register, at any time; the read changes nothing but
the value returned. LAG and the descriptors, the registers that a command may write as its result, read their value while the
engine is idle, and while it runs their value before or after the running command. That the other registers give, during a
run, their value before the running command's step, before which the read is placed, is the model's choice (log 9). So is
what the LAG and descriptor clauses say of a raced command: that a read and the step take one word, and that the value after is
what that word's command does to the registers (log 7, 9). -/
def Obligations.HostReadsTheRegisters : Prop :=
  ∀ (s : State) (rest : List Turn) (off : BitVec 12), s.inbox = .host (.regRead off .w4) :: rest →
    ∃ t, step s = .next t ∧ t = { s with inbox := rest, hostData := t.hostData, draws := t.draws } ∧
      (s.busy = false → t.draws = s.draws) ∧
      (off.toNat = 0x000 → t.hostData = 0x52495250#64) ∧ (off.toNat = 0x004 → t.hostData = 0x00010000#64) ∧
      (off.toNat = 0x008 → s.cfg.Valid → t.hostData.toNat = s.cfg.memBytes) ∧
      (off.toNat = 0x00C → t.hostData = 0#64) ∧
      (off.toNat = 0x010 → t.hostData.toNat = s.busy.toNat + 2 * s.done.toNat + 4 * s.err.toNat +
        8 * ((s.done && s.doneIe) || (s.err && s.errIe)).toNat) ∧
      (off.toNat = 0x014 → t.hostData.toNat = 2 * s.doneIe.toNat + 4 * s.errIe.toNat) ∧
      (off.toNat = 0x018 → t.hostData.toNat = s.cmdPtr.toNat) ∧
      (off.toNat = 0x01C → t.hostData.toNat = s.errCode.toNat) ∧
      (off.toNat = 0x020 → t.hostData.toNat = s.errIndex.toNat) ∧
      (off.toNat = 0x028 → t.hostData.toNat = s.cmdsDone.toNat) ∧
      let shows := fun (value : State → Word) =>
        (s.busy = false → t.hostData.toNat = (value s).toNat) ∧
        ∀ u, step { s with inbox := .engine :: rest } = .next u →
          t.hostData.toNat = (value s).toNat ∨ t.hostData.toNat = (value u).toNat
      (off.toNat = 0x024 → shows fun x => x.lag) ∧
      ∀ n : DescNo,
        (off.toNat = 0x100 + 0x20 * n.val → shows fun x => (x.desc n).base) ∧
        (off.toNat = 0x104 + 0x20 * n.val → shows fun x => (x.desc n).len) ∧
        (off.toNat = 0x108 + 0x20 * n.val → shows fun x => (x.desc n).cap) ∧
        (off.toNat = 0x10C + 0x20 * n.val → shows fun x => (x.desc n).rate) ∧
        (off.toNat = 0x110 + 0x20 * n.val → shows fun x => (x.desc n).fmt.setWidth 32)

/-- R53: reserved offsets, and accesses that are not 32 bits wide at a 4-aligned offset, read 0 and ignore writes, whether or
not the engine runs. -/
def Obligations.ReservedRegisterAccessesDoNothing : Prop :=
  ∀ (s : State) (rest : List Turn) (off : BitVec 12) (w : AccessWidth) (v : Word),
    (w ≠ .w4 ∨ off.toNat % 4 ≠ 0 ∨ (0x02C ≤ off.toNat ∧ off.toNat < 0x100) ∨ 0x300 ≤ off.toNat ∨
      (0x100 ≤ off.toNat ∧ 0x14 ≤ off.toNat % 0x20)) →
    (s.inbox = .host (.regRead off w) :: rest →
      ∃ t, step s = .next t ∧ t = { s with inbox := rest, hostData := 0#64, draws := t.draws }) ∧
    (s.inbox = .host (.regWrite off w v) :: rest → step s = .next { s with inbox := rest })

/-- R33, R34, R38, R40: while the engine is idle, a host write of a descriptor field or of CMD_PTR stores the value, of FMT
only bits [16:0], and changes nothing else. -/
def Obligations.IdleHostWritesDescriptors : Prop :=
  ∀ (s : State) (rest : List Turn) (n : DescNo) (v : Word), s.busy = false →
    (s.inbox = .host (.regWrite (BitVec.ofNat 12 (0x100 + 0x20 * n.val)) .w4 v) :: rest →
      step s = .next { s with inbox := rest, descs := s.descs.set n.val { s.desc n with base := v } }) ∧
    (s.inbox = .host (.regWrite (BitVec.ofNat 12 (0x104 + 0x20 * n.val)) .w4 v) :: rest →
      step s = .next { s with inbox := rest, descs := s.descs.set n.val { s.desc n with len := v } }) ∧
    (s.inbox = .host (.regWrite (BitVec.ofNat 12 (0x108 + 0x20 * n.val)) .w4 v) :: rest →
      step s = .next { s with inbox := rest, descs := s.descs.set n.val { s.desc n with cap := v } }) ∧
    (s.inbox = .host (.regWrite (BitVec.ofNat 12 (0x10C + 0x20 * n.val)) .w4 v) :: rest →
      step s = .next { s with inbox := rest, descs := s.descs.set n.val { s.desc n with rate := v } }) ∧
    (s.inbox = .host (.regWrite (BitVec.ofNat 12 (0x110 + 0x20 * n.val)) .w4 v) :: rest →
      step s = .next
        { s with inbox := rest, descs := s.descs.set n.val { s.desc n with fmt := v.extractLsb' 0 17 } }) ∧
    (s.inbox = .host (.regWrite 0x018#12 .w4 v) :: rest → step s = .next { s with inbox := rest, cmdPtr := v })

/-- R39, R40, R306: while the engine runs, host writes of CMD_PTR and of descriptors are ignored, and so are writes of the
read-only registers at any time (R43, R44, R45, R49 to R52). -/
def Obligations.BusyHostWritesAreIgnored : Prop :=
  ∀ (s : State) (rest : List Turn) (off : BitVec 12) (v : Word),
    s.inbox = .host (.regWrite off .w4 v) :: rest →
    (s.busy = true ∧ (off.toNat = 0x018 ∨ 0x100 ≤ off.toNat) ∨
      off.toNat ∈ [0x000, 0x004, 0x008, 0x01C, 0x020, 0x024, 0x028]) →
    step s = .next { s with inbox := rest }

/-- R46: CTRL reads as 0. A write of it with SRST resets at any time, and START in the same write is ignored; START alone,
while idle, starts a run as one action; while BUSY = 1 it is ignored; with neither bit set nothing happens. -/
def Obligations.ControlWritesStartAndReset : Prop :=
  ∀ (s : State) (rest : List Turn) (v : Word),
    (s.inbox = .host (.regRead 0x00C#12 .w4) :: rest → ∃ t, step s = .next t ∧ t.hostData = 0#64) ∧
    (s.inbox = .host (.regWrite 0x00C#12 .w4 v) :: rest →
      (v.getLsbD 1 = true → step s = step { s with inbox := .reset :: rest }) ∧
      (v.getLsbD 1 = false → v.getLsbD 0 = true → s.busy = false →
        ∃ t, step s = .next t ∧ t.busy = true ∧ t.done = false ∧ t.err = false ∧ t.errCode = 0#32 ∧
          t.errIndex = 0#32 ∧ t.cmdsDone = 0#32 ∧ t.cmdPtr = s.cmdPtr ∧ t.lag = s.lag ∧ t.descs = s.descs ∧
          t.mem = s.mem ∧ t.doneIe = s.doneIe ∧ t.errIe = s.errIe ∧ t.cfg = s.cfg ∧ t.inbox = rest) ∧
      (v.getLsbD 1 = false → v.getLsbD 0 = true → s.busy = true → step s = .next { s with inbox := rest }) ∧
      (v.getLsbD 1 = false → v.getLsbD 0 = false → step s = .next { s with inbox := rest }))

/-- R47, R48: a host write of STATUS clears DONE and ERR where it has a 1 and changes nothing else; a write of IRQ_EN sets
its two bits; both at any time. -/
def Obligations.StatusAndIrqEnWrites : Prop :=
  ∀ (s : State) (rest : List Turn) (v : Word),
    (s.inbox = .host (.regWrite 0x010#12 .w4 v) :: rest →
      step s = .next { s with inbox := rest, done := s.done && !v.getLsbD 1, err := s.err && !v.getLsbD 2 }) ∧
    (s.inbox = .host (.regWrite 0x014#12 .w4 v) :: rest →
      step s = .next { s with inbox := rest, doneIe := v.getLsbD 1, errIe := v.getLsbD 2 })

/-- R275, R276: the irq output after each event that can move it. After a host write of STATUS it stays up only for a set
flag, with its enable bit set, that the write leaves; after a write of IRQ_EN it is up for a flag that is already 1 when the
write sets its enable bit, and down otherwise; START, soft reset and hardware reset bring it down; HALT raises it when DONE_IE
is set, and a failing command or a failing fetch or decode when ERR_IE is set. -/
def Obligations.IrqRisesAndFalls : Prop :=
  (∀ (s t : State) (rest : List Turn) (v : Word), step s = .next t →
    (s.inbox = .host (.regWrite 0x010#12 .w4 v) :: rest →
      (t.irq = true ↔ (s.done = true ∧ s.doneIe = true ∧ v.getLsbD 1 = false) ∨
        (s.err = true ∧ s.errIe = true ∧ v.getLsbD 2 = false))) ∧
    (s.inbox = .host (.regWrite 0x014#12 .w4 v) :: rest →
      (t.irq = true ↔ (s.done = true ∧ v.getLsbD 1 = true) ∨ (s.err = true ∧ v.getLsbD 2 = true))) ∧
    (s.inbox = .host (.regWrite 0x00C#12 .w4 v) :: rest → v.getLsbD 0 = true → s.busy = false → t.irq = false) ∧
    (s.inbox = .host (.regWrite 0x00C#12 .w4 v) :: rest → v.getLsbD 1 = true → t.irq = false) ∧
    (s.inbox = .reset :: rest → t.irq = false)) ∧
  (∀ s t : State, exec .halt s = .next t →
    (t.irq = true ↔ s.doneIe = true ∨ (s.err = true ∧ s.errIe = true))) ∧
  (∀ (i : Instr) (s t : State), exec i s = .next t → t.cmdPtr = s.cmdPtr →
    (t.irq = true ↔ s.errIe = true ∨ (s.done = true ∧ s.doneIe = true))) ∧
  (∀ s t : State, s.inbox = [] → step s = .next t →
    (t.irq = true ↔ (t.done = true ∧ s.doneIe = true) ∨ (t.err = true ∧ s.errIe = true)))

/-- R81, R83, R85: a host write of MEM while the engine is idle stores the bytes of the value, low byte first, those inside
MEM only; every other byte, and all else, is as it was. -/
def Obligations.IdleHostWritesMemory : Prop :=
  ∀ (s : State) (rest : List Turn) (a : Word) (w : AccessWidth) (v : BitVec 64), s.busy = false →
    s.inbox = .host (.memWrite a w v) :: rest →
    ∃ t, step s = .next t ∧ t = { s with inbox := rest, mem := t.mem } ∧
      ∀ x, readByte t x =
        if a.toNat ≤ x ∧ x < a.toNat + w.bytes ∧ x < s.cfg.memBytes then v.extractLsb' (8 * (x - a.toNat)) 8
        else readByte s x

/-- R81, R83, R85, R86: a host read of MEM while the engine is idle returns the bytes, low byte first, 0x00 for those
outside MEM, and changes nothing. -/
def Obligations.IdleHostReadsMemory : Prop :=
  ∀ (s : State) (rest : List Turn) (a : Word) (w : AccessWidth), s.busy = false →
    s.inbox = .host (.memRead a w) :: rest →
    ∃ t, step s = .next t ∧ t = { s with inbox := rest, hostData := t.hostData } ∧
      t.hostData.toNat < 2 ^ (8 * w.bytes) ∧
      ∀ i < w.bytes, t.hostData.extractLsb' (8 * i) 8 =
        if a.toNat + i < s.cfg.memBytes then readByte s (a.toNat + i) else 0#8

/-- R90: while the engine runs a command that nothing has raced, an aligned host read outside its used ranges returns what an
idle read would, and an aligned host write outside them and outside its word stores its bytes and leaves the running command
unraced. Such a write may still hit the word of a later command, which it races (`WritesToCommandWordsRaceThem`). The model's
choices here: an access is placed before the step of the running command, and only the races of that command count against it
(log 7); the used range of a PCM buffer of another DEPTH than 16 and 24 (log 15). Misaligned accesses are sequences of bytes
(log 13, `MisalignedAccessesAreByteSequences`). -/
def Obligations.HostAccessOutsideUsedRanges : Prop :=
  ∀ (s : State) (rest : List Turn) (i : Instr) (a : Word) (w : AccessWidth) (v : BitVec 64), ReadyToFetch s →
    decodeBytes (commandBytes s) = .ok i → a.toNat % w.bytes = 0 →
    (∀ x, a.toNat ≤ x → x < a.toNat + w.bytes → inRanges (usedRanges s i) x = false) →
    (s.inbox = .host (.memRead a w) :: rest → ∃ t, step s = .next t ∧ t.mem = s.mem ∧ t.raced = false ∧
      ∀ k < w.bytes, t.hostData.extractLsb' (8 * k) 8 =
        if a.toNat + k < s.cfg.memBytes then readByte s (a.toNat + k) else 0#8) ∧
    (s.inbox = .host (.memWrite a w v) :: rest →
      (a.toNat + w.bytes ≤ s.cmdPtr.toNat ∨ s.cmdPtr.toNat + 4 ≤ a.toNat) →
      ∃ t, step s = .next t ∧ ReadyToFetch t ∧
        ∀ x, readByte t x =
          if a.toNat ≤ x ∧ x < a.toNat + w.bytes ∧ x < s.cfg.memBytes then v.extractLsb' (8 * (x - a.toNat)) 8
          else readByte s x)

/-- R83, R85: a misaligned host access during a run is a sequence of byte accesses of its bytes inside MEM, in any order and
with any number of the engine's turns among them (free values, log 13); its bytes outside MEM are dropped, or read 0. A byte of
such a read takes its place in the value read and leaves the other places, outside the used ranges of the running command. That
the byte accesses stand ahead of every other turn, with turns of the engine alone among them, so that no reset and no other
host access falls inside, is the model's choice too (log 13); so is the used range of a PCM buffer of another DEPTH than 16 and
24, which the last clause rests on (log 15). -/
def Obligations.MisalignedAccessesAreByteSequences : Prop :=
  ∀ (s : State) (rest : List Turn) (a : Word) (w : AccessWidth) (v : BitVec 64), s.cfg.Valid → s.busy = true →
    (a.toNat % w.bytes ≠ 0 → ∃ n, n ≤ w.bytes ∧ (∀ i < w.bytes, i < n ↔ a.toNat + i < s.cfg.memBytes) ∧
      (s.inbox = .host (.memRead a w) :: rest →
        ∃ (t : State) (p : List Turn) (k : Nat) (ops : List HostOp), step s = .next t ∧
        t = { s with inbox := p ++ rest, hostData := 0#64, draws := t.draws } ∧
        p.Perm (List.replicate k .engine ++ ops.map .host) ∧ ops.length = n ∧
        ∀ i < n, ∃ b pos, ops[i]? = some (.memReadByte b pos) ∧ b.toNat = a.toNat + i ∧ pos.val = i) ∧
      (s.inbox = .host (.memWrite a w v) :: rest →
        ∃ (t : State) (p : List Turn) (k : Nat) (ops : List HostOp), step s = .next t ∧
        t = { s with inbox := p ++ rest, draws := t.draws } ∧
        p.Perm (List.replicate k .engine ++ ops.map .host) ∧ ops.length = n ∧
        ∀ i < n, ∃ b c, ops[i]? = some (.memWrite b .w1 c) ∧ b.toNat = a.toNat + i ∧
          c.extractLsb' 0 8 = v.extractLsb' (8 * i) 8)) ∧
    (∀ (pos : Fin 8) (i : Instr), s.inbox = .host (.memReadByte a pos) :: rest → ReadyToFetch s →
      decodeBytes (commandBytes s) = .ok i → inRanges (usedRanges s i) a.toNat = false →
      ∃ t, step s = .next t ∧ t = { s with inbox := rest, hostData := t.hostData, draws := t.draws } ∧
        ∀ k < 8, t.hostData.extractLsb' (8 * k) 8 =
          if k = pos.val then (if a.toNat < s.cfg.memBytes then readByte s a.toNat else 0#8)
          else s.hostData.extractLsb' (8 * k) 8)

/-- R90, second bullet and first: a host read of MEM during a run leaves MEM as it was, and gives any value for each byte in a
used range of the running command. A byte that no command could use, whatever its word, reads as MEM holds it, whether or not
the running command is raced and whether or not there is a command to fetch. That the access is placed before the step of the
running command is the model's choice (log 7, 8); so is the used range of a PCM buffer of another DEPTH than 16 and 24, for
which no rule gives one (log 15). -/
def Obligations.HostReadsDuringARun : Prop :=
  ∀ (s : State) (rest : List Turn), s.busy = true →
    (∀ (a : Word) (w : AccessWidth), a.toNat % w.bytes = 0 → s.inbox = .host (.memRead a w) :: rest →
      ∃ t, step s = .next t ∧ t = { s with inbox := rest, hostData := t.hostData, draws := s.draws + w.bytes } ∧
        ∀ k < w.bytes, a.toNat + k < s.cfg.memBytes →
          (∀ i, ReadyToFetch s → decodeBytes (commandBytes s) = .ok i →
            inRanges (usedRanges s i) (a.toNat + k) = true →
            t.hostData.extractLsb' (8 * k) 8 = Config.freeByte (s.draws + k)) ∧
          ((∀ i, inRanges (usedRanges s i) (a.toNat + k) = false) →
            t.hostData.extractLsb' (8 * k) 8 = readByte s (a.toNat + k))) ∧
    (∀ (a : Word) (pos : Fin 8), s.inbox = .host (.memReadByte a pos) :: rest → a.toNat < s.cfg.memBytes →
      ∃ t, step s = .next t ∧ t = { s with inbox := rest, hostData := t.hostData, draws := s.draws + 1 } ∧
        (∀ i, ReadyToFetch s → decodeBytes (commandBytes s) = .ok i → inRanges (usedRanges s i) a.toNat = true →
          t.hostData.extractLsb' (8 * pos.val) 8 = Config.freeByte s.draws) ∧
        ((∀ i, inRanges (usedRanges s i) a.toNat = false) →
          t.hostData.extractLsb' (8 * pos.val) 8 = readByte s a.toNat))

/-- R90, third bullet: an aligned host write that touches a byte of a used range of the running command races that command, is
performed, and changes nothing else but the model's record of it. That it counts against the command at CMD_PTR, before whose
step it is placed, is the model's choice (log 7); so is the used range at a DEPTH other than 16 and 24 (log 15). What a raced
command does: `WritesToCommandWordsRaceThem`. -/
def Obligations.WritesToUsedRangesRaceTheCommand : Prop :=
  ∀ (s : State) (rest : List Turn) (i : Instr) (a : Word) (w : AccessWidth) (v : BitVec 64) (x : Nat), ReadyToFetch s →
    decodeBytes (commandBytes s) = .ok i → a.toNat % w.bytes = 0 → s.inbox = .host (.memWrite a w v) :: rest →
    a.toNat ≤ x → x < a.toNat + w.bytes → x < s.cfg.memBytes → inRanges (usedRanges s i) x = true →
    ∃ t, step s = .next t ∧ t.raced = true ∧
      t = { s with inbox := rest, mem := t.mem, raced := true, hostWrote := t.hostWrote } ∧
      ∀ y, readByte t y =
        if a.toNat ≤ y ∧ y < a.toNat + w.bytes ∧ y < s.cfg.memBytes then v.extractLsb' (8 * (y - a.toNat)) 8
        else readByte s y

/-- R90, R93: a host write to a command word not yet fetched is a race with that command. A write during a run is remembered,
and the engine's turns remember it; when CMD_PTR reaches a word that was written, or the running command is raced otherwise,
the word is any word, that word's command is executed, and every byte that it writes is any byte if it completes. What a
command that any word gives does to the registers, and that one word stands for every look at the command, are the model's
choices (log 7). -/
def Obligations.WritesToCommandWordsRaceThem : Prop :=
  (∀ (s : State) (rest : List Turn) (a : Word) (w : AccessWidth) (v : BitVec 64), s.busy = true →
    a.toNat % w.bytes = 0 → s.inbox = .host (.memWrite a w v) :: rest →
    ∃ t, step s = .next t ∧ t.wordDraws = s.wordDraws ∧ (∀ x ∈ s.hostWrote, x ∈ t.hostWrote) ∧
      ∀ x, a.toNat ≤ x → x < a.toNat + w.bytes → x < s.cfg.memBytes → x ∈ t.hostWrote) ∧
  (∀ s t : State, s.inbox = [] → step s = .next t → t.hostWrote = s.hostWrote) ∧
  (∀ s : State, s.inbox = [] → s.busy = true → s.cmdPtr.toNat % 4 = 0 → s.cmdPtr.toNat + 4 ≤ s.cfg.memBytes →
    (s.raced = true ∨ ∃ a ∈ s.hostWrote, s.cmdPtr.toNat ≤ a ∧ a < s.cmdPtr.toNat + 4) →
    let w := Config.freeWord s.wordDraws
    let s1 : State := { s with raced := false, wordDraws := s.wordDraws + 1 }
    ∃ t, step s = .next t ∧
      (decode w = .error .illegalOpcode → FailedWith s1 t 0x01 0 0 0) ∧
      (decode w = .error .reservedField → FailedWith s1 t 0x02 0 0 0) ∧
      ∀ i, decode w = .ok i → ∃ u, exec i s1 = .next u ∧
        (u.cmdPtr = s.cmdPtr → t = u) ∧
        (u.cmdPtr ≠ s.cmdPtr → t = { u with mem := t.mem, draws := t.draws } ∧
          MemSameOutside u t (outRange s i).1 (outRange s i).2 ∧
          ∀ k < (outRange s i).2, readByte t ((outRange s i).1 + k) = Config.freeByte (u.draws + k)))

/-! Reset (70_reset_and_hazards) and whole runs. -/

/-- R57: after power-on reset every register and descriptor holds 0 and the engine is idle, irq is low, and a step changes
nothing. That the inbox is empty and that MEM_BYTES is 0x00100000 are the model's choices (log 4, log 1). -/
def Obligations.ResetStateIsIdleAndZero : Prop :=
  State.reset.busy = false ∧ State.reset.done = false ∧ State.reset.err = false ∧ State.reset.doneIe = false ∧
  State.reset.errIe = false ∧ State.reset.cmdPtr = 0#32 ∧ State.reset.errCode = 0#32 ∧
  State.reset.errIndex = 0#32 ∧ State.reset.lag = 0#32 ∧ State.reset.cmdsDone = 0#32 ∧
  State.reset.irq = false ∧
  (∀ n : DescNo, State.reset.desc n = { base := 0#32, len := 0#32, cap := 0#32, rate := 0#32, fmt := 0#17 }) ∧
  step State.reset = .next State.reset

/-- R57, R301, R302: a later reset clears every register and descriptor. While idle MEM is unchanged. While a command that
nothing has raced is running, MEM is unchanged but for the bytes of its destination region inside MEM, and unchanged
altogether when the command has no destination. -/
def Obligations.ResetClearsAndKeepsMemory : Prop :=
  ∀ (s : State) (rest : List Turn), s.inbox = .reset :: rest →
    ∃ t, step s = .next t ∧ t.busy = false ∧ t.done = false ∧ t.err = false ∧ t.doneIe = false ∧ t.errIe = false ∧
      t.cmdPtr = 0#32 ∧ t.errCode = 0#32 ∧ t.errIndex = 0#32 ∧ t.lag = 0#32 ∧ t.cmdsDone = 0#32 ∧ t.irq = false ∧
      (∀ n : DescNo, t.desc n = { base := 0#32, len := 0#32, cap := 0#32, rate := 0#32, fmt := 0#17 }) ∧
      t.cfg = s.cfg ∧ t.inbox = rest ∧ (s.busy = false → t.mem = s.mem) ∧
      (∀ i, ReadyToFetch s → decodeBytes (commandBytes s) = .ok i →
        ((sigOf i).dst = none → t.mem = s.mem) ∧
        (∀ d, (sigOf i).dst = some d → ∀ x,
          x < baseOf s d.desc ∨ baseOf s d.desc + capOf s d.desc ≤ x ∨ s.cfg.memBytes ≤ x →
          readByte t x = readByte s x))

/-- The reset state meets the invariant. -/
def Obligations.ResetMeetsTheInvariant : Prop := State.reset.Inv

/-- Every step, of any agent, keeps the invariant: memory stays canonical and inside MEM_BYTES (R80); DONE and ERR exclude
each other and a running engine (R47); ERR_CODE's reserved bits stay 0 (R49); CMDS_DONE never wraps in a run (R52); LAG stays
a lag of a window (R255). -/
def Obligations.EveryStepKeepsTheInvariant : Prop :=
  ∀ s t : State, s.Inv → step s = .next t → t.Inv

/-- R155: a run that no other agent disturbs ends, in HALT or in an error, after at most max(0, MEM_BYTES - p) div 4 + 1
steps. -/
def Obligations.EveryRunEnds : Prop :=
  ∀ s : State, s.cfg.Valid → s.inbox = [] → s.busy = true →
    ∃ k t, k ≤ (s.cfg.memBytes - s.cmdPtr.toNat) / 4 + 1 ∧ Sys2Proof.core.run k s = .next t ∧
      t.busy = false ∧ (t.done = true ∨ t.err = true)
end

