-- ==== Sys2Proof/Laws/Decode.lean ====
section
/-! SUPPORT. The fields of a command word: packing them and taking them apart are inverse, and a mask acts on each field by
itself. -/

namespace Sys2Proof

theorem toNat_append_add {a b : Nat} (x : BitVec a) (y : BitVec b) : (x ++ y).toNat = y.toNat + 2 ^ b * x.toNat := by
  rw [BitVec.toNat_append, ← Nat.shiftLeft_add_eq_or_of_lt y.isLt, Nat.shiftLeft_eq, Nat.mul_comm, Nat.add_comm]

theorem toNat_extract {n : Nat} (x : BitVec n) (lo k : Nat) : (x.extractLsb' lo k).toNat = x.toNat / 2 ^ lo % 2 ^ k := by
  rw [BitVec.extractLsb'_toNat, Nat.shiftRight_eq_div_pow]

/-- A word as the number that its fields make (30_encoding R111). -/
theorem pack_toNat (f : Fields) : f.pack.toNat =
    f.opc.toNat + 2 ^ 8 * (f.rd.toNat + 2 ^ 4 * (f.rs1.toNat + 2 ^ 4 * (f.rs2.toNat + 2 ^ 4 *
      (f.flg.toNat + 2 ^ 4 * f.rsv.toNat)))) := by
  have h1 := f.opc.isLt; have h2 := f.rd.isLt; have h3 := f.rs1.isLt
  have h4 := f.rs2.isLt; have h5 := f.flg.isLt; have h6 := f.rsv.isLt
  simp only [Fields.pack, toNat_append_add]

@[simp] theorem fieldsOfWord_pack (f : Fields) : fieldsOfWord f.pack = f := by
  have h := pack_toNat f
  have h1 := f.opc.isLt; have h2 := f.rd.isLt; have h3 := f.rs1.isLt
  have h4 := f.rs2.isLt; have h5 := f.flg.isLt; have h6 := f.rsv.isLt
  obtain ⟨opc, rd, rs1, rs2, flg, rsv⟩ := f
  simp only [fieldsOfWord, Fields.mk.injEq, ← BitVec.toNat_inj, toNat_extract, h]
  refine ⟨?_, ?_, ?_, ?_, ?_, ?_⟩ <;> simp only [] at * <;> omega

@[simp] theorem pack_fieldsOfWord (w : Word) : (fieldsOfWord w).pack = w := by
  have h := w.isLt
  apply BitVec.eq_of_toNat_eq
  simp only [pack_toNat, fieldsOfWord, toNat_extract]
  omega

theorem pack_inj (f g : Fields) : f.pack = g.pack ↔ f = g :=
  ⟨fun h => by rw [← fieldsOfWord_pack f, h, fieldsOfWord_pack], fun h => h ▸ rfl⟩

/-- The field-wise and of two field sets. -/
def Fields.mask (f m : Fields) : Fields :=
  { opc := f.opc &&& m.opc, rd := f.rd &&& m.rd, rs1 := f.rs1 &&& m.rs1, rs2 := f.rs2 &&& m.rs2,
    flg := f.flg &&& m.flg, rsv := f.rsv &&& m.rsv }

/-- A mask acts on each field by itself. -/
theorem fieldsOfWord_and (w m : Word) : fieldsOfWord (w &&& m) = (fieldsOfWord w).mask (fieldsOfWord m) := by
  simp only [fieldsOfWord, Fields.mask, Fields.mk.injEq]
  refine ⟨?_, ?_, ?_, ?_, ?_, ?_⟩ <;>
    · apply BitVec.eq_of_getLsbD_eq
      intro i hi
      simp [hi]

/-- A word matches a row when its fields under the mask are the fields of the match value. -/
theorem and_eq_iff (w m v : Word) : w &&& m = v ↔ (fieldsOfWord w).mask (fieldsOfWord m) = fieldsOfWord v := by
  rw [← fieldsOfWord_and]
  exact ⟨fun h => by rw [h], fun h => by rw [← pack_fieldsOfWord (w &&& m), h, pack_fieldsOfWord]⟩

/-- Every word is the word of its fields. -/
theorem exists_pack (w : Word) : ∃ f : Fields, w = f.pack := ⟨fieldsOfWord w, (pack_fieldsOfWord w).symm⟩

/-! Bytes, operands and rows. -/

theorem wordOfBytes_bytesOfWord (w : Word) : wordOfBytes (bytesOfWord w) = w := by
  have h := w.isLt
  apply BitVec.eq_of_toNat_eq
  simp only [wordOfBytes, bytesOfWord, List.getD_cons_zero, List.getD_cons_succ, toNat_append_add, toNat_extract]
  omega

theorem opc_pack (f : Fields) : f.pack.extractLsb' 0 8 = f.opc := congrArg Fields.opc (fieldsOfWord_pack f)

theorem mode_pack (f : Fields) : f.pack.getLsbD 20 = f.flg.getLsbD 0 := by
  have h : f.pack.extractLsb' 20 4 = f.flg := congrArg Fields.flg (fieldsOfWord_pack f)
  rw [← h]; simp

@[simp] theorem descBits_toNat (n : DescNo) : (descBits n).toNat = n.val := by simp [descBits]

theorem descField_rd (f : Fields) : (descField f.pack 8).val = f.rd.toNat :=
  congrArg (fun g : Fields => g.rd.toNat) (fieldsOfWord_pack f)

theorem descField_rs1 (f : Fields) : (descField f.pack 12).val = f.rs1.toNat :=
  congrArg (fun g : Fields => g.rs1.toNat) (fieldsOfWord_pack f)

theorem descField_rs2 (f : Fields) : (descField f.pack 16).val = f.rs2.toNat :=
  congrArg (fun g : Fields => g.rs2.toNat) (fieldsOfWord_pack f)

/-- A row of the opcode map in terms of fields. -/
theorem matchRow_eq_ok (f : Fields) (m v : Word) (i j : Instr) :
    matchRow f.pack m v i = .ok j ↔ f.mask (fieldsOfWord m) = fieldsOfWord v ∧ i = j := by
  have h := and_eq_iff f.pack m v
  rw [fieldsOfWord_pack] at h
  rw [matchRow, ← h]
  split <;> simp_all

end Sys2Proof
end

