-- ==== Sys2Proof/Laws/State.lean ====
section
/-! SUPPORT. One lemma per field per update of the state, so that no later proof unfolds a record update. -/

namespace Sys2Proof.Machine

variable (s : State)

/-! `memWrite` -/

@[simp] theorem memWrite_cfg (a : Nat) (bs : List Byte) : (memWrite s a bs).cfg = s.cfg := rfl
@[simp] theorem memWrite_mem (a : Nat) (bs : List Byte) : (memWrite s a bs).mem = s.mem.setBytes a bs := rfl
@[simp] theorem memWrite_descs (a : Nat) (bs : List Byte) : (memWrite s a bs).descs = s.descs := rfl
@[simp] theorem memWrite_busy (a : Nat) (bs : List Byte) : (memWrite s a bs).busy = s.busy := rfl
@[simp] theorem memWrite_done (a : Nat) (bs : List Byte) : (memWrite s a bs).done = s.done := rfl
@[simp] theorem memWrite_err (a : Nat) (bs : List Byte) : (memWrite s a bs).err = s.err := rfl
@[simp] theorem memWrite_doneIe (a : Nat) (bs : List Byte) : (memWrite s a bs).doneIe = s.doneIe := rfl
@[simp] theorem memWrite_errIe (a : Nat) (bs : List Byte) : (memWrite s a bs).errIe = s.errIe := rfl
@[simp] theorem memWrite_cmdPtr (a : Nat) (bs : List Byte) : (memWrite s a bs).cmdPtr = s.cmdPtr := rfl
@[simp] theorem memWrite_errCode (a : Nat) (bs : List Byte) : (memWrite s a bs).errCode = s.errCode := rfl
@[simp] theorem memWrite_errIndex (a : Nat) (bs : List Byte) : (memWrite s a bs).errIndex = s.errIndex := rfl
@[simp] theorem memWrite_lag (a : Nat) (bs : List Byte) : (memWrite s a bs).lag = s.lag := rfl
@[simp] theorem memWrite_cmdsDone (a : Nat) (bs : List Byte) : (memWrite s a bs).cmdsDone = s.cmdsDone := rfl
@[simp] theorem memWrite_inbox (a : Nat) (bs : List Byte) : (memWrite s a bs).inbox = s.inbox := rfl
@[simp] theorem memWrite_hostData (a : Nat) (bs : List Byte) : (memWrite s a bs).hostData = s.hostData := rfl
@[simp] theorem memWrite_raced (a : Nat) (bs : List Byte) : (memWrite s a bs).raced = s.raced := rfl
@[simp] theorem memWrite_hostWrote (a : Nat) (bs : List Byte) : (memWrite s a bs).hostWrote = s.hostWrote := rfl
@[simp] theorem memWrite_draws (a : Nat) (bs : List Byte) : (memWrite s a bs).draws = s.draws := rfl
@[simp] theorem memWrite_wordDraws (a : Nat) (bs : List Byte) : (memWrite s a bs).wordDraws = s.wordDraws := rfl
@[simp] theorem memWrite_desc (a : Nat) (bs : List Byte) (m : DescNo) : (memWrite s a bs).desc m = s.desc m := rfl

/-! `drawRange` -/

@[simp] theorem drawRange_cfg (a n : Nat) : (drawRange s a n).cfg = s.cfg := rfl
@[simp] theorem drawRange_mem (a n : Nat) : (drawRange s a n).mem = s.mem.setBytes a (drawnBytes s.draws n) := rfl
@[simp] theorem drawRange_descs (a n : Nat) : (drawRange s a n).descs = s.descs := rfl
@[simp] theorem drawRange_busy (a n : Nat) : (drawRange s a n).busy = s.busy := rfl
@[simp] theorem drawRange_done (a n : Nat) : (drawRange s a n).done = s.done := rfl
@[simp] theorem drawRange_err (a n : Nat) : (drawRange s a n).err = s.err := rfl
@[simp] theorem drawRange_doneIe (a n : Nat) : (drawRange s a n).doneIe = s.doneIe := rfl
@[simp] theorem drawRange_errIe (a n : Nat) : (drawRange s a n).errIe = s.errIe := rfl
@[simp] theorem drawRange_cmdPtr (a n : Nat) : (drawRange s a n).cmdPtr = s.cmdPtr := rfl
@[simp] theorem drawRange_errCode (a n : Nat) : (drawRange s a n).errCode = s.errCode := rfl
@[simp] theorem drawRange_errIndex (a n : Nat) : (drawRange s a n).errIndex = s.errIndex := rfl
@[simp] theorem drawRange_lag (a n : Nat) : (drawRange s a n).lag = s.lag := rfl
@[simp] theorem drawRange_cmdsDone (a n : Nat) : (drawRange s a n).cmdsDone = s.cmdsDone := rfl
@[simp] theorem drawRange_inbox (a n : Nat) : (drawRange s a n).inbox = s.inbox := rfl
@[simp] theorem drawRange_hostData (a n : Nat) : (drawRange s a n).hostData = s.hostData := rfl
@[simp] theorem drawRange_raced (a n : Nat) : (drawRange s a n).raced = s.raced := rfl
@[simp] theorem drawRange_hostWrote (a n : Nat) : (drawRange s a n).hostWrote = s.hostWrote := rfl
@[simp] theorem drawRange_draws (a n : Nat) : (drawRange s a n).draws = s.draws + n := rfl
@[simp] theorem drawRange_wordDraws (a n : Nat) : (drawRange s a n).wordDraws = s.wordDraws := rfl
@[simp] theorem drawRange_desc (a n : Nat) (m : DescNo) : (drawRange s a n).desc m = s.desc m := rfl

/-! `setDesc` -/

@[simp] theorem setDesc_cfg (n : DescNo) (d : Desc) : (setDesc s n d).cfg = s.cfg := rfl
@[simp] theorem setDesc_mem (n : DescNo) (d : Desc) : (setDesc s n d).mem = s.mem := rfl
@[simp] theorem setDesc_descs (n : DescNo) (d : Desc) : (setDesc s n d).descs = s.descs.set n.val d := rfl
@[simp] theorem setDesc_busy (n : DescNo) (d : Desc) : (setDesc s n d).busy = s.busy := rfl
@[simp] theorem setDesc_done (n : DescNo) (d : Desc) : (setDesc s n d).done = s.done := rfl
@[simp] theorem setDesc_err (n : DescNo) (d : Desc) : (setDesc s n d).err = s.err := rfl
@[simp] theorem setDesc_doneIe (n : DescNo) (d : Desc) : (setDesc s n d).doneIe = s.doneIe := rfl
@[simp] theorem setDesc_errIe (n : DescNo) (d : Desc) : (setDesc s n d).errIe = s.errIe := rfl
@[simp] theorem setDesc_cmdPtr (n : DescNo) (d : Desc) : (setDesc s n d).cmdPtr = s.cmdPtr := rfl
@[simp] theorem setDesc_errCode (n : DescNo) (d : Desc) : (setDesc s n d).errCode = s.errCode := rfl
@[simp] theorem setDesc_errIndex (n : DescNo) (d : Desc) : (setDesc s n d).errIndex = s.errIndex := rfl
@[simp] theorem setDesc_lag (n : DescNo) (d : Desc) : (setDesc s n d).lag = s.lag := rfl
@[simp] theorem setDesc_cmdsDone (n : DescNo) (d : Desc) : (setDesc s n d).cmdsDone = s.cmdsDone := rfl
@[simp] theorem setDesc_inbox (n : DescNo) (d : Desc) : (setDesc s n d).inbox = s.inbox := rfl
@[simp] theorem setDesc_hostData (n : DescNo) (d : Desc) : (setDesc s n d).hostData = s.hostData := rfl
@[simp] theorem setDesc_raced (n : DescNo) (d : Desc) : (setDesc s n d).raced = s.raced := rfl
@[simp] theorem setDesc_hostWrote (n : DescNo) (d : Desc) : (setDesc s n d).hostWrote = s.hostWrote := rfl
@[simp] theorem setDesc_draws (n : DescNo) (d : Desc) : (setDesc s n d).draws = s.draws := rfl
@[simp] theorem setDesc_wordDraws (n : DescNo) (d : Desc) : (setDesc s n d).wordDraws = s.wordDraws := rfl

/-! `writeBack` -/

@[simp] theorem writeBack_cfg (rd : DescNo) (len : Nat) (rate : Word) (k : BufKind) (p : BitVec 8) : (writeBack s rd len rate k p).cfg = s.cfg := rfl
@[simp] theorem writeBack_mem (rd : DescNo) (len : Nat) (rate : Word) (k : BufKind) (p : BitVec 8) : (writeBack s rd len rate k p).mem = s.mem := rfl
@[simp] theorem writeBack_busy (rd : DescNo) (len : Nat) (rate : Word) (k : BufKind) (p : BitVec 8) : (writeBack s rd len rate k p).busy = s.busy := rfl
@[simp] theorem writeBack_done (rd : DescNo) (len : Nat) (rate : Word) (k : BufKind) (p : BitVec 8) : (writeBack s rd len rate k p).done = s.done := rfl
@[simp] theorem writeBack_err (rd : DescNo) (len : Nat) (rate : Word) (k : BufKind) (p : BitVec 8) : (writeBack s rd len rate k p).err = s.err := rfl
@[simp] theorem writeBack_doneIe (rd : DescNo) (len : Nat) (rate : Word) (k : BufKind) (p : BitVec 8) : (writeBack s rd len rate k p).doneIe = s.doneIe := rfl
@[simp] theorem writeBack_errIe (rd : DescNo) (len : Nat) (rate : Word) (k : BufKind) (p : BitVec 8) : (writeBack s rd len rate k p).errIe = s.errIe := rfl
@[simp] theorem writeBack_cmdPtr (rd : DescNo) (len : Nat) (rate : Word) (k : BufKind) (p : BitVec 8) : (writeBack s rd len rate k p).cmdPtr = s.cmdPtr := rfl
@[simp] theorem writeBack_errCode (rd : DescNo) (len : Nat) (rate : Word) (k : BufKind) (p : BitVec 8) : (writeBack s rd len rate k p).errCode = s.errCode := rfl
@[simp] theorem writeBack_errIndex (rd : DescNo) (len : Nat) (rate : Word) (k : BufKind) (p : BitVec 8) : (writeBack s rd len rate k p).errIndex = s.errIndex := rfl
@[simp] theorem writeBack_lag (rd : DescNo) (len : Nat) (rate : Word) (k : BufKind) (p : BitVec 8) : (writeBack s rd len rate k p).lag = s.lag := rfl
@[simp] theorem writeBack_cmdsDone (rd : DescNo) (len : Nat) (rate : Word) (k : BufKind) (p : BitVec 8) : (writeBack s rd len rate k p).cmdsDone = s.cmdsDone := rfl
@[simp] theorem writeBack_inbox (rd : DescNo) (len : Nat) (rate : Word) (k : BufKind) (p : BitVec 8) : (writeBack s rd len rate k p).inbox = s.inbox := rfl
@[simp] theorem writeBack_hostData (rd : DescNo) (len : Nat) (rate : Word) (k : BufKind) (p : BitVec 8) : (writeBack s rd len rate k p).hostData = s.hostData := rfl
@[simp] theorem writeBack_raced (rd : DescNo) (len : Nat) (rate : Word) (k : BufKind) (p : BitVec 8) : (writeBack s rd len rate k p).raced = s.raced := rfl
@[simp] theorem writeBack_hostWrote (rd : DescNo) (len : Nat) (rate : Word) (k : BufKind) (p : BitVec 8) : (writeBack s rd len rate k p).hostWrote = s.hostWrote := rfl
@[simp] theorem writeBack_draws (rd : DescNo) (len : Nat) (rate : Word) (k : BufKind) (p : BitVec 8) : (writeBack s rd len rate k p).draws = s.draws := rfl
@[simp] theorem writeBack_wordDraws (rd : DescNo) (len : Nat) (rate : Word) (k : BufKind) (p : BitVec 8) : (writeBack s rd len rate k p).wordDraws = s.wordDraws := rfl

/-! `complete` -/

@[simp] theorem complete_cfg : (complete s).cfg = s.cfg := rfl
@[simp] theorem complete_mem : (complete s).mem = s.mem := rfl
@[simp] theorem complete_descs : (complete s).descs = s.descs := rfl
@[simp] theorem complete_busy : (complete s).busy = s.busy := rfl
@[simp] theorem complete_done : (complete s).done = s.done := rfl
@[simp] theorem complete_err : (complete s).err = s.err := rfl
@[simp] theorem complete_doneIe : (complete s).doneIe = s.doneIe := rfl
@[simp] theorem complete_errIe : (complete s).errIe = s.errIe := rfl
@[simp] theorem complete_cmdPtr : (complete s).cmdPtr = s.cmdPtr + 4#32 := rfl
@[simp] theorem complete_errCode : (complete s).errCode = s.errCode := rfl
@[simp] theorem complete_errIndex : (complete s).errIndex = s.errIndex := rfl
@[simp] theorem complete_lag : (complete s).lag = s.lag := rfl
@[simp] theorem complete_cmdsDone : (complete s).cmdsDone = s.cmdsDone + 1#32 := rfl
@[simp] theorem complete_inbox : (complete s).inbox = s.inbox := rfl
@[simp] theorem complete_hostData : (complete s).hostData = s.hostData := rfl
@[simp] theorem complete_raced : (complete s).raced = s.raced := rfl
@[simp] theorem complete_hostWrote : (complete s).hostWrote = s.hostWrote := rfl
@[simp] theorem complete_draws : (complete s).draws = s.draws := rfl
@[simp] theorem complete_wordDraws : (complete s).wordDraws = s.wordDraws := rfl
@[simp] theorem complete_desc (m : DescNo) : (complete s).desc m = s.desc m := rfl

/-! `raiseError` -/

@[simp] theorem raiseError_cfg (e : CmdError) : (raiseError e s).cfg = s.cfg := rfl
@[simp] theorem raiseError_mem (e : CmdError) : (raiseError e s).mem = s.mem := rfl
@[simp] theorem raiseError_descs (e : CmdError) : (raiseError e s).descs = s.descs := rfl
@[simp] theorem raiseError_busy (e : CmdError) : (raiseError e s).busy = false := rfl
@[simp] theorem raiseError_done (e : CmdError) : (raiseError e s).done = s.done := rfl
@[simp] theorem raiseError_err (e : CmdError) : (raiseError e s).err = true := rfl
@[simp] theorem raiseError_doneIe (e : CmdError) : (raiseError e s).doneIe = s.doneIe := rfl
@[simp] theorem raiseError_errIe (e : CmdError) : (raiseError e s).errIe = s.errIe := rfl
@[simp] theorem raiseError_cmdPtr (e : CmdError) : (raiseError e s).cmdPtr = s.cmdPtr := rfl
@[simp] theorem raiseError_errCode (e : CmdError) : (raiseError e s).errCode = e.word := rfl
@[simp] theorem raiseError_errIndex (e : CmdError) : (raiseError e s).errIndex = BitVec.ofNat 32 e.index := rfl
@[simp] theorem raiseError_lag (e : CmdError) : (raiseError e s).lag = s.lag := rfl
@[simp] theorem raiseError_cmdsDone (e : CmdError) : (raiseError e s).cmdsDone = s.cmdsDone := rfl
@[simp] theorem raiseError_inbox (e : CmdError) : (raiseError e s).inbox = s.inbox := rfl
@[simp] theorem raiseError_hostData (e : CmdError) : (raiseError e s).hostData = s.hostData := rfl
@[simp] theorem raiseError_raced (e : CmdError) : (raiseError e s).raced = s.raced := rfl
@[simp] theorem raiseError_hostWrote (e : CmdError) : (raiseError e s).hostWrote = s.hostWrote := rfl
@[simp] theorem raiseError_draws (e : CmdError) : (raiseError e s).draws = s.draws := rfl
@[simp] theorem raiseError_wordDraws (e : CmdError) : (raiseError e s).wordDraws = s.wordDraws := rfl
@[simp] theorem raiseError_desc (e : CmdError) (m : DescNo) : (raiseError e s).desc m = s.desc m := rfl

/-! `finishInto` -/

@[simp] theorem finishInto_cfg (rd : DescNo) (bs : List Byte) (len : Nat) (rate : Word) (k : BufKind) (p : BitVec 8) : (finishInto s rd bs len rate k p).cfg = s.cfg := rfl
@[simp] theorem finishInto_mem (rd : DescNo) (bs : List Byte) (len : Nat) (rate : Word) (k : BufKind) (p : BitVec 8) : (finishInto s rd bs len rate k p).mem = s.mem.setBytes (s.desc rd).base.toNat bs := rfl
@[simp] theorem finishInto_busy (rd : DescNo) (bs : List Byte) (len : Nat) (rate : Word) (k : BufKind) (p : BitVec 8) : (finishInto s rd bs len rate k p).busy = s.busy := rfl
@[simp] theorem finishInto_done (rd : DescNo) (bs : List Byte) (len : Nat) (rate : Word) (k : BufKind) (p : BitVec 8) : (finishInto s rd bs len rate k p).done = s.done := rfl
@[simp] theorem finishInto_err (rd : DescNo) (bs : List Byte) (len : Nat) (rate : Word) (k : BufKind) (p : BitVec 8) : (finishInto s rd bs len rate k p).err = s.err := rfl
@[simp] theorem finishInto_doneIe (rd : DescNo) (bs : List Byte) (len : Nat) (rate : Word) (k : BufKind) (p : BitVec 8) : (finishInto s rd bs len rate k p).doneIe = s.doneIe := rfl
@[simp] theorem finishInto_errIe (rd : DescNo) (bs : List Byte) (len : Nat) (rate : Word) (k : BufKind) (p : BitVec 8) : (finishInto s rd bs len rate k p).errIe = s.errIe := rfl
@[simp] theorem finishInto_cmdPtr (rd : DescNo) (bs : List Byte) (len : Nat) (rate : Word) (k : BufKind) (p : BitVec 8) : (finishInto s rd bs len rate k p).cmdPtr = s.cmdPtr + 4#32 := rfl
@[simp] theorem finishInto_errCode (rd : DescNo) (bs : List Byte) (len : Nat) (rate : Word) (k : BufKind) (p : BitVec 8) : (finishInto s rd bs len rate k p).errCode = s.errCode := rfl
@[simp] theorem finishInto_errIndex (rd : DescNo) (bs : List Byte) (len : Nat) (rate : Word) (k : BufKind) (p : BitVec 8) : (finishInto s rd bs len rate k p).errIndex = s.errIndex := rfl
@[simp] theorem finishInto_lag (rd : DescNo) (bs : List Byte) (len : Nat) (rate : Word) (k : BufKind) (p : BitVec 8) : (finishInto s rd bs len rate k p).lag = s.lag := rfl
@[simp] theorem finishInto_cmdsDone (rd : DescNo) (bs : List Byte) (len : Nat) (rate : Word) (k : BufKind) (p : BitVec 8) : (finishInto s rd bs len rate k p).cmdsDone = s.cmdsDone + 1#32 := rfl
@[simp] theorem finishInto_inbox (rd : DescNo) (bs : List Byte) (len : Nat) (rate : Word) (k : BufKind) (p : BitVec 8) : (finishInto s rd bs len rate k p).inbox = s.inbox := rfl
@[simp] theorem finishInto_hostData (rd : DescNo) (bs : List Byte) (len : Nat) (rate : Word) (k : BufKind) (p : BitVec 8) : (finishInto s rd bs len rate k p).hostData = s.hostData := rfl
@[simp] theorem finishInto_raced (rd : DescNo) (bs : List Byte) (len : Nat) (rate : Word) (k : BufKind) (p : BitVec 8) : (finishInto s rd bs len rate k p).raced = s.raced := rfl
@[simp] theorem finishInto_hostWrote (rd : DescNo) (bs : List Byte) (len : Nat) (rate : Word) (k : BufKind) (p : BitVec 8) : (finishInto s rd bs len rate k p).hostWrote = s.hostWrote := rfl
@[simp] theorem finishInto_draws (rd : DescNo) (bs : List Byte) (len : Nat) (rate : Word) (k : BufKind) (p : BitVec 8) : (finishInto s rd bs len rate k p).draws = s.draws := rfl
@[simp] theorem finishInto_wordDraws (rd : DescNo) (bs : List Byte) (len : Nat) (rate : Word) (k : BufKind) (p : BitVec 8) : (finishInto s rd bs len rate k p).wordDraws = s.wordDraws := rfl

/-! `finishSamples` -/

@[simp] theorem finishSamples_cfg (rd rs1 : DescNo) (xs : List F64) : (finishSamples s rd rs1 xs).cfg = s.cfg := rfl
@[simp] theorem finishSamples_mem (rd rs1 : DescNo) (xs : List F64) : (finishSamples s rd rs1 xs).mem = s.mem.setBytes (s.desc rd).base.toNat (sampleBytes xs) := rfl
@[simp] theorem finishSamples_busy (rd rs1 : DescNo) (xs : List F64) : (finishSamples s rd rs1 xs).busy = s.busy := rfl
@[simp] theorem finishSamples_done (rd rs1 : DescNo) (xs : List F64) : (finishSamples s rd rs1 xs).done = s.done := rfl
@[simp] theorem finishSamples_err (rd rs1 : DescNo) (xs : List F64) : (finishSamples s rd rs1 xs).err = s.err := rfl
@[simp] theorem finishSamples_doneIe (rd rs1 : DescNo) (xs : List F64) : (finishSamples s rd rs1 xs).doneIe = s.doneIe := rfl
@[simp] theorem finishSamples_errIe (rd rs1 : DescNo) (xs : List F64) : (finishSamples s rd rs1 xs).errIe = s.errIe := rfl
@[simp] theorem finishSamples_cmdPtr (rd rs1 : DescNo) (xs : List F64) : (finishSamples s rd rs1 xs).cmdPtr = s.cmdPtr + 4#32 := rfl
@[simp] theorem finishSamples_errCode (rd rs1 : DescNo) (xs : List F64) : (finishSamples s rd rs1 xs).errCode = s.errCode := rfl
@[simp] theorem finishSamples_errIndex (rd rs1 : DescNo) (xs : List F64) : (finishSamples s rd rs1 xs).errIndex = s.errIndex := rfl
@[simp] theorem finishSamples_lag (rd rs1 : DescNo) (xs : List F64) : (finishSamples s rd rs1 xs).lag = s.lag := rfl
@[simp] theorem finishSamples_cmdsDone (rd rs1 : DescNo) (xs : List F64) : (finishSamples s rd rs1 xs).cmdsDone = s.cmdsDone + 1#32 := rfl
@[simp] theorem finishSamples_inbox (rd rs1 : DescNo) (xs : List F64) : (finishSamples s rd rs1 xs).inbox = s.inbox := rfl
@[simp] theorem finishSamples_hostData (rd rs1 : DescNo) (xs : List F64) : (finishSamples s rd rs1 xs).hostData = s.hostData := rfl
@[simp] theorem finishSamples_raced (rd rs1 : DescNo) (xs : List F64) : (finishSamples s rd rs1 xs).raced = s.raced := rfl
@[simp] theorem finishSamples_hostWrote (rd rs1 : DescNo) (xs : List F64) : (finishSamples s rd rs1 xs).hostWrote = s.hostWrote := rfl
@[simp] theorem finishSamples_draws (rd rs1 : DescNo) (xs : List F64) : (finishSamples s rd rs1 xs).draws = s.draws := rfl
@[simp] theorem finishSamples_wordDraws (rd rs1 : DescNo) (xs : List F64) : (finishSamples s rd rs1 xs).wordDraws = s.wordDraws := rfl

/-! `finishLag` -/

@[simp] theorem finishLag_cfg (l : Int) : (finishLag s l).cfg = s.cfg := rfl
@[simp] theorem finishLag_mem (l : Int) : (finishLag s l).mem = s.mem := rfl
@[simp] theorem finishLag_descs (l : Int) : (finishLag s l).descs = s.descs := rfl
@[simp] theorem finishLag_busy (l : Int) : (finishLag s l).busy = s.busy := rfl
@[simp] theorem finishLag_done (l : Int) : (finishLag s l).done = s.done := rfl
@[simp] theorem finishLag_err (l : Int) : (finishLag s l).err = s.err := rfl
@[simp] theorem finishLag_doneIe (l : Int) : (finishLag s l).doneIe = s.doneIe := rfl
@[simp] theorem finishLag_errIe (l : Int) : (finishLag s l).errIe = s.errIe := rfl
@[simp] theorem finishLag_cmdPtr (l : Int) : (finishLag s l).cmdPtr = s.cmdPtr + 4#32 := rfl
@[simp] theorem finishLag_errCode (l : Int) : (finishLag s l).errCode = s.errCode := rfl
@[simp] theorem finishLag_errIndex (l : Int) : (finishLag s l).errIndex = s.errIndex := rfl
@[simp] theorem finishLag_lag (l : Int) : (finishLag s l).lag = BitVec.ofInt 32 l := rfl
@[simp] theorem finishLag_cmdsDone (l : Int) : (finishLag s l).cmdsDone = s.cmdsDone + 1#32 := rfl
@[simp] theorem finishLag_inbox (l : Int) : (finishLag s l).inbox = s.inbox := rfl
@[simp] theorem finishLag_hostData (l : Int) : (finishLag s l).hostData = s.hostData := rfl
@[simp] theorem finishLag_raced (l : Int) : (finishLag s l).raced = s.raced := rfl
@[simp] theorem finishLag_hostWrote (l : Int) : (finishLag s l).hostWrote = s.hostWrote := rfl
@[simp] theorem finishLag_draws (l : Int) : (finishLag s l).draws = s.draws := rfl
@[simp] theorem finishLag_wordDraws (l : Int) : (finishLag s l).wordDraws = s.wordDraws := rfl
@[simp] theorem finishLag_desc (l : Int) (m : DescNo) : (finishLag s l).desc m = s.desc m := rfl

/-! `haltFlags` -/

@[simp] theorem haltFlags_cfg : (haltFlags s).cfg = s.cfg := rfl
@[simp] theorem haltFlags_mem : (haltFlags s).mem = s.mem := rfl
@[simp] theorem haltFlags_descs : (haltFlags s).descs = s.descs := rfl
@[simp] theorem haltFlags_busy : (haltFlags s).busy = false := rfl
@[simp] theorem haltFlags_done : (haltFlags s).done = true := rfl
@[simp] theorem haltFlags_err : (haltFlags s).err = s.err := rfl
@[simp] theorem haltFlags_doneIe : (haltFlags s).doneIe = s.doneIe := rfl
@[simp] theorem haltFlags_errIe : (haltFlags s).errIe = s.errIe := rfl
@[simp] theorem haltFlags_cmdPtr : (haltFlags s).cmdPtr = s.cmdPtr := rfl
@[simp] theorem haltFlags_errCode : (haltFlags s).errCode = s.errCode := rfl
@[simp] theorem haltFlags_errIndex : (haltFlags s).errIndex = s.errIndex := rfl
@[simp] theorem haltFlags_lag : (haltFlags s).lag = s.lag := rfl
@[simp] theorem haltFlags_cmdsDone : (haltFlags s).cmdsDone = s.cmdsDone := rfl
@[simp] theorem haltFlags_inbox : (haltFlags s).inbox = s.inbox := rfl
@[simp] theorem haltFlags_hostData : (haltFlags s).hostData = s.hostData := rfl
@[simp] theorem haltFlags_raced : (haltFlags s).raced = s.raced := rfl
@[simp] theorem haltFlags_hostWrote : (haltFlags s).hostWrote = s.hostWrote := rfl
@[simp] theorem haltFlags_draws : (haltFlags s).draws = s.draws := rfl
@[simp] theorem haltFlags_wordDraws : (haltFlags s).wordDraws = s.wordDraws := rfl
@[simp] theorem haltFlags_desc (m : DescNo) : (haltFlags s).desc m = s.desc m := rfl

/-! `startRun` -/

@[simp] theorem startRun_cfg : (startRun s).cfg = s.cfg := rfl
@[simp] theorem startRun_mem : (startRun s).mem = s.mem := rfl
@[simp] theorem startRun_descs : (startRun s).descs = s.descs := rfl
@[simp] theorem startRun_busy : (startRun s).busy = true := rfl
@[simp] theorem startRun_done : (startRun s).done = false := rfl
@[simp] theorem startRun_err : (startRun s).err = false := rfl
@[simp] theorem startRun_doneIe : (startRun s).doneIe = s.doneIe := rfl
@[simp] theorem startRun_errIe : (startRun s).errIe = s.errIe := rfl
@[simp] theorem startRun_cmdPtr : (startRun s).cmdPtr = s.cmdPtr := rfl
@[simp] theorem startRun_errCode : (startRun s).errCode = 0#32 := rfl
@[simp] theorem startRun_errIndex : (startRun s).errIndex = 0#32 := rfl
@[simp] theorem startRun_lag : (startRun s).lag = s.lag := rfl
@[simp] theorem startRun_cmdsDone : (startRun s).cmdsDone = 0#32 := rfl
@[simp] theorem startRun_inbox : (startRun s).inbox = s.inbox := rfl
@[simp] theorem startRun_hostData : (startRun s).hostData = s.hostData := rfl
@[simp] theorem startRun_raced : (startRun s).raced = false := rfl
@[simp] theorem startRun_hostWrote : (startRun s).hostWrote = [] := rfl
@[simp] theorem startRun_draws : (startRun s).draws = s.draws := rfl
@[simp] theorem startRun_wordDraws : (startRun s).wordDraws = s.wordDraws + 1 := rfl
@[simp] theorem startRun_desc (m : DescNo) : (startRun s).desc m = s.desc m := rfl

/-! `resetRegisters` -/

@[simp] theorem resetRegisters_cfg : (resetRegisters s).cfg = s.cfg := rfl
@[simp] theorem resetRegisters_mem : (resetRegisters s).mem = s.mem := rfl
@[simp] theorem resetRegisters_descs : (resetRegisters s).descs = Vector.replicate 16 Desc.zero := rfl
@[simp] theorem resetRegisters_busy : (resetRegisters s).busy = false := rfl
@[simp] theorem resetRegisters_done : (resetRegisters s).done = false := rfl
@[simp] theorem resetRegisters_err : (resetRegisters s).err = false := rfl
@[simp] theorem resetRegisters_doneIe : (resetRegisters s).doneIe = false := rfl
@[simp] theorem resetRegisters_errIe : (resetRegisters s).errIe = false := rfl
@[simp] theorem resetRegisters_cmdPtr : (resetRegisters s).cmdPtr = 0#32 := rfl
@[simp] theorem resetRegisters_errCode : (resetRegisters s).errCode = 0#32 := rfl
@[simp] theorem resetRegisters_errIndex : (resetRegisters s).errIndex = 0#32 := rfl
@[simp] theorem resetRegisters_lag : (resetRegisters s).lag = 0#32 := rfl
@[simp] theorem resetRegisters_cmdsDone : (resetRegisters s).cmdsDone = 0#32 := rfl
@[simp] theorem resetRegisters_inbox : (resetRegisters s).inbox = s.inbox := rfl
@[simp] theorem resetRegisters_hostData : (resetRegisters s).hostData = s.hostData := rfl
@[simp] theorem resetRegisters_raced : (resetRegisters s).raced = false := rfl
@[simp] theorem resetRegisters_hostWrote : (resetRegisters s).hostWrote = [] := rfl
@[simp] theorem resetRegisters_draws : (resetRegisters s).draws = s.draws := rfl
@[simp] theorem resetRegisters_wordDraws : (resetRegisters s).wordDraws = s.wordDraws := rfl

/-! `clearFlags` -/

@[simp] theorem clearFlags_cfg (v : Word) : (clearFlags v s).cfg = s.cfg := rfl
@[simp] theorem clearFlags_mem (v : Word) : (clearFlags v s).mem = s.mem := rfl
@[simp] theorem clearFlags_descs (v : Word) : (clearFlags v s).descs = s.descs := rfl
@[simp] theorem clearFlags_busy (v : Word) : (clearFlags v s).busy = s.busy := rfl
@[simp] theorem clearFlags_done (v : Word) : (clearFlags v s).done = (s.done && !v.getLsbD 1) := rfl
@[simp] theorem clearFlags_err (v : Word) : (clearFlags v s).err = (s.err && !v.getLsbD 2) := rfl
@[simp] theorem clearFlags_doneIe (v : Word) : (clearFlags v s).doneIe = s.doneIe := rfl
@[simp] theorem clearFlags_errIe (v : Word) : (clearFlags v s).errIe = s.errIe := rfl
@[simp] theorem clearFlags_cmdPtr (v : Word) : (clearFlags v s).cmdPtr = s.cmdPtr := rfl
@[simp] theorem clearFlags_errCode (v : Word) : (clearFlags v s).errCode = s.errCode := rfl
@[simp] theorem clearFlags_errIndex (v : Word) : (clearFlags v s).errIndex = s.errIndex := rfl
@[simp] theorem clearFlags_lag (v : Word) : (clearFlags v s).lag = s.lag := rfl
@[simp] theorem clearFlags_cmdsDone (v : Word) : (clearFlags v s).cmdsDone = s.cmdsDone := rfl
@[simp] theorem clearFlags_inbox (v : Word) : (clearFlags v s).inbox = s.inbox := rfl
@[simp] theorem clearFlags_hostData (v : Word) : (clearFlags v s).hostData = s.hostData := rfl
@[simp] theorem clearFlags_raced (v : Word) : (clearFlags v s).raced = s.raced := rfl
@[simp] theorem clearFlags_hostWrote (v : Word) : (clearFlags v s).hostWrote = s.hostWrote := rfl
@[simp] theorem clearFlags_draws (v : Word) : (clearFlags v s).draws = s.draws := rfl
@[simp] theorem clearFlags_wordDraws (v : Word) : (clearFlags v s).wordDraws = s.wordDraws := rfl
@[simp] theorem clearFlags_desc (v : Word) (m : DescNo) : (clearFlags v s).desc m = s.desc m := rfl

/-! `setIrqEn` -/

@[simp] theorem setIrqEn_cfg (v : Word) : (setIrqEn v s).cfg = s.cfg := rfl
@[simp] theorem setIrqEn_mem (v : Word) : (setIrqEn v s).mem = s.mem := rfl
@[simp] theorem setIrqEn_descs (v : Word) : (setIrqEn v s).descs = s.descs := rfl
@[simp] theorem setIrqEn_busy (v : Word) : (setIrqEn v s).busy = s.busy := rfl
@[simp] theorem setIrqEn_done (v : Word) : (setIrqEn v s).done = s.done := rfl
@[simp] theorem setIrqEn_err (v : Word) : (setIrqEn v s).err = s.err := rfl
@[simp] theorem setIrqEn_doneIe (v : Word) : (setIrqEn v s).doneIe = v.getLsbD 1 := rfl
@[simp] theorem setIrqEn_errIe (v : Word) : (setIrqEn v s).errIe = v.getLsbD 2 := rfl
@[simp] theorem setIrqEn_cmdPtr (v : Word) : (setIrqEn v s).cmdPtr = s.cmdPtr := rfl
@[simp] theorem setIrqEn_errCode (v : Word) : (setIrqEn v s).errCode = s.errCode := rfl
@[simp] theorem setIrqEn_errIndex (v : Word) : (setIrqEn v s).errIndex = s.errIndex := rfl
@[simp] theorem setIrqEn_lag (v : Word) : (setIrqEn v s).lag = s.lag := rfl
@[simp] theorem setIrqEn_cmdsDone (v : Word) : (setIrqEn v s).cmdsDone = s.cmdsDone := rfl
@[simp] theorem setIrqEn_inbox (v : Word) : (setIrqEn v s).inbox = s.inbox := rfl
@[simp] theorem setIrqEn_hostData (v : Word) : (setIrqEn v s).hostData = s.hostData := rfl
@[simp] theorem setIrqEn_raced (v : Word) : (setIrqEn v s).raced = s.raced := rfl
@[simp] theorem setIrqEn_hostWrote (v : Word) : (setIrqEn v s).hostWrote = s.hostWrote := rfl
@[simp] theorem setIrqEn_draws (v : Word) : (setIrqEn v s).draws = s.draws := rfl
@[simp] theorem setIrqEn_wordDraws (v : Word) : (setIrqEn v s).wordDraws = s.wordDraws := rfl
@[simp] theorem setIrqEn_desc (v : Word) (m : DescNo) : (setIrqEn v s).desc m = s.desc m := rfl

end Sys2Proof.Machine
end

