-- ==== Sys2Proof/Laws/Memory.lean ====
section
/-! SUPPORT. The laws of local memory: what a read gives after a write, that every write keeps the canonical form, and that
little-endian bytes give their number back. -/

namespace Sys2Proof.Machine

/-! One byte. -/

theorem read?_set (m : Memory) (a x : Nat) (v : Byte) :
    (m.set a v).read? x = if x = a then some v else m.read? x := by
  induction m with
  | nil => simp [Memory.set, Memory.read?, eq_comm]
  | cons c m ih =>
    obtain ⟨y, b⟩ := c
    simp only [Memory.set]
    split
    · simp only [Memory.read?, eq_comm]
    · split
      · subst_vars
        by_cases h : y = x
        · simp [Memory.read?, h]
        · simp [Memory.read?, h, Ne.symm h]
      · simp only [Memory.read?, ih]
        by_cases h : y = x
        · subst h
          simp_all [eq_comm]
        · simp [h]

/-- A stored entry is the new one or an old one. -/
theorem mem_set {m : Memory} {a : Nat} {v : Byte} {c : Host.Cell} (h : c ∈ m.set a v) : c = (a, v) ∨ c ∈ m := by
  induction m with
  | nil => simpa [Memory.set] using h
  | cons d m ih =>
    obtain ⟨y, b⟩ := d
    simp only [Memory.set] at h
    split at h
    · exact List.mem_cons.mp h
    · split at h
      · exact (List.mem_cons.mp h).imp_right (List.mem_cons_of_mem _)
      · rcases List.mem_cons.mp h with rfl | h
        · exact .inr (by simp)
        · exact (ih h).imp_right (List.mem_cons_of_mem _)

theorem below_set {m : Memory} {n a : Nat} (v : Byte) (h : m.below n) (ha : a < n) : (m.set a v).below n :=
  fun c hc => (mem_set hc).elim (fun e => by rw [e]; exact ha) (h c)

theorem gt_set {m : Memory} {y a : Nat} (v : Byte) (h : ∀ c ∈ m, y < c.1) (ha : y < a) :
    ∀ c ∈ m.set a v, y < c.1 :=
  fun c hc => (mem_set hc).elim (fun e => by rw [e]; exact ha) (h c)

theorem wf_set {m : Memory} (a : Nat) (v : Byte) (h : m.wf) : (m.set a v).wf := by
  induction m with
  | nil => simp [Memory.set]
  | cons c m ih =>
    obtain ⟨y, b⟩ := c
    obtain ⟨hy, hm⟩ := List.pairwise_cons.mp h
    simp only [Memory.set]
    split
    · rename_i hay
      refine List.pairwise_cons.mpr ⟨?_, h⟩
      intro c hc
      rcases List.mem_cons.mp hc with rfl | hc
      · exact hay
      · exact hay.trans (hy c hc)
    · split
      · subst_vars
        exact List.pairwise_cons.mpr ⟨hy, hm⟩
      · exact List.pairwise_cons.mpr ⟨gt_set v hy (by omega), ih hm⟩

/-! Several bytes. -/

theorem read?_setBytes (m : Memory) (a x : Nat) (bs : List Byte) :
    (m.setBytes a bs).read? x = if a ≤ x ∧ x < a + bs.length then bs[x - a]? else m.read? x := by
  induction bs generalizing m a with
  | nil =>
    have : ¬(a ≤ x ∧ x < a + ([] : List Byte).length) := by simp
    rw [if_neg this]; rfl
  | cons b bs ih =>
    simp only [Memory.setBytes, ih, List.length_cons, read?_set]
    rcases Nat.lt_trichotomy x a with hx | rfl | hx
    · rw [if_neg (by omega), if_neg (by omega), if_neg (by omega)]
    · rw [if_neg (by omega), if_pos rfl, if_pos (by omega)]; simp
    · by_cases hl : x < a + (bs.length + 1)
      · rw [if_pos (by omega), if_pos (by omega), show x - a = (x - (a + 1)) + 1 by omega]; simp
      · rw [if_neg (by omega), if_neg (by omega), if_neg (by omega)]

theorem wf_setBytes {m : Memory} (a : Nat) (bs : List Byte) (h : m.wf) : (m.setBytes a bs).wf := by
  induction bs generalizing m a with
  | nil => exact h
  | cons b bs ih => exact ih _ (wf_set a b h)

theorem below_setBytes {m : Memory} {n a : Nat} (bs : List Byte) (h : m.below n) (ha : a + bs.length ≤ n) :
    (m.setBytes a bs).below n := by
  induction bs generalizing m a with
  | nil => exact h
  | cons b bs ih =>
    rw [List.length_cons] at ha
    exact ih (below_set b h (by omega)) (by omega)

theorem below_setBytes_nil {m : Memory} {n : Nat} (a : Nat) {bs : List Byte} (h : m.below n) (hb : bs.length = 0) :
    (m.setBytes a bs).below n := by
  rw [List.length_eq_zero_iff] at hb; subst hb; exact h

/-! Reading the machine's MEM. -/

/-- What a byte reads as depends on MEM alone. -/
theorem readByte_congr {s t : State} (h : t.mem = s.mem) (x : Nat) : readByte t x = readByte s x := by
  simp only [readByte, h]

theorem readByte_setBytes {s t : State} {a : Nat} {bs : List Byte} (h : t.mem = s.mem.setBytes a bs) (x : Nat) :
    readByte t x = if a ≤ x ∧ x < a + bs.length then bs.getD (x - a) 0#8 else readByte s x := by
  simp only [readByte, h, read?_setBytes]
  split
  · rename_i hx
    rw [List.getElem?_eq_getElem (show x - a < bs.length by omega), List.getD_eq_getElem?_getD,
      List.getElem?_eq_getElem (show x - a < bs.length by omega)]
    simp
  · rfl

theorem readByte_outside {s t : State} {a : Nat} {bs : List Byte} (h : t.mem = s.mem.setBytes a bs) {x : Nat}
    (hx : x < a ∨ a + bs.length ≤ x) : readByte t x = readByte s x := by
  rw [readByte_setBytes h, if_neg (by omega)]

theorem memRead_congr {s t : State} {n : Nat} : ∀ {a : Nat},
    (∀ x, a ≤ x → x < a + n → readByte t x = readByte s x) → memRead t a n = memRead s a n := by
  induction n with
  | zero => intros; rfl
  | succ n ih =>
    intro a h
    rw [memRead, memRead, h a (by omega) (by omega), ih fun x h1 h2 => h x (by omega) (by omega)]

theorem memRead_lt (s : State) (n a : Nat) : memRead s a n < 256 ^ n := by
  induction n generalizing a with
  | zero => simp [memRead]
  | succ n ih =>
    have h1 := ih (a + 1)
    have h2 := (readByte s a).isLt
    rw [memRead, pow_succ]
    omega

/-! Little-endian bytes. -/

@[simp] theorem length_leBytes (n v : Nat) : (leBytes n v).length = n := by
  induction n generalizing v with
  | zero => rfl
  | succ n ih => simp [leBytes, ih]

@[simp] theorem length_drawnBytes (k n : Nat) : (drawnBytes k n).length = n := by simp [drawnBytes]

/-- Bytes that read as the little-endian bytes of a number give that number. -/
theorem memRead_of_leBytes {s : State} {n a v : Nat}
    (h : ∀ i, i < n → readByte s (a + i) = (leBytes n v).getD i 0#8) : memRead s a n = v % 256 ^ n := by
  induction n generalizing a v with
  | zero => simp [memRead, Nat.mod_one]
  | succ n ih =>
    have h0 := h 0 (by omega)
    simp only [leBytes, Nat.add_zero, List.getD_cons_zero] at h0
    have := ih (a := a + 1) (v := v / 256) fun i hi => by
      have := h (i + 1) (by omega)
      simpa [leBytes, Nat.add_assoc, Nat.add_comm 1 i] using this
    have e : 256 ^ (n + 1) = 256 * 256 ^ n := by rw [Nat.pow_succ, Nat.mul_comm]
    rw [memRead, h0, this, BitVec.toNat_ofNat, e, Nat.mod_mul]

/-- Index into a list of equal-sized chunks. -/
theorem getD_flatMap {α : Type} (f : α → List Byte) (k : Nat) (hf : ∀ x, (f x).length = k) (xs : List α) (i j : Nat)
    (hi : i < xs.length) (hj : j < k) : (xs.flatMap f).getD (k * i + j) 0#8 = (f xs[i]).getD j 0#8 := by
  induction xs generalizing i with
  | nil => simp at hi
  | cons x xs ih =>
    cases i with
    | zero =>
      simp only [List.flatMap_cons, Nat.mul_zero, Nat.zero_add, List.getElem_cons_zero, List.getD_eq_getElem?_getD]
      rw [List.getElem?_append_left (by rw [hf]; exact hj)]
    | succ i =>
      simp only [List.flatMap_cons, List.getElem_cons_succ, List.getD_eq_getElem?_getD]
      rw [List.getElem?_append_right (by rw [hf, Nat.mul_succ]; omega), hf,
        show k * (i + 1) + j - k = k * i + j by rw [Nat.mul_succ]; omega]
      simpa only [List.getD_eq_getElem?_getD] using ih i (by simpa using hi)

theorem length_flatMap_const {α : Type} (f : α → List Byte) (k : Nat) (hf : ∀ x, (f x).length = k) (xs : List α) :
    (xs.flatMap f).length = k * xs.length := by
  induction xs with
  | nil => simp
  | cons x xs ih => simp [hf, ih, Nat.mul_succ, Nat.add_comm]

/-- After the little-endian items of a list are stored, reading the place of item `i` gives it. -/
theorem memRead_items {α : Type} {s t : State} {a k : Nat} (f : α → Nat) (xs : List α)
    (h : t.mem = s.mem.setBytes a (xs.flatMap fun x => leBytes k (f x))) (i : Nat) (hi : i < xs.length) :
    memRead t (a + k * i) k = f xs[i] % 256 ^ k := by
  apply memRead_of_leBytes
  intro j hj
  have hl := length_flatMap_const (fun x => leBytes k (f x)) k (fun x => length_leBytes k (f x)) xs
  have hlt : k * i + j < k * xs.length := by
    calc k * i + j < k * i + k := by omega
      _ = k * (i + 1) := by rw [Nat.mul_succ]
      _ ≤ k * xs.length := Nat.mul_le_mul_left k hi
  rw [readByte_setBytes h, if_pos (by rw [hl]; omega), show a + k * i + j - a = k * i + j by omega,
    getD_flatMap (fun x => leBytes k (f x)) k (fun x => length_leBytes k (f x)) xs i j hi hj]

@[simp] theorem length_sampleBytes (xs : List F64) : (sampleBytes xs).length = 8 * xs.length :=
  length_flatMap_const (fun x : F64 => leBytes 8 x.toNat) 8 (fun x => length_leBytes 8 x.toNat) xs

/-- A stored sample reads back. -/
theorem sample_readback {s t : State} {a : Nat} (xs : List F64) (h : t.mem = s.mem.setBytes a (sampleBytes xs))
    (i : Nat) (hi : i < xs.length) : BitVec.ofNat 64 (memRead t (a + 8 * i) 8) = xs[i] := by
  rw [memRead_items (fun x : F64 => x.toNat) xs h i hi]
  apply BitVec.eq_of_toNat_eq
  have h := xs[i].isLt
  rw [BitVec.toNat_ofNat]
  omega

/-- Storing bytes inside MEM keeps the memory's part of the invariant. -/
theorem memOk_setBytes {m : Memory} {n : Nat} (hw : m.wf) (hb : m.below n) (a : Nat) (bs : List Byte)
    (h : bs.length = 0 ∨ a + bs.length ≤ n) : (m.setBytes a bs).wf ∧ (m.setBytes a bs).below n :=
  ⟨wf_setBytes a bs hw, h.elim (fun h0 => below_setBytes_nil a hb h0) fun h1 => below_setBytes bs hb h1⟩

/-- Byte `k` of the little-endian bytes of a number. -/
theorem getD_leBytes_div (n v k : Nat) (h : k < n) : (leBytes n v).getD k 0#8 = BitVec.ofNat 8 (v / 256 ^ k) := by
  induction n generalizing v k with
  | zero => omega
  | succ n ih =>
    cases k with
    | zero => simp [leBytes]
    | succ k =>
      simp only [leBytes, List.getD_cons_succ]
      rw [ih _ _ (by omega), Nat.div_div_eq_div_mul, pow_succ, Nat.mul_comm]

end Sys2Proof.Machine
end

