-- ==== Sys2Proof/Laws/Operands.lean ====
section
/-! SUPPORT. What the operand checks say: a check passes exactly when its operand is ready, and an error of the checks names
an operand with ERR_INDEX 0. -/

namespace Sys2Proof.Machine

@[simp] theorem operandFault_ne_none (name : ErrName) (r : Role) (n : DescNo) : operandFault name r n ≠ none := nofun

/-- The source checks pass exactly when the source is ready (40_command_execution R145). -/
theorem checkSrc_eq_none (s : State) (r : Role) (sp : SrcSpec) :
    checkSrc s r sp = none ↔ SourceReady s sp.desc sp.kind sp.chanRate sp.nonempty := by
  have hlen : (s.desc sp.desc).len = 0#32 ↔ lenOf s sp.desc = 0 := by
    simp [BitVec.toNat_eq]
  unfold checkSrc
  simp only [ite_eq_iff, operandFault_ne_none, and_false, false_or, and_true, hlen]
  constructor
  · rintro ⟨h1, h2, h3, h4, h5, h6, h7, h8⟩
    refine ⟨by simpa using h1, ?_, ?_, ?_, Nat.not_lt.mp h5, ?_, ?_, Nat.not_lt.mp h8⟩
    · intro hc; by_contra h; exact h2 ⟨hc, h⟩
    · intro hk; by_contra h; exact h3 ⟨hk, not_or.mp h⟩
    · intro hc h; exact h4 ⟨hc, h⟩
    · intro hk; by_contra h; exact h6 ⟨hk, h⟩
    · intro hn; by_contra h; exact h7 ⟨hn, by omega⟩
  · rintro ⟨h1, h2, h3, h4, h5, h6, h7, h8⟩
    refine ⟨by simpa using h1, ?_, ?_, ?_, Nat.not_lt.mpr h5, ?_, ?_, Nat.not_lt.mpr h8⟩
    · rintro ⟨hc, h⟩; exact h (h2 hc)
    · rintro ⟨hk, ha, hb⟩; exact (h3 hk).elim ha hb
    · rintro ⟨hc, h⟩; exact h4 hc h
    · rintro ⟨hk, h⟩; exact h (h6 hk)
    · rintro ⟨hn, h⟩; have := h7 hn; omega

/-- Used ranges do not overlap exactly when one is empty or they lie apart (40_command_execution R146). -/
theorem overlaps_eq_false (a n c m : Nat) :
    overlaps a n c m = false ↔ n = 0 ∨ m = 0 ∨ a + n ≤ c ∨ c + m ≤ a := by
  simp only [overlaps, Bool.and_eq_false_iff, decide_eq_false_iff_not]
  omega

theorem overlapsSrc_some (s : State) (rd : DescNo) (n : Nat) (sp : SrcSpec) :
    ¬ overlapsSrc s (baseOf s rd) n (some sp) = true ↔ NoOverlap s rd n sp.desc := by
  simp only [overlapsSrc, Bool.not_eq_true, overlaps_eq_false]

/-- The destination checks pass exactly when the destination is ready and overlaps no source (40_command_execution R148,
R149). -/
theorem checkDst_eq_none (s : State) (sig : OperandSig) (sp : DstSpec) :
    checkDst s sig sp = none ↔ DestReady s sp.desc sp.kind (outBytes s sig sp) ∧
      (∀ a, sig.src1 = some a → NoOverlap s sp.desc (outBytes s sig sp) a.desc) ∧
      (∀ a, sig.src2 = some a → NoOverlap s sp.desc (outBytes s sig sp) a.desc) := by
  have ho : ∀ o : Option SrcSpec, ¬ overlapsSrc s (baseOf s sp.desc) (outBytes s sig sp) o = true ↔
      ∀ a, o = some a → NoOverlap s sp.desc (outBytes s sig sp) a.desc := by
    intro o
    cases o with
    | none => simp [overlapsSrc]
    | some a =>
      rw [overlapsSrc_some]
      exact ⟨fun h b hb => by cases hb; exact h, fun h => h a rfl⟩
  unfold checkDst
  simp only [ite_eq_iff, operandFault_ne_none, and_false, false_or, and_true, not_or, ho]
  constructor
  · rintro ⟨h1, h2, h3, h4⟩
    exact ⟨⟨Nat.not_lt.mp h1, fun hk => by by_contra h; exact h2 ⟨hk, h⟩, Nat.not_lt.mp h3⟩, h4⟩
  · rintro ⟨⟨h1, h2, h3⟩, h4⟩
    exact ⟨Nat.not_lt.mpr h1, fun ⟨hk, h⟩ => h (h2 hk), Nat.not_lt.mpr h3, h4⟩

theorem checkPair_eq_none (s : State) (sig : OperandSig) {a b : SrcSpec} (ha : sig.src1 = some a)
    (hb : sig.src2 = some b) :
    checkPair s sig = none ↔ (sig.rateMatch = true → (s.desc a.desc).rate = (s.desc b.desc).rate) ∧
      (sig.lenMatch = true → (s.desc a.desc).len = (s.desc b.desc).len) := by
  simp only [checkPair, ha, hb, ite_eq_iff, operandFault_ne_none, and_false, false_or, and_true, not_and, not_not, ne_eq]

/-- All operand checks pass exactly when each passes. -/
theorem operandError_eq_none (s : State) (sig : OperandSig) :
    operandError s sig = none ↔ checkSrcOf s .rs1 sig.src1 = none ∧ checkSrcOf s .rs2 sig.src2 = none ∧
      checkPair s sig = none ∧ sig.dst.bind (checkDst s sig) = none := by
  simp only [operandError, Option.or_eq_none_iff, and_assoc]

/-! Each command's operands. -/

theorem dec_operands (s : State) (rd rs1 : DescNo) :
    operandError s (sigOf (.dec rd rs1)) = none ↔ DecReady s rd rs1 := by
  simp [operandError_eq_none, sigOf, checkSrcOf, checkSrc_eq_none, checkDst_eq_none, checkPair, sampleDst, outBytes,
    outLength, srcLen, Nat.mul_comm 8]

theorem enc_operands (s : State) (rd rs1 : DescNo) :
    operandError s (sigOf (.enc rd rs1)) = none ↔ EncReady s rd rs1 := by
  simp [operandError_eq_none, sigOf, checkSrcOf, checkSrc_eq_none, checkDst_eq_none, checkPair, outBytes,
    outLength, srcLen, Nat.mul_comm 2]

theorem conv_operands (s : State) (rd rs1 rs2 : DescNo) :
    operandError s (sigOf (.conv rd rs1 rs2)) = none ↔ ConvReady s rd rs1 rs2 := by
  simp [operandError_eq_none, sigOf, fullSample, checkSrcOf, checkSrc_eq_none, checkDst_eq_none, checkPair, sampleDst,
    outBytes, outLength, srcLen, Nat.mul_comm 8, operandFault_ne_none]

theorem fir_operands (s : State) (rd rs1 rs2 : DescNo) :
    operandError s (sigOf (.fir rd rs1 rs2)) = none ↔ FirReady s rd rs1 rs2 := by
  simp [operandError_eq_none, sigOf, fullSample, checkSrcOf, checkSrc_eq_none, checkDst_eq_none, checkPair, sampleDst,
    outBytes, outLength, srcLen, Nat.mul_comm 8]

theorem deconv_operands (s : State) (rd rs1 rs2 : DescNo) :
    operandError s (deconvSig rd rs1 rs2) = none ↔ DeconvReady s rd rs1 rs2 := by
  simp [operandError_eq_none, deconvSig, fullSample, checkSrcOf, checkSrc_eq_none, checkDst_eq_none, checkPair,
    sampleDst, outBytes, outLength, srcLen, Nat.mul_comm 8, operandFault_ne_none]

theorem xcorr_operands (s : State) (rs1 rs2 : DescNo) :
    operandError s (sigOf (.xcorr rs1 rs2)) = none ↔ XcorrReady s rs1 rs2 := by
  simp [operandError_eq_none, sigOf, fullSample, checkSrcOf, checkSrc_eq_none, checkPair, ite_eq_iff,
    operandFault_ne_none]

end Sys2Proof.Machine
end

