-- ==== Sys2Proof/Laws/Ops.lean ====
section
/-! SUPPORT. What the shared operations do, said once: descriptors after a write, the FMT of a result, a completed command
with a destination, and what `orRaise` can answer. -/

namespace Sys2Proof.Machine

theorem desc_setDesc (s : State) (n m : DescNo) (d : Desc) :
    (setDesc s n d).desc m = if m = n then d else s.desc m := by
  simp only [State.desc, setDesc_descs, Vector.getElem_set, Fin.ext_iff, eq_comm]

/-! The FMT of a result (40_command_execution R150). -/

theorem resultFmt_fields : ∀ (k : BufKind) (p : BitVec 8),
    (resultFmt k p).getLsbD 16 = (k == .pcm) ∧ (resultFmt k p).extractLsb' 8 8 = p ∧
      (resultFmt k p).extractLsb' 0 8 = 1#8 := by
  intro k
  cases k <;> decide +kernel

theorem resultFmt_kind (d : Desc) (k : BufKind) (p : BitVec 8) (h : d.fmt = resultFmt k p) : d.kind = k := by
  rw [Desc.kind, h, (resultFmt_fields k p).1]
  cases k <;> rfl

theorem resultFmt_depth (d : Desc) (k : BufKind) (p : BitVec 8) (h : d.fmt = resultFmt k p) : d.depth = p := by
  rw [Desc.depth, h, (resultFmt_fields k p).2.1]

theorem resultFmt_chan (d : Desc) (k : BufKind) (p : BitVec 8) (h : d.fmt = resultFmt k p) : d.chan = 1#8 := by
  rw [Desc.chan, h, (resultFmt_fields k p).2.2]

theorem desc_writeBack (s : State) (rd m : DescNo) (len : Nat) (rate : Word) (k : BufKind) (p : BitVec 8) :
    (writeBack s rd len rate k p).desc m = if m = rd then
      { base := (s.desc rd).base, len := BitVec.ofNat 32 len, cap := (s.desc rd).cap, rate := rate,
        fmt := resultFmt k p } else s.desc m :=
  desc_setDesc s rd m _

theorem desc_finishInto (s : State) (rd m : DescNo) (bs : List Byte) (len : Nat) (rate : Word) (k : BufKind)
    (p : BitVec 8) :
    (finishInto s rd bs len rate k p).desc m = if m = rd then
      { base := (s.desc rd).base, len := BitVec.ofNat 32 len, cap := (s.desc rd).cap, rate := rate,
        fmt := resultFmt k p } else s.desc m :=
  desc_writeBack (memWrite s (s.desc rd).base.toNat bs) rd m len rate k p

/-- A command that stores `n` result bytes completes into its destination (40_command_execution R150, R151). -/
theorem finishInto_completed (s : State) (rd rs1 : DescNo) (bs : List Byte) (len n : Nat) (k : BufKind)
    (p : BitVec 8) (hn : bs.length = n) (hlen : len < 2 ^ 32) :
    CompletedInto s (finishInto s rd bs len (s.desc rs1).rate k p) rd rs1 len n k p := by
  have hd := desc_finishInto s rd rd bs len (s.desc rs1).rate k p
  rw [if_pos rfl] at hd
  refine ⟨⟨rfl, rfl⟩, rfl, ⟨rfl, rfl, rfl, rfl, rfl, rfl, rfl, rfl, rfl, rfl, rfl, rfl, rfl⟩, ⟨?_, ?_, ?_, ?_, ?_, ?_, ?_, ?_⟩, ?_⟩
  · rw [hd]
  · rw [hd]
  · rw [hd]; exact (BitVec.toNat_ofNat _ _).trans (Nat.mod_eq_of_lt hlen)
  · rw [hd]
  · exact resultFmt_kind _ k p (by rw [hd])
  · exact resultFmt_depth _ k p (by rw [hd])
  · exact resultFmt_chan _ k p (by rw [hd])
  · intro m hm; rw [desc_finishInto, if_neg hm]
  · intro x hx
    exact readByte_outside (bs := bs) (a := (s.desc rd).base.toNat) rfl (by rw [hn]; exact hx)

theorem finishSamples_completed (s : State) (rd rs1 : DescNo) (xs : List F64) (n : Nat) (hn : xs.length = n)
    (hlen : n < 2 ^ 32) :
    CompletedInto s (finishSamples s rd rs1 xs) rd rs1 n (8 * n) .sample (s.desc rs1).depth := by
  subst hn
  exact finishInto_completed s rd rs1 _ _ _ _ _ (length_sampleBytes xs) hlen

/-- A stored result sample reads back. -/
theorem finishSamples_sample (s : State) (rd rs1 : DescNo) (xs : List F64) (i : Nat) (hi : i < xs.length) :
    sampleOf (finishSamples s rd rs1 xs) rd i = xs[i] := by
  have hb : baseOf (finishSamples s rd rs1 xs) rd = baseOf s rd := by
    have hd := desc_finishInto s rd rd (sampleBytes xs) xs.length (s.desc rs1).rate .sample (s.desc rs1).depth
    rw [if_pos rfl] at hd
    exact (congrArg (fun d : Desc => d.base.toNat) hd :)
  show BitVec.ofNat 64 (memRead _ (baseOf (finishSamples s rd rs1 xs) rd + 8 * i) 8) = _
  rw [hb]
  exact sample_readback xs rfl i hi

/-! `orRaise`. -/

@[simp] theorem orRaise_none (s after : State) : orRaise none s after = after := rfl
@[simp] theorem orRaise_some (e : CmdError) (s after : State) : orRaise (some e) s after = raiseError e s := rfl

/-- Either some check failed and its error is recorded, or none failed and the command had its effect. -/
theorem orRaise_cases (first : Option CmdError) (s after : State) :
    (∃ e, first = some e ∧ orRaise first s after = raiseError e s) ∨ (first = none ∧ orRaise first s after = after) := by
  cases first with
  | none => exact .inr ⟨rfl, rfl⟩
  | some e => exact .inl ⟨e, rfl, rfl⟩

/-! The buffers. -/

@[simp] theorem length_readSamples (s : State) (n : DescNo) : (readSamples s n).length = lenOf s n := by
  simp [readSamples]

theorem getElem_readSamples (s : State) (n : DescNo) (i : Nat) (h : i < (readSamples s n).length) :
    (readSamples s n)[i] = sampleOf s n i := by
  simp [readSamples]

theorem sampleAt_readSamples (s : State) (n : DescNo) (i : Nat) (h : i < lenOf s n) :
    sampleAt (readSamples s n) i = sampleOf s n i := by
  rw [sampleAt, List.getD_eq_getElem?_getD, List.getElem?_eq_getElem (by rw [length_readSamples]; exact h)]
  exact getElem_readSamples s n i _

@[simp] theorem length_readFrames (s : State) (n : DescNo) (k : Nat) : (readFrames s n k).length = lenOf s n := by
  simp [readFrames]

theorem setDesc_self (s : State) (n : DescNo) : setDesc s n (s.desc n) = s := by
  simp [setDesc, State.desc]

/-- What a sample reads as depends on MEM and the descriptors alone. -/
theorem sampleOf_congr {s t : State} (hm : t.mem = s.mem) (hd : t.descs = s.descs) (n : DescNo) (i : Nat) :
    sampleOf t n i = sampleOf s n i := by
  have h : t.desc n = s.desc n := by rw [State.desc, State.desc, hd]
  unfold sampleOf
  rw [memRead_congr (s := s) (fun x _ _ => readByte_congr hm x), baseOf, h]

/-! ERR_CODE (60_exceptions R271, R272). -/

theorem errorWord_toNat (e : CmdError) :
    e.word.toNat = e.role.code.toNat * 2 ^ 12 + e.desc.val * 2 ^ 8 + e.name.code.toNat := by
  have hd : (BitVec.ofNat 4 e.desc.val).toNat = e.desc.val := by simp
  have h : ∀ (r : BitVec 2) (d : BitVec 4) (c : BitVec 8),
      (0#18 ++ r ++ d ++ c : BitVec 32).toNat = r.toNat * 2 ^ 12 + d.toNat * 2 ^ 8 + c.toNat := by
    intro r d c
    simp only [toNat_append_add, BitVec.toNat_ofNat]
    omega
  rw [CmdError.word, h, hd]

theorem errorWord_code (e : CmdError) : e.word.toNat % 256 = e.name.code.toNat := by
  have := e.name.code.isLt
  rw [errorWord_toNat]
  omega

theorem errorWord_lt (e : CmdError) : e.word.toNat < 2 ^ 14 := by
  have h1 := e.name.code.isLt; have h2 := e.desc.isLt; have h3 := e.role.code.isLt
  rw [errorWord_toNat]
  omega

theorem errorCode_ne_zero (n : ErrName) : n.code.toNat ≠ 0 := by cases n <;> decide

end Sys2Proof.Machine
end

