-- ==== Sys2Proof/Laws/Exec.lean ====
section
/-! SUPPORT. What each command can do, said once: if `exec` answers next `t`, then a check failed and its error is recorded,
or every check passed and `t` is the command's effect. -/

namespace Sys2Proof.Machine

/-- Every command answers a next state: no fault and no refusal. -/
theorem exec_next (i : Instr) (s : State) : ∃ t, exec i s = .next t := by
  cases i <;> exact ⟨_, rfl⟩

theorem exec_halt_cases {s t : State} (h : exec .halt s = .next t) : t = haltFlags (complete s) := by
  cases h; rfl

theorem exec_nop_cases {s t : State} (h : exec .nop s = .next t) : t = complete s := by
  cases h; rfl

theorem exec_dec_cases {rd rs1 : DescNo} {s t : State} (h : exec (.dec rd rs1) s = .next t) :
    (∃ e, operandError s (sigOf (.dec rd rs1)) = some e ∧ t = raiseError e s) ∨
    (DecReady s rd rs1 ∧ t = finishSamples s rd rs1 (decodedSamples s rs1)) := by
  cases h
  exact (orRaise_cases _ _ _).imp id fun h => ⟨(dec_operands s rd rs1).mp h.1, h.2⟩

theorem exec_enc_cases {rd rs1 : DescNo} {s t : State} (h : exec (.enc rd rs1) s = .next t) :
    (∃ e, (operandError s (sigOf (.enc rd rs1))).or
      (firstOffender encOutOfRange .encRange .rs1 rs1 (readSamples s rs1)) = some e ∧ t = raiseError e s) ∨
    (EncReady s rd rs1 ∧ firstOffender encOutOfRange .encRange .rs1 rs1 (readSamples s rs1) = none ∧
      t = finishInto s rd (frameBytes (readSamples s rs1)) (readSamples s rs1).length (s.desc rs1).rate .pcm 16#8) := by
  cases h
  refine (orRaise_cases _ _ _).imp id fun h => ?_
  obtain ⟨h1, h2⟩ := Option.or_eq_none_iff.mp h.1
  exact ⟨(enc_operands s rd rs1).mp h1, h2, h.2⟩

theorem exec_conv_cases {rd rs1 rs2 : DescNo} {s t : State} (h : exec (.conv rd rs1 rs2) s = .next t) :
    (∃ e, (operandError s (sigOf (.conv rd rs1 rs2))).or
      (amplitudeError rs1 rs2 (readSamples s rs1) (readSamples s rs2)) = some e ∧ t = raiseError e s) ∨
    (ConvReady s rd rs1 rs2 ∧ amplitudeError rs1 rs2 (readSamples s rs1) (readSamples s rs2) = none ∧
      t = finishSamples s rd rs1 (convOut (readSamples s rs1) (readSamples s rs2))) := by
  cases h
  refine (orRaise_cases _ _ _).imp id fun h => ?_
  obtain ⟨h1, h2⟩ := Option.or_eq_none_iff.mp h.1
  exact ⟨(conv_operands s rd rs1 rs2).mp h1, h2, h.2⟩

/-- FIR's effect: the result with its NaNs replaced, and the draws that took. -/
def firEffect (rd rs1 rs2 : DescNo) (s : State) : State :=
  { finishSamples s rd rs1 (replaceNans s.draws (firOut (readSamples s rs1) (readSamples s rs2))) with
    draws := s.draws + (firOut (readSamples s rs1) (readSamples s rs2)).countP isNaN }

theorem exec_fir_cases {rd rs1 rs2 : DescNo} {s t : State} (h : exec (.fir rd rs1 rs2) s = .next t) :
    (∃ e, operandError s (sigOf (.fir rd rs1 rs2)) = some e ∧ t = raiseError e s) ∨
    (FirReady s rd rs1 rs2 ∧ t = firEffect rd rs1 rs2 s) := by
  cases h
  exact (orRaise_cases _ _ _).imp id fun h => ⟨(fir_operands s rd rs1 rs2).mp h.1, h.2⟩

/-- The error of a degenerate peak (42_convolution R226). -/
def peakError (rd : DescNo) : CmdError := { name := .peakDegenerate, role := .rd, desc := rd, index := 0 }

/-- The sums that DECONV normalizes. -/
def deconvSumsOf (s : State) (rs1 rs2 : DescNo) : List F64 := deconvSums (readSamples s rs1) (readSamples s rs2)

theorem deconvolve_eq (rd rs1 rs2 : DescNo) (s : State) :
    deconvolve rd rs1 rs2 s = orRaise (operandError s (deconvSig rd rs1 rs2)) s
      (if peakDegenerate (deconvSumsOf s rs1 rs2) then
        raiseError (peakError rd) (drawRange s (baseOf s rd) (8 * (deconvSumsOf s rs1 rs2).length))
      else finishSamples s rd rs1 (normalize (deconvSumsOf s rs1 rs2))) := rfl

theorem deconvolve_cases (rd rs1 rs2 : DescNo) (s : State) :
    (∃ e, operandError s (deconvSig rd rs1 rs2) = some e ∧ deconvolve rd rs1 rs2 s = raiseError e s) ∨
    (DeconvReady s rd rs1 rs2 ∧ peakDegenerate (deconvSumsOf s rs1 rs2) = true ∧
      deconvolve rd rs1 rs2 s =
        raiseError (peakError rd) (drawRange s (baseOf s rd) (8 * (deconvSumsOf s rs1 rs2).length))) ∨
    (DeconvReady s rd rs1 rs2 ∧ peakDegenerate (deconvSumsOf s rs1 rs2) = false ∧
      deconvolve rd rs1 rs2 s = finishSamples s rd rs1 (normalize (deconvSumsOf s rs1 rs2))) := by
  rw [deconvolve_eq]
  refine (orRaise_cases _ _ _).imp id fun ⟨h1, h2⟩ => ?_
  have hr := (deconv_operands s rd rs1 rs2).mp h1
  cases hp : peakDegenerate (deconvSumsOf s rs1 rs2) with
  | true =>
    rw [hp, if_pos rfl] at h2
    exact .inl ⟨hr, rfl, h2⟩
  | false =>
    rw [hp, if_neg (by decide)] at h2
    exact .inr ⟨hr, rfl, h2⟩

theorem exec_deconvT_eq (rd rs1 rs2 : DescNo) (s : State) :
    exec (.deconvT rd rs1 rs2) s = .next (deconvolve rd rs1 rs2 s) := rfl

theorem exec_deconvF_eq (rd rs1 rs2 : DescNo) (s : State) :
    exec (.deconvF rd rs1 rs2) s = .next (deconvolve rd rs1 rs2 s) := rfl

theorem exec_xcorr_cases {rs1 rs2 : DescNo} {s t : State} (h : exec (.xcorr rs1 rs2) s = .next t) :
    (∃ e, (operandError s (sigOf (.xcorr rs1 rs2))).or
      (nanError (correlations (readSamples s rs1) (readSamples s rs2))) = some e ∧ t = raiseError e s) ∨
    (XcorrReady s rs1 rs2 ∧ nanError (correlations (readSamples s rs1) (readSamples s rs2)) = none ∧
      t = finishLag s (lagAt (correlations (readSamples s rs1) (readSamples s rs2)).length
        (bestPosition (correlations (readSamples s rs1) (readSamples s rs2))))) := by
  cases h
  refine (orRaise_cases _ _ _).imp id fun h => ?_
  obtain ⟨h1, h2⟩ := Option.or_eq_none_iff.mp h.1
  exact ⟨(xcorr_operands s rs1 rs2).mp h1, h2, h.2⟩

/-- The three things a command can have done: recorded an error and nothing else; recorded a degenerate peak after
drawing the bytes of its destination's used range; or completed. -/
inductive Did (s t : State) : Prop where
  | raised (e : CmdError) (h : t = raiseError e s)
  | degenerate (rd : DescNo) (n : Nat) (hn : DestReady s rd .sample n)
      (h : t = raiseError (peakError rd) (drawRange s (baseOf s rd) n))
  | halted (h : t = haltFlags (complete s))
  | counted (h : t = complete s)
  | stored (rd rs1 : DescNo) (bs : List Byte) (len : Nat) (k : BufKind) (p : BitVec 8) (draws : Nat)
      (hn : DestReady s rd k bs.length)
      (h : t = { finishInto s rd bs len (s.desc rs1).rate k p with draws := draws })
  | lagged (rs1 rs2 : DescNo) (j : Nat) (hr : XcorrReady s rs1 rs2) (hj : j < lenOf s rs1)
      (h : t = finishLag s (lagAt (lenOf s rs1) j))

theorem length_rescale (xs : List F64) : (rescale xs).length = xs.length := by
  cases xs with
  | nil => rfl
  | cons x xs => simp only [rescale]; split <;> simp

@[simp] theorem length_decodedSamples (s : State) (n : DescNo) : (decodedSamples s n).length = lenOf s n := by
  rw [decodedSamples, length_rescale]; split <;> simp

@[simp] theorem length_frameBytes (xs : List F64) : (frameBytes xs).length = 2 * xs.length :=
  length_flatMap_const (fun x => leBytes 2 (encodeSample x).toNat) 2 (fun _ => length_leBytes 2 _) xs

@[simp] theorem length_convOut (x h : List F64) : (convOut x h).length = x.length := by simp [convOut]
@[simp] theorem length_firOut (x h : List F64) : (firOut x h).length = x.length := by simp [firOut]
@[simp] theorem length_normalize (c : List F64) : (normalize c).length = c.length := by simp [normalize]
@[simp] theorem length_correlations (x y : List F64) : (correlations x y).length = x.length := by simp [correlations]

@[simp] theorem length_replaceNans (k : Nat) (ys : List F64) : (replaceNans k ys).length = ys.length := by
  induction ys generalizing k with
  | nil => rfl
  | cons y ys ih => simp only [replaceNans]; split <;> simp [ih]

@[simp] theorem length_deconvSumsOf (s : State) (rs1 rs2 : DescNo) :
    (deconvSumsOf s rs1 rs2).length = lenOf s rs1 + lenOf s rs2 - 1 := by
  simp [deconvSumsOf, deconvSums, fullconv]

theorem bestPosition_lt {r : List F64} (h : r ≠ []) : bestPosition r < r.length := by
  have key : ∀ (l : List Nat) (b : Nat), b < r.length → (∀ j ∈ l, j < r.length) →
      l.foldl (fun best j => if fgt (sampleAt r j) (sampleAt r best) then j else best) b < r.length := by
    intro l
    induction l with
    | nil => intro b hb _; exact hb
    | cons j l ih =>
      intro b hb hl
      refine ih _ ?_ fun i hi => hl i (List.mem_cons_of_mem _ hi)
      show (if fgt (sampleAt r j) (sampleAt r b) = true then j else b) < r.length
      split
      · exact hl j (by simp)
      · exact hb
  exact key _ 0 (List.length_pos_iff.mpr h) fun j hj => List.mem_range.mp hj

theorem Did.storedSamples {s t : State} (rd rs1 : DescNo) (xs : List F64)
    (hn : DestReady s rd .sample (8 * xs.length)) (h : t = finishSamples s rd rs1 xs) : Did s t :=
  .stored rd rs1 (sampleBytes xs) xs.length .sample (s.desc rs1).depth s.draws (by rw [length_sampleBytes]; exact hn)
    (by rw [h]; rfl)

theorem deconvolve_did (rd rs1 rs2 : DescNo) (s : State) : Did s (deconvolve rd rs1 rs2 s) := by
  rcases deconvolve_cases rd rs1 rs2 s with ⟨e, _, h⟩ | ⟨hr, _, h⟩ | ⟨hr, _, h⟩
  · exact .raised e h
  · exact .degenerate rd _ (by rw [length_deconvSumsOf]; exact hr.2.2.2.1) h
  · exact .storedSamples rd rs1 _ (by rw [length_normalize, length_deconvSumsOf]; exact hr.2.2.2.1) h

/-- What a command can have done (40_command_execution R140). -/
theorem exec_did {i : Instr} {s t : State} (h : exec i s = .next t) : Did s t := by
  cases i with
  | halt => exact .halted (exec_halt_cases h)
  | nop => exact .counted (exec_nop_cases h)
  | dec rd rs1 =>
    rcases exec_dec_cases h with ⟨e, _, h⟩ | ⟨hr, h⟩
    · exact .raised e h
    · exact .storedSamples rd rs1 _ (by rw [length_decodedSamples]; exact hr.2.1) h
  | enc rd rs1 =>
    rcases exec_enc_cases h with ⟨e, _, h⟩ | ⟨hr, _, h⟩
    · exact .raised e h
    · exact .stored rd rs1 (frameBytes (readSamples s rs1)) (readSamples s rs1).length .pcm 16#8 s.draws
        (by rw [length_frameBytes, length_readSamples]; exact hr.2.1) (by rw [h]; rfl)
  | conv rd rs1 rs2 =>
    rcases exec_conv_cases h with ⟨e, _, h⟩ | ⟨hr, _, h⟩
    · exact .raised e h
    · exact .storedSamples rd rs1 _ (by rw [length_convOut, length_readSamples]; exact hr.2.2.2.1) h
  | fir rd rs1 rs2 =>
    rcases exec_fir_cases h with ⟨e, _, h⟩ | ⟨hr, h⟩
    · exact .raised e h
    · exact .stored rd rs1 (sampleBytes (replaceNans s.draws (firOut (readSamples s rs1) (readSamples s rs2))))
        (replaceNans s.draws (firOut (readSamples s rs1) (readSamples s rs2))).length .sample (s.desc rs1).depth
        (s.draws + (firOut (readSamples s rs1) (readSamples s rs2)).countP isNaN)
        (by rw [length_sampleBytes, length_replaceNans, length_firOut, length_readSamples]; exact hr.2.2.1)
        (by rw [h]; rfl)
  | deconvT rd rs1 rs2 => cases h; exact deconvolve_did rd rs1 rs2 s
  | deconvF rd rs1 rs2 => cases h; exact deconvolve_did rd rs1 rs2 s
  | xcorr rs1 rs2 =>
    rcases exec_xcorr_cases h with ⟨e, _, h⟩ | ⟨hr, _, h⟩
    · exact .raised e h
    · have hpos : 0 < lenOf s rs1 := hr.1.2.2.2.2.2.2.1 rfl
      have hb := bestPosition_lt (r := correlations (readSamples s rs1) (readSamples s rs2)) (by
        intro h0; have := congrArg List.length h0; simp at this; omega)
      simp only [length_correlations, length_readSamples] at hb h
      exact .lagged rs1 rs2 _ hr hb h

/-! FIR's effect, field by field. -/

@[simp] theorem firEffect_cfg (rd rs1 rs2 : DescNo) (s : State) : (firEffect rd rs1 rs2 s).cfg =
    (finishSamples s rd rs1 (replaceNans s.draws (firOut (readSamples s rs1) (readSamples s rs2)))).cfg := by
  simp only [firEffect]
@[simp] theorem firEffect_mem (rd rs1 rs2 : DescNo) (s : State) : (firEffect rd rs1 rs2 s).mem =
    (finishSamples s rd rs1 (replaceNans s.draws (firOut (readSamples s rs1) (readSamples s rs2)))).mem := by
  simp only [firEffect]
@[simp] theorem firEffect_descs (rd rs1 rs2 : DescNo) (s : State) : (firEffect rd rs1 rs2 s).descs =
    (finishSamples s rd rs1 (replaceNans s.draws (firOut (readSamples s rs1) (readSamples s rs2)))).descs := by
  simp only [firEffect]
@[simp] theorem firEffect_busy (rd rs1 rs2 : DescNo) (s : State) : (firEffect rd rs1 rs2 s).busy =
    (finishSamples s rd rs1 (replaceNans s.draws (firOut (readSamples s rs1) (readSamples s rs2)))).busy := by
  simp only [firEffect]
@[simp] theorem firEffect_done (rd rs1 rs2 : DescNo) (s : State) : (firEffect rd rs1 rs2 s).done =
    (finishSamples s rd rs1 (replaceNans s.draws (firOut (readSamples s rs1) (readSamples s rs2)))).done := by
  simp only [firEffect]
@[simp] theorem firEffect_err (rd rs1 rs2 : DescNo) (s : State) : (firEffect rd rs1 rs2 s).err =
    (finishSamples s rd rs1 (replaceNans s.draws (firOut (readSamples s rs1) (readSamples s rs2)))).err := by
  simp only [firEffect]
@[simp] theorem firEffect_doneIe (rd rs1 rs2 : DescNo) (s : State) : (firEffect rd rs1 rs2 s).doneIe =
    (finishSamples s rd rs1 (replaceNans s.draws (firOut (readSamples s rs1) (readSamples s rs2)))).doneIe := by
  simp only [firEffect]
@[simp] theorem firEffect_errIe (rd rs1 rs2 : DescNo) (s : State) : (firEffect rd rs1 rs2 s).errIe =
    (finishSamples s rd rs1 (replaceNans s.draws (firOut (readSamples s rs1) (readSamples s rs2)))).errIe := by
  simp only [firEffect]
@[simp] theorem firEffect_cmdPtr (rd rs1 rs2 : DescNo) (s : State) : (firEffect rd rs1 rs2 s).cmdPtr =
    (finishSamples s rd rs1 (replaceNans s.draws (firOut (readSamples s rs1) (readSamples s rs2)))).cmdPtr := by
  simp only [firEffect]
@[simp] theorem firEffect_errCode (rd rs1 rs2 : DescNo) (s : State) : (firEffect rd rs1 rs2 s).errCode =
    (finishSamples s rd rs1 (replaceNans s.draws (firOut (readSamples s rs1) (readSamples s rs2)))).errCode := by
  simp only [firEffect]
@[simp] theorem firEffect_errIndex (rd rs1 rs2 : DescNo) (s : State) : (firEffect rd rs1 rs2 s).errIndex =
    (finishSamples s rd rs1 (replaceNans s.draws (firOut (readSamples s rs1) (readSamples s rs2)))).errIndex := by
  simp only [firEffect]
@[simp] theorem firEffect_lag (rd rs1 rs2 : DescNo) (s : State) : (firEffect rd rs1 rs2 s).lag =
    (finishSamples s rd rs1 (replaceNans s.draws (firOut (readSamples s rs1) (readSamples s rs2)))).lag := by
  simp only [firEffect]
@[simp] theorem firEffect_cmdsDone (rd rs1 rs2 : DescNo) (s : State) : (firEffect rd rs1 rs2 s).cmdsDone =
    (finishSamples s rd rs1 (replaceNans s.draws (firOut (readSamples s rs1) (readSamples s rs2)))).cmdsDone := by
  simp only [firEffect]
@[simp] theorem firEffect_inbox (rd rs1 rs2 : DescNo) (s : State) : (firEffect rd rs1 rs2 s).inbox =
    (finishSamples s rd rs1 (replaceNans s.draws (firOut (readSamples s rs1) (readSamples s rs2)))).inbox := by
  simp only [firEffect]
@[simp] theorem firEffect_hostData (rd rs1 rs2 : DescNo) (s : State) : (firEffect rd rs1 rs2 s).hostData =
    (finishSamples s rd rs1 (replaceNans s.draws (firOut (readSamples s rs1) (readSamples s rs2)))).hostData := by
  simp only [firEffect]
@[simp] theorem firEffect_raced (rd rs1 rs2 : DescNo) (s : State) : (firEffect rd rs1 rs2 s).raced =
    (finishSamples s rd rs1 (replaceNans s.draws (firOut (readSamples s rs1) (readSamples s rs2)))).raced := by
  simp only [firEffect]
@[simp] theorem firEffect_hostWrote (rd rs1 rs2 : DescNo) (s : State) : (firEffect rd rs1 rs2 s).hostWrote =
    (finishSamples s rd rs1 (replaceNans s.draws (firOut (readSamples s rs1) (readSamples s rs2)))).hostWrote := by
  simp only [firEffect]
@[simp] theorem firEffect_wordDraws (rd rs1 rs2 : DescNo) (s : State) : (firEffect rd rs1 rs2 s).wordDraws =
    (finishSamples s rd rs1 (replaceNans s.draws (firOut (readSamples s rs1) (readSamples s rs2)))).wordDraws := by
  simp only [firEffect]

/-- A failing operand check is the command's error, before anything else (60_exceptions R274). -/
theorem exec_operandError {i : Instr} {s : State} {e : CmdError} (h : operandError s (sigOf i) = some e)
    (hs : (sigOf i).src1 ≠ none) : exec i s = .next (raiseError e s) := by
  cases i with
  | halt => exact absurd rfl hs
  | nop => exact absurd rfl hs
  | dec rd rs1 => simp only [exec, execDec, h, orRaise]
  | enc rd rs1 => simp only [exec, execEnc, h, orRaise, Option.some_or]
  | conv rd rs1 rs2 => simp only [exec, execConv, h, orRaise, Option.some_or]
  | fir rd rs1 rs2 => simp only [exec, execFir, h, orRaise]
  | deconvT rd rs1 rs2 =>
    have h' : operandError s (deconvSig rd rs1 rs2) = some e := h
    simp only [exec, execDeconvT, deconvolve, h', orRaise]
  | deconvF rd rs1 rs2 =>
    have h' : operandError s (deconvSig rd rs1 rs2) = some e := h
    simp only [exec, execDeconvF, deconvolve, h', orRaise]
  | xcorr rs1 rs2 => simp only [exec, execXcorr, h, orRaise, Option.some_or]

end Sys2Proof.Machine
end

