-- ==== Sys2Proof/Laws/Engine.lean ====
section
/-! SUPPORT. What the engine's turn and the step of the machine can do, said once: fetching, decoding, a raced command, and
the turn that a step takes. -/

namespace Sys2Proof.Machine

theorem step_nil {s : State} (h : s.inbox = []) : step s = engineTurn s := by rw [step, h]

theorem step_cons {s : State} {t : Turn} {rest : List Turn} (h : s.inbox = t :: rest) :
    step s = takeTurn t { s with inbox := rest } := by rw [step, h]

theorem core_run_succ (M : Host.Core) (k : Nat) (s t : M.State) (h : M.step s = .next t) :
    M.run (k + 1) s = M.run k t := by
  simp only [Host.Core.run, h]

/-- A run of k + 1 steps is one step and then a run of k steps. -/
theorem run_succ {s t : State} (k : Nat) (h : step s = .next t) :
    Sys2Proof.core.run (k + 1) s = Sys2Proof.core.run k t := core_run_succ Sys2Proof.core k s t h

theorem engineTurn_busy {s : State} (h : s.busy = true) : engineTurn s = engineStep s := by rw [engineTurn, if_pos h]

theorem engineTurn_idle {s : State} (h : s.busy = false) : engineTurn s = .next s := by
  rw [engineTurn, if_neg (by simp [h])]

/-! Fetch (40_command_execution R141). -/

theorem fetchError_eq_none (s : State) :
    fetchError s = none ↔ s.cmdPtr.toNat % 4 = 0 ∧ s.cmdPtr.toNat + 4 ≤ s.cfg.memBytes := by
  unfold fetchError
  split <;> [skip; split] <;> simp <;> omega

theorem fetchError_align {s : State} (h : s.cmdPtr.toNat % 4 ≠ 0) : fetchError s = some (plainError .cmdAlign 0) := by
  rw [fetchError, if_pos h]

theorem fetchError_range {s : State} (h : s.cmdPtr.toNat % 4 = 0) (h' : s.cfg.memBytes < s.cmdPtr.toNat + 4) :
    fetchError s = some (plainError .cmdRange 0) := by
  rw [fetchError, if_neg (by simp [h]), if_pos h']

theorem fetchedBytes_eq (s : State) : fetchedBytes s = commandBytes s := rfl

theorem toNat_append_byte {n : Nat} (a : BitVec n) (b : Byte) : (a ++ b).toNat = b.toNat + 256 * a.toNat := by
  rw [BitVec.toNat_append, ← Nat.shiftLeft_add_eq_or_of_lt b.isLt, Nat.shiftLeft_eq]
  omega

/-- The word read from memory is the word of the four bytes, low byte first (20_memory R81). -/
theorem wordOfBytes_toNat (s : State) : (wordOfBytes (commandBytes s)).toNat = memRead s s.cmdPtr.toNat 4 := by
  simp [wordOfBytes, commandBytes, toNat_append_byte, memRead, Nat.add_assoc]

/-! A command that nothing has raced. -/

theorem wordRaced_eq_false (s : State) :
    wordRaced s = false ↔ s.raced = false ∧ ∀ a ∈ s.hostWrote, a < s.cmdPtr.toNat ∨ s.cmdPtr.toNat + 4 ≤ a := by
  simp only [wordRaced, Bool.or_eq_false_iff, List.any_eq_false, Bool.and_eq_true, decide_eq_true_eq, not_and, not_lt]
  refine and_congr_right fun _ => forall₂_congr fun a _ => ?_
  omega

theorem readyToFetch_iff (s : State) :
    ReadyToFetch s ↔ s.busy = true ∧ fetchError s = none ∧ wordRaced s = false := by
  rw [fetchError_eq_none, wordRaced_eq_false]
  tauto

theorem runningDecoded_ready {s : State} (h : ReadyToFetch s) : runningDecoded s = decodeBytes (commandBytes s) := by
  rw [runningDecoded, if_neg (by simp [((readyToFetch_iff s).mp h).2.2])]; rfl

theorem engineStep_ready {s : State} (h : ReadyToFetch s) :
    engineStep s = runDecoded (decodeBytes (commandBytes s)) s := by
  obtain ⟨_, h1, h2⟩ := (readyToFetch_iff s).mp h
  rw [engineStep, h1]
  simp only [h2, Bool.false_eq_true, if_false]
  rw [runningDecoded_ready h]

theorem runningCmd_ready {s : State} {i : Instr} (h : ReadyToFetch s) (hi : decodeBytes (commandBytes s) = .ok i) :
    runningCmd s = some i := by
  rw [runningCmd, if_pos ⟨h.1, ((readyToFetch_iff s).mp h).2.1⟩, runningDecoded_ready h, hi]; rfl

theorem runningCmd_idle {s : State} (h : s.busy = false) : runningCmd s = none := by
  rw [runningCmd, if_neg (by simp [h])]

/-! What a turn of the engine can do. -/

/-- The error of a word that is no command names no operand and no index. -/
theorem decodeFault_plain (e : DecodeError) : ∃ n, decodeFault e = plainError n 0 := by
  cases e <;> exact ⟨_, rfl⟩

theorem runDecoded_next (c : Except DecodeError Instr) (s : State) : ∃ t, runDecoded c s = .next t := by
  cases c with
  | ok i => exact exec_next i s
  | error e => exact ⟨_, rfl⟩

/-- The engine's step answers a next state: it records an error of fetch or decode, it executes a command, or it executes a
raced command and, where that completed, draws the bytes that the command writes. -/
theorem engineStep_cases {s t : State} (h : engineStep s = .next t) :
    (∃ e, fetchError s = some e ∧ t = raiseError e s) ∨
    (fetchError s = none ∧ wordRaced s = false ∧ runDecoded (runningDecoded s) s = .next t) ∨
    (fetchError s = none ∧ wordRaced s = true ∧
      ∃ u, runDecoded (runningDecoded s) { s with wordDraws := s.wordDraws + 1, raced := false } = .next u ∧
        t = scrambleOut (runningDecoded s) { s with wordDraws := s.wordDraws + 1, raced := false } u) := by
  unfold engineStep at h
  split at h
  · cases h; exact .inl ⟨_, ‹_›, rfl⟩
  · split at h
    · obtain ⟨u, hu⟩ := runDecoded_next (runningDecoded s) { s with wordDraws := s.wordDraws + 1, raced := false }
      rw [racedStep] at h
      simp only [hu] at h
      cases h
      exact .inr (.inr ⟨‹_›, ‹_›, u, hu, rfl⟩)
    · exact .inr (.inl ⟨‹_›, Bool.eq_false_of_not_eq_true ‹_›, h⟩)

theorem engineStep_next (s : State) : ∃ t, engineStep s = .next t := by
  unfold engineStep
  split
  · exact ⟨_, rfl⟩
  · split
    · obtain ⟨u, hu⟩ := runDecoded_next (runningDecoded s) { s with wordDraws := s.wordDraws + 1, raced := false }
      exact ⟨scrambleOut (runningDecoded s) { s with wordDraws := s.wordDraws + 1, raced := false } u, by
        rw [racedStep]; simp only [hu]⟩
    · exact runDecoded_next _ _

/-! U_out of each command (40_command_execution R143, R146). -/

theorem outRange_dec (s : State) (rd rs1 : DescNo) : outRange s (.dec rd rs1) = (baseOf s rd, 8 * lenOf s rs1) :=
  Prod.ext rfl (Nat.mul_comm _ _)

theorem outRange_enc (s : State) (rd rs1 : DescNo) : outRange s (.enc rd rs1) = (baseOf s rd, 2 * lenOf s rs1) :=
  Prod.ext rfl (Nat.mul_comm _ _)

theorem outRange_conv (s : State) (rd rs1 rs2 : DescNo) :
    outRange s (.conv rd rs1 rs2) = (baseOf s rd, 8 * lenOf s rs1) := Prod.ext rfl (Nat.mul_comm _ _)

theorem outRange_fir (s : State) (rd rs1 rs2 : DescNo) :
    outRange s (.fir rd rs1 rs2) = (baseOf s rd, 8 * lenOf s rs1) := Prod.ext rfl (Nat.mul_comm _ _)

theorem outRange_deconvT (s : State) (rd rs1 rs2 : DescNo) :
    outRange s (.deconvT rd rs1 rs2) = (baseOf s rd, 8 * (lenOf s rs1 + lenOf s rs2 - 1)) :=
  Prod.ext rfl (Nat.mul_comm _ _)

theorem outRange_deconvF (s : State) (rd rs1 rs2 : DescNo) :
    outRange s (.deconvF rd rs1 rs2) = (baseOf s rd, 8 * (lenOf s rs1 + lenOf s rs2 - 1)) :=
  Prod.ext rfl (Nat.mul_comm _ _)

/-- The used range of the destination of a command that completes lies in MEM, if the command has a destination. -/
theorem exec_outRange {i : Instr} {s t : State} (h : exec i s = .next t) (ht : t.cmdPtr ≠ s.cmdPtr) :
    (outRange s i).2 = 0 ∨ (outRange s i).1 + (outRange s i).2 ≤ s.cfg.memBytes := by
  have dest : ∀ (rd : DescNo) (k : BufKind) (n : Nat) (p : Nat × Nat), DestReady s rd k n → p = (baseOf s rd, n) →
      p.1 + p.2 ≤ s.cfg.memBytes := by
    rintro rd k n _ h rfl
    exact (Nat.add_le_add_left h.2.2 _).trans h.1
  cases i with
  | halt => exact .inl rfl
  | nop => exact .inl rfl
  | xcorr rs1 rs2 => exact .inl rfl
  | dec rd rs1 =>
    rcases exec_dec_cases h with ⟨e, _, h⟩ | ⟨hr, h⟩
    · exact absurd (by rw [h, raiseError_cmdPtr]) ht
    · exact .inr (dest rd .sample _ _ hr.2.1 (outRange_dec ..))
  | enc rd rs1 =>
    rcases exec_enc_cases h with ⟨e, _, h⟩ | ⟨hr, _, h⟩
    · exact absurd (by rw [h, raiseError_cmdPtr]) ht
    · exact .inr (dest rd .pcm _ _ hr.2.1 (outRange_enc ..))
  | conv rd rs1 rs2 =>
    rcases exec_conv_cases h with ⟨e, _, h⟩ | ⟨hr, _, h⟩
    · exact absurd (by rw [h, raiseError_cmdPtr]) ht
    · exact .inr (dest rd .sample _ _ hr.2.2.2.1 (outRange_conv ..))
  | fir rd rs1 rs2 =>
    rcases exec_fir_cases h with ⟨e, _, h⟩ | ⟨hr, h⟩
    · exact absurd (by rw [h, raiseError_cmdPtr]) ht
    · exact .inr (dest rd .sample _ _ hr.2.2.1 (outRange_fir ..))
  | deconvT rd rs1 rs2 =>
    cases h
    rcases deconvolve_cases rd rs1 rs2 s with ⟨e, _, h⟩ | ⟨hr, _, h⟩ | ⟨hr, _, h⟩
    · exact absurd (by rw [h, raiseError_cmdPtr]) ht
    · exact absurd (by rw [h, raiseError_cmdPtr, drawRange_cmdPtr]) ht
    · exact .inr (dest rd .sample _ _ hr.2.2.2.1 (outRange_deconvT ..))
  | deconvF rd rs1 rs2 =>
    cases h
    rcases deconvolve_cases rd rs1 rs2 s with ⟨e, _, h⟩ | ⟨hr, _, h⟩ | ⟨hr, _, h⟩
    · exact absurd (by rw [h, raiseError_cmdPtr]) ht
    · exact absurd (by rw [h, raiseError_cmdPtr, drawRange_cmdPtr]) ht
    · exact .inr (dest rd .sample _ _ hr.2.2.2.1 (outRange_deconvF ..))

end Sys2Proof.Machine
end

