-- ==== Sys2Proof/Laws/Float.lean ====
section
/-! SUPPORT. Binary64: the fields of a packed pattern, the range of a finite magnitude, and what rounding does (00_scope
R12): it is exact on what binary64 can hold, and never more than half a last digit away. -/

namespace Sys2Proof.Machine

/-! Packing. -/

theorem fpack_toNat (neg : Bool) {m : Nat} (h : m < 2 ^ 63) :
    (fpack neg m).toNat = (if neg then 2 ^ 63 else 0) + m := by
  rw [fpack, BitVec.toNat_ofNat, Nat.mod_eq_of_lt]
  split <;> omega

@[simp] theorem fmag_fpack (neg : Bool) {m : Nat} (h : m < 2 ^ 63) : fmag (fpack neg m) = m := by
  rw [fmag, fpack_toNat neg h]
  split <;> omega

@[simp] theorem fneg_fpack (neg : Bool) {m : Nat} (h : m < 2 ^ 63) : fneg (fpack neg m) = neg := by
  rw [fneg, BitVec.msb_eq_decide, fpack_toNat neg h]
  cases neg with
  | false => simp; omega
  | true => simp

theorem fmag_lt (x : F64) : fmag x < 2 ^ 63 := Nat.mod_lt _ (by norm_num)

theorem fneg_toNat (x : F64) : fneg x = decide (2 ^ 63 ≤ x.toNat) := BitVec.msb_eq_decide x

/-- A pattern is its sign and its magnitude field. -/
theorem fpack_self (x : F64) : fpack (fneg x) (fmag x) = x := by
  apply BitVec.eq_of_toNat_eq
  rw [fpack_toNat _ (fmag_lt x), fmag, fneg_toNat]
  have := x.isLt
  by_cases h : 2 ^ 63 ≤ x.toNat
  · rw [decide_eq_true h, if_pos rfl]; omega
  · rw [decide_eq_false h, if_neg (by decide)]; omega

theorem ext_of_fields {x y : F64} (hn : fneg x = fneg y) (hm : fmag x = fmag y) : x = y := by
  rw [← fpack_self x, ← fpack_self y, hn, hm]

/-! Classification by the magnitude field. -/

theorem isFinite_iff (x : F64) : isFinite x = true ↔ fmag x < 2047 * 2 ^ 52 := by
  have h := fmag_lt x
  simp only [isFinite, fexp, bne_iff_ne, ne_eq]
  omega

theorem isInf_iff (x : F64) : isInf x = true ↔ fmag x = 2047 * 2 ^ 52 := by
  have h := fmag_lt x
  simp only [isInf, fexp, ffrac, Bool.and_eq_true, beq_iff_eq]
  omega

theorem isNaN_iff (x : F64) : isNaN x = true ↔ 2047 * 2 ^ 52 < fmag x := by
  have h := fmag_lt x
  simp only [isNaN, fexp, ffrac, Bool.and_eq_true, beq_iff_eq, bne_iff_ne, ne_eq]
  omega

theorem isNaN_false_iff (x : F64) : isNaN x = false ↔ fmag x ≤ 2047 * 2 ^ 52 := by
  rw [← Bool.not_eq_true, isNaN_iff]; omega

theorem isNaN_of_isFinite {x : F64} (h : isFinite x = true) : isNaN x = false := by
  rw [isNaN_false_iff]; rw [isFinite_iff] at h; omega

theorem isInf_of_isFinite {x : F64} (h : isFinite x = true) : isInf x = false := by
  rw [← Bool.not_eq_true, isInf_iff]; rw [isFinite_iff] at h; omega

/-! Magnitudes in units of 2^-1074. -/

/-- The magnitude of the pattern whose magnitude field is `e` binades above the subnormals and has significand `q`. -/
theorem funits_fpack (neg : Bool) (e q : Nat) (he : e = 0 ∨ 2 ^ 52 ≤ q) (hq : q ≤ 2 ^ 53)
    (hm : e * 2 ^ 52 + q < 2 ^ 63) : funits (fpack neg (e * 2 ^ 52 + q)) = q * 2 ^ e := by
  simp only [funits, fexp, ffrac, fmag_fpack neg hm]
  rcases Nat.lt_trichotomy q (2 ^ 52) with h | h | h
  · obtain rfl : e = 0 := by omega
    rw [if_pos (by omega)]; omega
  · rw [if_neg (by omega), show (e * 2 ^ 52 + q) / 2 ^ 52 = e + 1 by omega,
      show (e * 2 ^ 52 + q) % 2 ^ 52 = 0 by omega, h, Nat.add_zero, Nat.add_sub_cancel]
  · rcases Nat.lt_or_ge q (2 ^ 53) with h2 | h2
    · rw [if_neg (by omega), show (e * 2 ^ 52 + q) / 2 ^ 52 = e + 1 by omega,
        show (e * 2 ^ 52 + q) % 2 ^ 52 = q - 2 ^ 52 by omega, Nat.add_sub_cancel,
        show 2 ^ 52 + (q - 2 ^ 52) = q by omega]
    · obtain rfl : q = 2 ^ 53 := by omega
      rw [if_neg (by omega), show (e * 2 ^ 52 + 2 ^ 53) / 2 ^ 52 = e + 2 by omega,
        show (e * 2 ^ 52 + 2 ^ 53) % 2 ^ 52 = 0 by omega, show e + 2 - 1 = e + 1 by omega, Nat.pow_succ]
      ring

/-- The magnitude field of a pattern, as binades and significand. -/
theorem funits_eq (x : F64) : ∃ e q, fmag x = e * 2 ^ 52 + q ∧ (e = 0 ∨ 2 ^ 52 ≤ q) ∧ q < 2 ^ 53 ∧
    funits x = q * 2 ^ e := by
  by_cases h : fexp x = 0
  · refine ⟨0, ffrac x, ?_, .inl rfl, ?_, ?_⟩
    · simp only [fexp, ffrac] at *; omega
    · simp only [ffrac]; omega
    · simp [funits, h]
  · refine ⟨fexp x - 1, 2 ^ 52 + ffrac x, ?_, .inr (by omega), ?_, ?_⟩
    · simp only [fexp, ffrac] at *; omega
    · simp only [ffrac]; omega
    · simp [funits, h]

/-! Digits. -/

theorem bitLength_le_iff (m n : Nat) : bitLength m ≤ n ↔ m < 2 ^ n := by
  unfold bitLength
  split
  · subst_vars; simp
  · rename_i h
    rw [Nat.succ_le_iff, Nat.log2_lt h]

theorem lt_pow_bitLength (m : Nat) : m < 2 ^ bitLength m := (bitLength_le_iff m _).mp le_rfl

theorem pow_le_of_lt_bitLength {m n : Nat} (h : n < bitLength m) : 2 ^ n ≤ m := by
  by_contra hc
  exact absurd ((bitLength_le_iff m n).mpr (by omega)) (by omega)

/-- What rounding keeps has at most 53 digits, and all 53 when it drops more than it must. -/
theorem quotient_lt (m k : Nat) : m / 2 ^ roundShift m k < 2 ^ 53 := by
  rw [Nat.div_lt_iff_lt_mul (by positivity), ← Nat.pow_add, ← bitLength_le_iff]
  unfold roundShift
  omega

theorem quotient_ge {m k : Nat} (h : k < roundShift m k) : 2 ^ 52 ≤ m / 2 ^ roundShift m k := by
  have hs : roundShift m k = bitLength m - 53 := by unfold roundShift at *; omega
  rw [Nat.le_div_iff_mul_le (by positivity), ← Nat.pow_add]
  apply pow_le_of_lt_bitLength
  omega

theorem le_roundShift (m k : Nat) : k ≤ roundShift m k := Nat.le_max_right _ _

/-! Rounding. -/

theorem roundQuotient_bounds (m sh : Nat) :
    m / 2 ^ sh ≤ roundQuotient m sh ∧ roundQuotient m sh ≤ m / 2 ^ sh + 1 := by
  unfold roundQuotient
  simp only
  split <;> omega

/-- Rounding is never more than half a last digit away. -/
theorem roundQuotient_near (m sh : Nat) :
    2 * (roundQuotient m sh * 2 ^ sh) ≤ 2 * m + 2 ^ sh ∧ 2 * m ≤ 2 * (roundQuotient m sh * 2 ^ sh) + 2 ^ sh := by
  have hd := Nat.div_add_mod m (2 ^ sh)
  have hl := Nat.mod_lt m (show 0 < 2 ^ sh by positivity)
  unfold roundQuotient
  simp only
  split
  · rename_i h
    rw [Nat.add_mul, Nat.one_mul, Nat.mul_comm (m / 2 ^ sh)]
    omega
  · rename_i h
    rw [Nat.mul_comm (m / 2 ^ sh)]
    omega

/-- Rounding what needs no rounding changes nothing. -/
theorem roundQuotient_exact (q sh : Nat) : roundQuotient (q * 2 ^ sh) sh = q := by
  have h0 : 0 < 2 ^ sh := by positivity
  unfold roundQuotient
  simp only [Nat.mul_mod_left, Nat.mul_div_cancel q h0]
  rw [if_neg (by omega)]

/-- The magnitude field of a rounded number, as binades and significand. -/
theorem roundMag_parts (m k : Nat) :
    (roundShift m k - k = 0 ∨ 2 ^ 52 ≤ roundQuotient m (roundShift m k)) ∧
      roundQuotient m (roundShift m k) ≤ 2 ^ 53 := by
  have h1 := roundQuotient_bounds m (roundShift m k)
  have h2 := quotient_lt m k
  have h3 := le_roundShift m k
  constructor
  · rcases Nat.eq_or_lt_of_le h3 with h | h
    · left; omega
    · right; have := quotient_ge h; omega
  · omega

theorem fround_of_lt {neg : Bool} {m k : Nat} (h : roundMag m k < 2047 * 2 ^ 52) :
    fround neg m k = fpack neg (roundMag m k) := by
  rw [fround, if_neg (by omega)]

theorem fround_of_ge {neg : Bool} {m k : Nat} (h : 2047 * 2 ^ 52 ≤ roundMag m k) : fround neg m k = finf neg := by
  rw [fround, if_pos h]

@[simp] theorem fneg_fround (neg : Bool) (m k : Nat) : fneg (fround neg m k) = neg := by
  unfold fround
  split
  · exact fneg_fpack neg (by norm_num)
  · exact fneg_fpack neg (by omega)

theorem fmag_fround (neg : Bool) (m k : Nat) : fmag (fround neg m k) = min (roundMag m k) (2047 * 2 ^ 52) := by
  unfold fround
  split
  · rw [finf, fmag_fpack neg (by norm_num)]; omega
  · rw [fmag_fpack neg (by omega)]; omega

/-- Rounding never gives a NaN. -/
@[simp] theorem isNaN_fround (neg : Bool) (m k : Nat) : isNaN (fround neg m k) = false := by
  rw [isNaN_false_iff, fmag_fround]; omega

/-- The magnitude of a rounded number that stays in range. -/
theorem funits_fround {neg : Bool} {m k : Nat} (h : roundMag m k < 2047 * 2 ^ 52) :
    funits (fround neg m k) = roundQuotient m (roundShift m k) * 2 ^ (roundShift m k - k) := by
  obtain ⟨h1, h2⟩ := roundMag_parts m k
  rw [fround_of_lt h]
  exact funits_fpack neg _ _ h1 h2 (by unfold roundMag at h; omega)

/-- Rounding a number that binary64 holds gives its pattern. -/
theorem roundMag_exact (x : F64) (k : Nat) : roundMag (funits x * 2 ^ k) k = fmag x := by
  obtain ⟨e, q, hm, he, hq, hu⟩ := funits_eq x
  have hs : roundShift (funits x * 2 ^ k) k = e + k := by
    unfold roundShift
    have hb : bitLength (funits x * 2 ^ k) ≤ 53 + (e + k) := by
      rw [bitLength_le_iff, hu, Nat.mul_assoc, ← Nat.pow_add, Nat.pow_add 2 53]
      exact Nat.mul_lt_mul_of_pos_right hq (by positivity)
    rcases he with rfl | he
    · omega
    · have : 52 + (e + k) < bitLength (funits x * 2 ^ k) := by
        by_contra hc
        have := (bitLength_le_iff (funits x * 2 ^ k) (52 + (e + k))).mp (by omega)
        rw [hu, Nat.mul_assoc, ← Nat.pow_add, Nat.pow_add 2 52] at this
        exact absurd (Nat.mul_le_mul_right (2 ^ (e + k)) he) (by omega)
      omega
  rw [roundMag, hs, hu, Nat.mul_assoc, ← Nat.pow_add, roundQuotient_exact, Nat.add_sub_cancel, hm]

/-- Rounding is the identity on finite patterns. -/
theorem fround_exact {x : F64} (hx : isFinite x = true) (k : Nat) : fround (fneg x) (funits x * 2 ^ k) k = x := by
  rw [isFinite_iff] at hx
  rw [fround_of_lt (by rw [roundMag_exact]; exact hx), roundMag_exact, fpack_self]

/-- A number that is the magnitude of a finite pattern rounds to that pattern. -/
theorem fround_of_funits {neg : Bool} {m k : Nat} {x : F64} (hx : isFinite x = true) (hn : fneg x = neg)
    (hm : funits x * 2 ^ k = m) : fround neg m k = x := by
  rw [← hn, ← hm, fround_exact hx]

/-! The order of the values is the order of the patterns. -/

theorem fmag_fields (x : F64) : fmag x = fexp x * 2 ^ 52 + ffrac x ∧ ffrac x < 2 ^ 52 :=
  ⟨by unfold fexp ffrac; omega, Nat.mod_lt _ (by norm_num)⟩

theorem funits_mono {a b : F64} (h : fmag a < fmag b) : funits a < funits b := by
  obtain ⟨a1, a2⟩ := fmag_fields a
  obtain ⟨b1, b2⟩ := fmag_fields b
  unfold funits
  by_cases ha : fexp a = 0 <;> by_cases hb : fexp b = 0
  · rw [if_pos ha, if_pos hb]; rw [ha] at a1; rw [hb] at b1; omega
  · rw [if_pos ha, if_neg hb]
    exact (show ffrac a < 2 ^ 52 + ffrac b by omega).trans_le (Nat.le_mul_of_pos_right _ (by positivity))
  · rw [hb] at b1; omega
  · rw [if_neg ha, if_neg hb]
    rcases Nat.lt_trichotomy (fexp a) (fexp b) with h' | h' | h'
    · calc (2 ^ 52 + ffrac a) * 2 ^ (fexp a - 1) < 2 ^ 53 * 2 ^ (fexp a - 1) :=
            Nat.mul_lt_mul_of_pos_right (by omega) (by positivity)
        _ = 2 ^ 52 * 2 ^ fexp a := by
            rw [show fexp a = (fexp a - 1) + 1 by omega, pow_succ 2 (fexp a - 1), Nat.add_sub_cancel]; ring
        _ ≤ 2 ^ 52 * 2 ^ (fexp b - 1) := Nat.mul_le_mul_left _ (Nat.pow_le_pow_right (by norm_num) (by omega))
        _ ≤ _ := Nat.mul_le_mul_right _ (by omega)
    · rw [h']; exact Nat.mul_lt_mul_of_pos_right (by omega) (by positivity)
    · omega

theorem funits_lt_iff {a b : F64} : funits a < funits b ↔ fmag a < fmag b := by
  refine ⟨fun h => ?_, funits_mono⟩
  by_contra hn
  rcases Nat.lt_or_eq_of_le (Nat.not_lt.mp hn) with h' | h'
  · exact absurd (funits_mono h') (by omega)
  · have : funits a = funits b := by unfold funits fexp ffrac; rw [h']
    omega

theorem funits_eq_zero {a : F64} : funits a = 0 ↔ fmag a = 0 := by
  constructor
  · intro h
    by_contra hn
    have := @funits_mono (fzero false) a (by rw [show fmag (fzero false) = 0 by decide]; omega)
    omega
  · intro h; unfold funits fexp ffrac; rw [h]; simp

theorem fkey_lt_iff (a b : F64) : fkey a < fkey b ↔ fvalue a < fvalue b := by
  have h1 := @funits_lt_iff a b
  have h2 := @funits_lt_iff b a
  have h3 := @funits_eq_zero a
  have h4 := @funits_eq_zero b
  unfold fkey fvalue
  split_ifs <;> omega

end Sys2Proof.Machine
end

