-- ==== Sys2Proof/Laws/HostPort.lean ====
section
/-! SUPPORT. What the host's accesses do, said once: reserved offsets, descriptor registers, the bytes that a MEM access
reads and writes, and a completed or failed command in terms of CMD_PTR. -/

namespace Sys2Proof.Machine

/-! Registers. -/

theorem descFieldRead_reserved (d : Desc) {k : Nat} (h : 0x14 ≤ k) : descFieldRead d k = 0#32 := by
  unfold descFieldRead
  split <;> first | omega | rfl

theorem descFieldWrite_reserved (d : Desc) (v : Word) {k : Nat} (h : 0x14 ≤ k) : descFieldWrite d v k = d := by
  unfold descFieldWrite
  split <;> first | omega | rfl

/-- The 4-aligned offsets of the register space where no register lies (10_state R33, R53). -/
abbrev ReservedOffset (off : Nat) : Prop :=
  (0x02C ≤ off ∧ off < 0x100) ∨ 0x300 ≤ off ∨ (0x100 ≤ off ∧ 0x14 ≤ off % 0x20)

theorem reserved_field {off : Nat} (h : ReservedOffset off)
    (hw : inDescWindow off = true) : 0x14 ≤ (off - 0x100) % 0x20 := by
  simp only [inDescWindow, Bool.and_eq_true, decide_eq_true_eq] at hw
  omega

theorem regValue_reserved (s : State) (off : Nat) (h : ReservedOffset off) :
    regValue s off = 0#32 := by
  have hf := reserved_field h
  unfold regValue
  split
  iterate 10 omega
  split
  · exact descFieldRead_reserved _ (hf ‹_›)
  · rfl

theorem regWrite_reserved (s : State) (off : Nat) (v : Word) (h : ReservedOffset off) :
    regWrite off v s = s := by
  have hf := reserved_field h
  unfold regWrite
  split
  iterate 4 omega
  split
  · rename_i hw
    rw [descFieldWrite_reserved _ _ (hf ((Bool.and_eq_true ..).mp hw).1), setDesc_self]
  · rfl

theorem regView_zero (s : State) (off : Nat) (h : ∀ s, regValue s off = 0#32) : regView s off = 0#32 := by
  unfold regView; split <;> exact h _

/-- The offset of a field of a descriptor (10_state R33). -/
theorem descOffset (n : DescNo) (k : Nat) (hk : k < 0x20) : inDescWindow (0x100 + 0x20 * n.val + k) = true ∧
    descOfOffset (0x100 + 0x20 * n.val + k) = n ∧ (0x100 + 0x20 * n.val + k - 0x100) % 0x20 = k := by
  have := n.isLt
  refine ⟨by simp [inDescWindow]; omega, ?_, by omega⟩
  apply Fin.ext
  simp only [descOfOffset, Fin.ofNat]
  omega

theorem regValue_desc (s : State) (n : DescNo) (k : Nat) (hk : k < 0x20) :
    regValue s (0x100 + 0x20 * n.val + k) = descFieldRead (s.desc n) k := by
  have := n.isLt
  obtain ⟨h1, h2, h3⟩ := descOffset n k hk
  unfold regValue
  split <;> try omega
  rw [h1, h2, h3]; rfl

theorem regWrite_desc (s : State) (n : DescNo) (k : Nat) (v : Word) (hk : k < 0x20) (hb : s.busy = false) :
    regWrite (0x100 + 0x20 * n.val + k) v s = setDesc s n (descFieldWrite (s.desc n) v k) := by
  have := n.isLt
  obtain ⟨h1, h2, h3⟩ := descOffset n k hk
  unfold regWrite
  split <;> try omega
  rw [h1, h2, h3, hb]; rfl

/-! MEM. -/

theorem extract_byte (v : BitVec 64) (k : Nat) : v.extractLsb' (8 * k) 8 = BitVec.ofNat 8 (v.toNat / 256 ^ k) := by
  apply BitVec.eq_of_toNat_eq
  rw [BitVec.extractLsb'_toNat, BitVec.toNat_ofNat, Nat.shiftRight_eq_div_pow, pow_mul]; rfl

/-- MEM after the bytes of a host write are stored: those inside MEM_BYTES only (20_memory R85). -/
theorem readByte_hostWrite (s : State) (a : Word) (w : AccessWidth) (v : BitVec 64) (x : Nat) :
    readByte (memWrite s a.toNat ((leBytes w.bytes v.toNat).take (s.cfg.memBytes - a.toNat))) x =
        if a.toNat ≤ x ∧ x < a.toNat + w.bytes ∧ x < s.cfg.memBytes then v.extractLsb' (8 * (x - a.toNat)) 8
        else readByte s x := by
  rw [readByte_setBytes (memWrite_mem s _ _)]
  simp only [List.length_take, length_leBytes]
  by_cases h : a.toNat ≤ x ∧ x < a.toNat + w.bytes ∧ x < s.cfg.memBytes
  · rw [if_pos h, if_pos (by omega), extract_byte, ← getD_leBytes_div w.bytes _ _ (by omega)]
    simp only [List.getD_eq_getElem?_getD]
    rw [List.getElem?_take_of_lt (by omega)]
  · rw [if_neg h, if_neg (by omega)]

theorem numOfBytes_lt (bs : List Byte) : numOfBytes bs < 256 ^ bs.length := by
  induction bs with
  | nil => simp [numOfBytes]
  | cons b bs ih => have := b.isLt; simp only [numOfBytes, List.length_cons, pow_succ]; omega

theorem numOfBytes_byte (bs : List Byte) (k : Nat) (h : k < bs.length) :
    BitVec.ofNat 8 (numOfBytes bs / 256 ^ k) = bs[k] := by
  induction bs generalizing k with
  | nil => simp at h
  | cons b bs ih =>
    cases k with
    | zero =>
      apply BitVec.eq_of_toNat_eq; simp [numOfBytes]; omega
    | succ k =>
      have := b.isLt
      rw [numOfBytes, pow_succ', ← Nat.div_div_eq_div_mul,
        show (b.toNat + 256 * numOfBytes bs) / 256 = numOfBytes bs by omega]
      simpa using ih k (by simpa using h)

theorem accessBytes_le (w : AccessWidth) : w.bytes ≤ 8 := by cases w <;> decide

/-- The bytes that a host read of MEM returns, low byte first. -/
theorem hostData_byte (s : State) (a : Word) (w : AccessWidth) :
    (hostMemRead a w s).hostData.toNat < 2 ^ (8 * w.bytes) ∧
      ∀ k < w.bytes, (hostMemRead a w s).hostData.extractLsb' (8 * k) 8 =
        hostReadByte s k (a.toNat + k) := by
  have hlt := numOfBytes_lt ((List.range w.bytes).map fun i => hostReadByte s i (a.toNat + i))
  have hb := accessBytes_le w
  simp only [List.length_map, List.length_range] at hlt
  have hle : 256 ^ w.bytes ≤ 2 ^ 64 := (Nat.pow_le_pow_right (by norm_num) hb).trans (by norm_num)
  have ht : (hostMemRead a w s).hostData.toNat =
      numOfBytes ((List.range w.bytes).map fun i => hostReadByte s i (a.toNat + i)) := by
    simp only [hostMemRead, BitVec.toNat_ofNat]
    exact Nat.mod_eq_of_lt (by omega)
  refine ⟨by rw [ht, pow_mul]; exact hlt, fun k hk => ?_⟩
  rw [extract_byte, ht, numOfBytes_byte _ _ (by simpa using hk)]
  simp

/-! Used ranges during a run (20_memory R90; log 7, 8). -/

/-- The used ranges of an unraced running command are those of the command in MEM; the schedule does not matter. -/
theorem runningRanges_ready {s : State} {i : Instr} (rest : List Turn) (h : ReadyToFetch s)
    (hi : decodeBytes (commandBytes s) = .ok i) : runningRanges { s with inbox := rest } = usedRanges s i := by
  have hc : runningCmd { s with inbox := rest } = some i := runningCmd_ready (s := { s with inbox := rest }) h hi
  rw [runningRanges, hc]; rfl

/-- A byte that no command could use is in no used range of the running command, raced or not. -/
theorem inRanges_running_none {s : State} {x : Nat} (rest : List Turn) (h : ∀ i, inRanges (usedRanges s i) x = false) :
    inRanges (runningRanges { s with inbox := rest }) x = false := by
  unfold runningRanges
  split
  · exact h _
  · rfl

theorem hostReadByte_used {s : State} {a : Nat} (k : Nat) (hm : a < s.cfg.memBytes) (hb : s.busy = true)
    (h : inRanges (runningRanges s) a = true) : hostReadByte s k a = Config.freeByte (s.draws + k) := by
  rw [hostReadByte, if_neg (by omega), hb, h]; rfl

theorem hostReadByte_unused {s : State} {a : Nat} (k : Nat) (hm : a < s.cfg.memBytes)
    (h : inRanges (runningRanges s) a = false) : hostReadByte s k a = readByte s a := by
  rw [hostReadByte, if_neg (by omega), h, Bool.and_false]; rfl

/-! Misaligned accesses (20_memory R83; log 13). -/

theorem accessBytes_pos (w : AccessWidth) : 0 < w.bytes := by cases w <;> decide

theorem splits_idle {s : State} (h : s.busy = false) (a : Word) (w : AccessWidth) : splits s a w = false := by
  simp [splits, h]

theorem splits_aligned (s : State) {a : Word} {w : AccessWidth} (h : a.toNat % w.bytes = 0) : splits s a w = false := by
  simp [splits, h]

theorem splits_misaligned {s : State} {a : Word} {w : AccessWidth} (hb : s.busy = true) (h : a.toNat % w.bytes ≠ 0) :
    splits s a w = true := by
  simp [splits, hb, h]

theorem hostRead_whole {s : State} {a : Word} {w : AccessWidth} (h : splits s a w = false) :
    hostRead a w s = hostMemRead a w s := by rw [hostRead, h]; rfl

theorem hostWrite_whole {s : State} {a : Word} {w : AccessWidth} (h : splits s a w = false) (v : BitVec 64) :
    hostWrite a w v s = hostMemWrite a w v s := by rw [hostWrite, h]; rfl

theorem hostRead_split {s : State} {a : Word} {w : AccessWidth} (h : splits s a w = true) :
    hostRead a w s = issueParts (readParts s a w) { s with hostData := 0#64 } := by rw [hostRead, if_pos h]

theorem hostWrite_split {s : State} {a : Word} {w : AccessWidth} (h : splits s a w = true) (v : BitVec 64) :
    hostWrite a w v s = issueParts (writeParts s a w v) s := by rw [hostWrite, if_pos h]

/-- The turns of a misaligned access are its byte accesses and turns of the engine, in some order. -/
theorem spread_perm (ps : List HostOp) (k : Nat) :
    ∃ n, (spread ps k).Perm (List.replicate n .engine ++ ps.map .host) := by
  induction ps generalizing k with
  | nil => exact ⟨Config.freeCount k, by simp [spread]⟩
  | cons p ps ih =>
    obtain ⟨n, h⟩ := ih (k + 1)
    refine ⟨n, List.perm_middle.trans (.trans (.cons _ ?_) List.perm_middle.symm)⟩
    rw [List.take_append_drop]
    exact h

theorem bytesInside_le (s : State) (a : Word) (w : AccessWidth) : bytesInside s a w ≤ w.bytes := Nat.min_le_left ..

theorem lt_bytesInside (s : State) (a : Word) (w : AccessWidth) {i : Nat} (hi : i < w.bytes) :
    i < bytesInside s a w ↔ a.toNat + i < s.cfg.memBytes := by
  simp only [bytesInside, Nat.lt_min]; omega

/-- No address inside MEM wraps (00_scope R5). -/
theorem part_address {s : State} (hv : s.cfg.Valid) {a : Word} {i : Nat} (h : a.toNat + i < s.cfg.memBytes) :
    (a + BitVec.ofNat 32 i).toNat = a.toNat + i := by
  have := hv.2.2
  rw [BitVec.toNat_add, BitVec.toNat_ofNat]
  omega

@[simp] theorem length_readParts (s : State) (a : Word) (w : AccessWidth) :
    (readParts s a w).length = bytesInside s a w := by simp [readParts]

@[simp] theorem length_writeParts (s : State) (a : Word) (w : AccessWidth) (v : BitVec 64) :
    (writeParts s a w v).length = bytesInside s a w := by simp [writeParts]

/-- A byte put in its place leaves the other places as they were. -/
theorem putByte_byte (v : BitVec 64) (pos : Fin 8) (b : Byte) {k : Nat} (hk : k < 8) :
    (putByte v pos b).extractLsb' (8 * k) 8 = if k = pos.val then b else v.extractLsb' (8 * k) 8 := by
  have := pos.isLt
  ext j hj
  simp only [putByte, BitVec.getElem_extractLsb', BitVec.getLsbD_or, BitVec.getLsbD_and, BitVec.getLsbD_not,
    BitVec.getLsbD_shiftLeft, BitVec.getLsbD_setWidth]
  have hmask : ∀ m, (0xFF#64).getLsbD m = decide (m < 8) := by
    intro m
    by_cases hm : m < 64
    · revert m; decide
    · rw [BitVec.getLsbD_of_ge _ _ (by omega)]; simp; omega
  rw [hmask]
  by_cases h : k = pos.val
  · subst h
    rw [if_pos rfl, show 8 * pos.val + j - 8 * pos.val = j by omega]
    simp [show 8 * pos.val + j < 64 by omega, show j < 8 by omega, show ¬ 8 * pos.val + j < 8 * pos.val by omega,
      show j < 64 by omega]
  · rw [if_neg h, BitVec.getElem_extractLsb']
    rcases Nat.lt_or_gt_of_ne h with h | h
    · simp [show 8 * k + j < 64 by omega, show 8 * k + j < 8 * pos.val by omega]
    · simp [show 8 * k + j < 64 by omega, show ¬ 8 * k + j < 8 * pos.val by omega,
        show ¬ 8 * k + j - 8 * pos.val < 8 by omega,
        BitVec.getLsbD_of_ge b (8 * k + j - 8 * pos.val) (by omega)]

/-! CMD_PTR and whole runs. -/

theorem cmdPtr_add_ne (p : Word) : p + 4#32 ≠ p := by
  intro h; have := congrArg BitVec.toNat h
  rw [BitVec.toNat_add] at this; simp at this; omega

theorem idle_run (k : Nat) (s : State) (hn : s.inbox = []) (hb : s.busy = false) :
    Sys2Proof.core.run k s = .next s := by
  induction k with
  | zero => rfl
  | succ k ih =>
    rw [run_succ (t := s) k (by rw [step_nil hn, engineTurn_idle hb])]
    exact ih

/-- The step has ended the run, or it has moved CMD_PTR on by one command. -/
abbrev EndedOrMoved (s t : State) : Prop :=
  t.inbox = s.inbox ∧ t.cfg = s.cfg ∧
    ((t.busy = false ∧ (t.done = true ∨ t.err = true)) ∨ (t.busy = true ∧ t.cmdPtr = s.cmdPtr + 4#32))

theorem runDecoded_ends {c : Except DecodeError Instr} {s t : State} (hb : s.busy = true)
    (h : runDecoded c s = .next t) : EndedOrMoved s t := by
  cases c with
  | error e => cases h; exact ⟨rfl, rfl, .inl ⟨rfl, .inr rfl⟩⟩
  | ok i =>
    cases exec_did h with
    | raised e h => subst h; exact ⟨rfl, rfl, .inl ⟨rfl, .inr rfl⟩⟩
    | degenerate rd n hn h => subst h; exact ⟨rfl, rfl, .inl ⟨rfl, .inr rfl⟩⟩
    | halted h => subst h; exact ⟨rfl, rfl, .inl ⟨rfl, .inl rfl⟩⟩
    | counted h => subst h; exact ⟨rfl, rfl, .inr ⟨hb, rfl⟩⟩
    | stored rd rs1 bs len k p draws hn h => subst h; exact ⟨rfl, rfl, .inr ⟨hb, rfl⟩⟩
    | lagged rs1 rs2 j hr hj h => subst h; exact ⟨rfl, rfl, .inr ⟨hb, rfl⟩⟩

/-- A step of the running engine ends the run, or moves CMD_PTR on when its word lay in MEM. -/
theorem engineStep_ends {s t : State} (hb : s.busy = true) (h : engineStep s = .next t) :
    EndedOrMoved s t ∧ (t.busy = true → s.cmdPtr.toNat + 4 ≤ s.cfg.memBytes) := by
  rcases engineStep_cases h with ⟨e, _, rfl⟩ | ⟨hf, _, hr⟩ | ⟨hf, _, u, hu, rfl⟩
  · exact ⟨⟨rfl, rfl, .inl ⟨rfl, .inr rfl⟩⟩, fun h => absurd h (by simp)⟩
  · exact ⟨runDecoded_ends hb hr, fun _ => ((fetchError_eq_none s).mp hf).2⟩
  · have key : EndedOrMoved s u := runDecoded_ends (s := { s with wordDraws := s.wordDraws + 1, raced := false }) hb hu
    refine ⟨?_, fun _ => ((fetchError_eq_none s).mp hf).2⟩
    unfold scrambleOut
    split
    · split <;> exact key
    · exact key

end Sys2Proof.Machine
end

