-- ==== Sys2Proof/Laws/PerInstr.lean ====
section
/-! SUPPORT. A statement about every command as syntax, one lemma per constructor: the fields of a command's word are the
command's fields (30_encoding R111). -/

namespace Sys2Proof.Laws

/-- A concatenation as a number: the left part counts above the right part's width. -/
theorem toNat_append_eq {n m : Nat} (a : BitVec n) (b : BitVec m) :
    (a ++ b).toNat = a.toNat * 2 ^ m + b.toNat := by
  rw [BitVec.toNat_append, ← Nat.shiftLeft_add_eq_or_of_lt b.isLt, Nat.shiftLeft_eq]

/-- Packing loses no field. -/
theorem fieldsOfWord_pack (f : Fields) : fieldsOfWord f.pack = f := by
  obtain ⟨opc, rd, rs1, rs2, flg, rsv⟩ := f
  have key : ∀ (a : BitVec 8) (b c d e : BitVec 4) (g : BitVec 8),
      (a ++ b ++ c ++ d ++ e ++ g : BitVec (8 + 4 + 4 + 4 + 4 + 8)).toNat =
        a.toNat * 2 ^ 24 + b.toNat * 2 ^ 20 + c.toNat * 2 ^ 16 + d.toNat * 2 ^ 12 + e.toNat * 2 ^ 8 + g.toNat := by
    intro a b c d e g
    simp only [toNat_append_eq]
    omega
  have h : (Fields.pack ⟨opc, rd, rs1, rs2, flg, rsv⟩).toNat = _ := key rsv flg rs2 rs1 rd opc
  have := opc.isLt
  have := rd.isLt
  have := rs1.isLt
  have := rs2.isLt
  have := flg.isLt
  have := rsv.isLt
  simp only [fieldsOfWord, Fields.mk.injEq]
  refine ⟨?_, ?_, ?_, ?_, ?_, ?_⟩ <;>
  · apply BitVec.eq_of_toNat_eq
    rw [BitVec.extractLsb'_toNat, h, Nat.shiftRight_eq_div_pow]
    omega

/-- The fields read back from a command's word are the command's. -/
def EncodedFields.Statement (i : Instr) : Prop := fieldsOfWord (encode i) = i.fields

theorem EncodedFields.halt : EncodedFields.Statement .halt := fieldsOfWord_pack _
theorem EncodedFields.nop : EncodedFields.Statement .nop := fieldsOfWord_pack _
theorem EncodedFields.dec (rd rs1 : DescNo) : EncodedFields.Statement (.dec rd rs1) := fieldsOfWord_pack _
theorem EncodedFields.enc (rd rs1 : DescNo) : EncodedFields.Statement (.enc rd rs1) := fieldsOfWord_pack _
theorem EncodedFields.conv (rd rs1 rs2 : DescNo) : EncodedFields.Statement (.conv rd rs1 rs2) := fieldsOfWord_pack _
theorem EncodedFields.fir (rd rs1 rs2 : DescNo) : EncodedFields.Statement (.fir rd rs1 rs2) := fieldsOfWord_pack _
theorem EncodedFields.deconvT (rd rs1 rs2 : DescNo) : EncodedFields.Statement (.deconvT rd rs1 rs2) :=
  fieldsOfWord_pack _
theorem EncodedFields.deconvF (rd rs1 rs2 : DescNo) : EncodedFields.Statement (.deconvF rd rs1 rs2) :=
  fieldsOfWord_pack _
theorem EncodedFields.xcorr (rs1 rs2 : DescNo) : EncodedFields.Statement (.xcorr rs1 rs2) := fieldsOfWord_pack _

end Sys2Proof.Laws
end

