-- ==== Sys2Proof/Laws/Sums.lean ====
section
/-! SUPPORT. The sums of the convolution and correlation units over the samples in MEM, as the meanings compute them from the
lists of samples they read, and what a scan for the first offending sample finds. -/

namespace Sys2Proof.Machine

/-- Two sums of equal terms are equal. -/
theorem fsum_map_congr {l : List Nat} {f g : Nat → F64} (h : ∀ j ∈ l, f j = g j) : fsum (l.map f) = fsum (l.map g) := by
  rw [List.map_congr_left h]

/-- CONV's and FIR's sum (42_convolution R213, R221). -/
theorem firTerm_readSamples (s : State) (x h : DescNo) (n : Nat) (hn : n < lenOf s x) (hh : 0 < lenOf s h) :
    firTerm (readSamples s x) (readSamples s h) n = firSum s x h n := by
  simp only [firTerm, firSum, length_readSamples]
  refine fsum_map_congr fun j hj => ?_
  have hj := List.mem_range.mp hj
  rw [sampleAt_readSamples s x _ (by omega), sampleAt_readSamples s h _ (by omega)]

theorem getElem_convOut (s : State) (x h : DescNo) (n : Nat) (hn : n < lenOf s x) (hh : 0 < lenOf s h) :
    (convOut (readSamples s x) (readSamples s h))[n]'(by simpa using hn) = fmul (firSum s x h n) f64Attenuation := by
  simp only [convOut, List.getElem_map, List.getElem_range, firTerm_readSamples s x h n hn hh]

theorem getElem_firOut (s : State) (x h : DescNo) (n : Nat) (hn : n < lenOf s x) (hh : 0 < lenOf s h) :
    (firOut (readSamples s x) (readSamples s h))[n]'(by simpa using hn) = firSum s x h n := by
  simp only [firOut, List.getElem_map, List.getElem_range, firTerm_readSamples s x h n hn hh]

/-- DECONV's sum (42_convolution R225). -/
theorem getElem_deconvSums (s : State) (r e : DescNo) (k : Nat) (hr : 0 < lenOf s r) (he : 0 < lenOf s e)
    (hk : k < (deconvSumsOf s r e).length) : (deconvSumsOf s r e)[k] = deconvSum s r e k := by
  rw [length_deconvSumsOf] at hk
  simp only [deconvSumsOf, deconvSums, fullconv, List.getElem_map, List.getElem_range, convTerm, deconvSum,
    List.length_reverse, length_readSamples]
  refine fsum_map_congr fun j hj => ?_
  obtain ⟨h1, h2⟩ := List.mem_range'_1.mp hj
  have hje : j < lenOf s e := by omega
  rw [sampleAt_readSamples s r _ (by omega), ← sampleAt_readSamples s e (lenOf s e - 1 - j) (by omega)]
  congr 1
  simp only [sampleAt, List.getD_eq_getElem?_getD]
  rw [List.getElem?_reverse (by simpa using hje), length_readSamples]

/-- XCORR's sum at a position of the window (43_correlation R251, R252). -/
theorem getElem_correlations (s : State) (x y : DescNo) (j : Nat) (hxy : lenOf s x = lenOf s y)
    (hj : j < (correlations (readSamples s x) (readSamples s y)).length) :
    (correlations (readSamples s x) (readSamples s y))[j] = corrSum s x y j := by
  rw [length_correlations, length_readSamples] at hj
  simp only [correlations, List.getElem_map, List.getElem_range, length_readSamples, corrTerm, corrSum, lagAt]
  have hx := fun i (h : i < lenOf s x) => sampleAt_readSamples s x i h
  have hy := fun i (h : i < lenOf s x) => sampleAt_readSamples s y i (hxy ▸ h : i < lenOf s y)
  split
  · rename_i h
    rw [show (max 0 ((j : Int) - ((lenOf s x / 2 : Nat) : Int))).toNat = j - lenOf s x / 2 by omega,
      show (min ((lenOf s x : Int) - 1) ((lenOf s x : Int) - 1 + ((j : Int) - ((lenOf s x / 2 : Nat) : Int))) + 1 -
        ((j - lenOf s x / 2 : Nat) : Int)).toNat = lenOf s x - (j - lenOf s x / 2) by omega]
    refine fsum_map_congr fun n hn => ?_
    obtain ⟨h1, h2⟩ := List.mem_range'_1.mp hn
    rw [show ((n : Int) - ((j : Int) - ((lenOf s x / 2 : Nat) : Int))).toNat = n - (j - lenOf s x / 2) by omega,
      hx n (by omega), hy _ (by omega)]
  · rename_i h
    rw [show (max 0 ((j : Int) - ((lenOf s x / 2 : Nat) : Int))).toNat = 0 by omega,
      show (min ((lenOf s x : Int) - 1) ((lenOf s x : Int) - 1 + ((j : Int) - ((lenOf s x / 2 : Nat) : Int))) + 1 -
        ((0 : Nat) : Int)).toNat = lenOf s x - (lenOf s x / 2 - j) by omega, ← List.range_eq_range']
    refine fsum_map_congr fun n hn => ?_
    have hn := List.mem_range.mp hn
    rw [show ((n : Int) - ((j : Int) - ((lenOf s x / 2 : Nat) : Int))).toNat = n + (lenOf s x / 2 - j) by omega,
      hx n (by omega), hy _ (by omega)]

/-! Scans. -/

/-- The scan finds nothing exactly when no sample offends. -/
theorem firstOffender_eq_none (bad : F64 → Bool) (name : ErrName) (r : Role) (s : State) (n : DescNo) :
    firstOffender bad name r n (readSamples s n) = none ↔ ∀ j < lenOf s n, bad (sampleOf s n j) = false := by
  simp only [firstOffender, Option.map_eq_none_iff, List.findIdx?_eq_none_iff, readSamples, List.mem_map, List.mem_range,
    forall_exists_index, and_imp, forall_apply_eq_imp_iff₂]

/-- The scan names the first sample that offends. -/
theorem firstOffender_eq_some (bad : F64 → Bool) (name : ErrName) (r : Role) (s : State) (n : DescNo) (k : Nat)
    (hk : k < lenOf s n) (hb : bad (sampleOf s n k) = true) (hf : ∀ j < k, bad (sampleOf s n j) = false) :
    firstOffender bad name r n (readSamples s n) = some { name := name, role := r, desc := n, index := k } := by
  have h : (readSamples s n).findIdx? bad = some k := by
    rw [List.findIdx?_eq_some_iff_getElem]
    refine ⟨by simpa using hk, by rw [getElem_readSamples]; exact hb, fun j hj => ?_⟩
    rw [getElem_readSamples, hf j hj]; decide
  rw [firstOffender, h]; rfl

/-! The largest element of a list that holds no NaN. -/

theorem fle_key {a b : F64} : fle a b = true ↔ isNaN a = false ∧ isNaN b = false ∧ fkey a ≤ fkey b := by
  simp [fle, and_assoc]

theorem flt_key {a b : F64} : flt a b = true ↔ isNaN a = false ∧ isNaN b = false ∧ fkey a < fkey b := by
  simp [flt, and_assoc]

theorem fgt_key {a b : F64} : fgt a b = true ↔ isNaN a = false ∧ isNaN b = false ∧ fkey b < fkey a := by
  simp only [fgt, flt_key]; tauto

/-- Keeping the larger of two ends at an element that no element exceeds. -/
theorem foldl_fgt_max (cs : List F64) (c0 : F64) (h0 : isNaN c0 = false) (h : ∀ c ∈ cs, isNaN c = false) :
    (cs.foldl (fun p c => if fgt c p then c else p) c0) ∈ c0 :: cs ∧
      ∀ x ∈ c0 :: cs, fle x (cs.foldl (fun p c => if fgt c p then c else p) c0) = true := by
  induction cs generalizing c0 with
  | nil => simp [fle_key, h0]
  | cons c cs ih =>
    simp only [List.foldl_cons]
    have hc : isNaN c = false := h c (by simp)
    have hcs : ∀ x ∈ cs, isNaN x = false := fun x hx => h x (by simp [hx])
    by_cases hg : fgt c c0 = true
    · rw [if_pos hg]
      obtain ⟨m, u⟩ := ih c hc hcs
      refine ⟨List.mem_cons_of_mem _ m, ?_⟩
      intro x hx
      rcases List.mem_cons.mp hx with rfl | hx
      · have := fle_key.mp (u c (by simp)); have hk := fgt_key.mp hg
        exact fle_key.mpr ⟨h0, this.2.1, by omega⟩
      · exact u x hx
    · rw [if_neg hg]
      obtain ⟨m, u⟩ := ih c0 h0 hcs
      refine ⟨by rcases List.mem_cons.mp m with m | m <;> simp [m], ?_⟩
      intro x hx
      rcases List.mem_cons.mp hx with rfl | hx
      · exact u _ (by simp)
      rcases List.mem_cons.mp hx with rfl | hx
      · have := fle_key.mp (u c0 (by simp))
        rw [fgt_key] at hg
        exact fle_key.mpr ⟨hc, this.2.1, by
          have : ¬ fkey c0 < fkey x := fun h => hg ⟨hc, h0, h⟩
          omega⟩
      · exact u x (by simp [hx])

/-- The peak is one of the sums, and no sum exceeds it (42_convolution R226). -/
theorem peakOf_spec {c : List F64} (hne : c ≠ []) (h : ∀ x ∈ c, isNaN x = false) :
    peakOf c ∈ c ∧ ∀ x ∈ c, fle x (peakOf c) = true := by
  cases c with
  | nil => exact absurd rfl hne
  | cons c0 cs => exact foldl_fgt_max cs c0 (h c0 (by simp)) (fun x hx => h x (by simp [hx]))

/-- The position that the search answers is the first one of the largest correlation (43_correlation R254). -/
theorem bestPosition_eq (r : List F64) (j : Nat) (hj : j < r.length)
    (h1 : ∀ i < j, flt (sampleAt r i) (sampleAt r j) = true)
    (h2 : ∀ i < r.length, fle (sampleAt r i) (sampleAt r j) = true) : bestPosition r = j := by
  let pick := fun best j : Nat => if fgt (sampleAt r j) (sampleAt r best) then j else best
  have key : ∀ n ≤ r.length, 0 < n → (List.range n).foldl pick 0 < n ∧
      (j < n → (List.range n).foldl pick 0 = j) := by
    intro n
    induction n with
    | zero => omega
    | succ n ih =>
      intro hn _
      rw [List.range_succ, List.foldl_append]
      simp only [List.foldl_cons, List.foldl_nil]
      rcases Nat.eq_zero_or_pos n with rfl | hp
      · simp only [List.range_zero, List.foldl_nil, pick]
        exact ⟨by split <;> omega, fun h => by split <;> omega⟩
      · obtain ⟨a, b⟩ := ih (by omega) hp
        generalize (List.range n).foldl pick 0 = m at a b ⊢
        simp only [pick]
        refine ⟨by split <;> omega, fun hjn => ?_⟩
        rcases Nat.lt_or_eq_of_le (Nat.lt_succ_iff.mp hjn) with hlt | rfl
        · rw [b hlt, if_neg]
          rw [fgt_key]
          have := fle_key.mp (h2 n (by omega))
          omega
        · rw [if_pos]
          exact h1 m a
  exact (key r.length le_rfl (by omega)).2 hj

/-! NAN_OUT (00_scope R7). -/

theorem nanOut_quiet (k : Nat) : isNaN (nanOut k) = true ∧ (nanOut k).getLsbD 51 = true := by
  have key : ∀ (a : BitVec 1) (c : BitVec 51),
      isNaN (a ++ 0x7FF#11 ++ 1#1 ++ c) = true ∧ (a ++ 0x7FF#11 ++ 1#1 ++ c).getLsbD 51 = true := by
    intro a c
    have ha := a.isLt
    have hc := c.isLt
    have h : (a ++ 0x7FF#11 ++ 1#1 ++ c : BitVec 64).toNat = c.toNat + 2 ^ 51 * (1 + 2 * (2047 + 2 ^ 11 * a.toNat)) := by
      simp only [toNat_append_add, BitVec.toNat_ofNat]
      omega
    constructor
    · rw [isNaN_iff, fmag, h]
      omega
    · rw [BitVec.getLsbD, h, Nat.testBit_eq_decide_div_mod_eq]
      simp only [decide_eq_true_eq]
      omega
  exact key _ _

/-- Replacing NaNs keeps every number and writes a draw of NAN_OUT for every NaN. -/
theorem getElem_replaceNans (k : Nat) (ys : List F64) (n : Nat) (hn : n < ys.length) :
    (isNaN ys[n] = false → (replaceNans k ys)[n]'(by simpa using hn) = ys[n]) ∧
    (isNaN ys[n] = true → ∃ j, (replaceNans k ys)[n]'(by simpa using hn) = nanOut j) := by
  induction ys generalizing k n with
  | nil => simp at hn
  | cons y ys ih =>
    cases n with
    | zero => simp only [replaceNans]; split <;> simp_all
    | succ n =>
      simp only [replaceNans]
      split
      · simpa using ih (k+1) n (by simpa using hn)
      · simpa using ih k n (by simpa using hn)

end Sys2Proof.Machine
end

