-- ==== Sys2Proof/Tests/Slice0.lean ====
section
/-! SUPPORT. The model's own tests: words of the spec's encoding, a smoke test for each well-formedness check, vectors of
95_test_vectors on one step each, and a witness for the hypotheses of every statement that has some. -/

namespace Sys2Proof.Tests

open Sys2Proof.Machine

/-! One theorem at a time: kernel evaluations that wait for one another would each hold a thread and its stack. -/

set_option Elab.async false

/-! Encoding: the vectors of 95_test_vectors section 2. -/

theorem test_decode_halt : decode 0x00000000#32 = .ok .halt := by decide
theorem test_decode_nop : decode 0x00000001#32 = .ok .nop := by decide
theorem test_decode_dec : decode 0x00000210#32 = .ok (.dec 2 0) := by decide
theorem test_decode_enc : decode 0x00003411#32 = .ok (.enc 4 3) := by decide
theorem test_decode_conv : decode 0x00021320#32 = .ok (.conv 3 1 2) := by decide
theorem test_decode_fir : decode 0x000DEF21#32 = .ok (.fir 15 14 13) := by decide
theorem test_decode_deconvT : decode 0x00000122#32 = .ok (.deconvT 1 0 0) := by decide
theorem test_decode_deconvF : decode 0x00110222#32 = .ok (.deconvF 2 0 1) := by decide
theorem test_decode_xcorr : decode 0x00032030#32 = .ok (.xcorr 2 3) := by decide
theorem test_decode_illegal :
    decode 0x000000FF#32 = .error .illegalOpcode ∧ decode 0x0F000002#32 = .error .illegalOpcode := by decide
theorem test_decode_reserved : [0x00000130#32, 0x00100020#32, 0x00200022#32, 0x01000001#32, 0x00000100#32,
    0x00050010#32].all (fun w => decide (decode w = .error .reservedField)) = true := by decide
theorem test_encode_words :
    encode (.dec 3 1) = 0x00001310#32 ∧ encode (.enc 3 2) = 0x00002311#32 ∧ encode (.conv 3 1 2) = 0x00021320#32 ∧
    encode (.fir 15 14 13) = 0x000DEF21#32 ∧ encode (.deconvT 1 0 0) = 0x00000122#32 ∧
    encode (.deconvF 2 0 1) = 0x00110222#32 ∧ encode (.xcorr 2 3) = 0x00032030#32 := by decide
theorem test_table_word : decodeTableWord 32 0x00110222 = some (.deconvF 2 0 1) ∧ decodeTableWord 32 0xFF = none := by
  decide

/-! Well-formedness: a field set that each check refuses, and one that passes. -/

theorem smoke_opcode : (fieldsOfWord 0x00000002#32).opcodeOk = false := by decide
theorem smoke_rd : (fieldsOfWord 0x00000130#32).rdOk = false := by decide
theorem smoke_rs1 : (fieldsOfWord 0x00001001#32).rs1Ok = false := by decide
theorem smoke_rs2 : (fieldsOfWord 0x00050010#32).rs2Ok = false := by decide
theorem smoke_flg :
    (fieldsOfWord 0x00100020#32).flgOk = false ∧ (fieldsOfWord 0x00200022#32).flgOk = false := by decide
theorem smoke_rsv : (fieldsOfWord 0x01000001#32).rsvOk = false := by decide
theorem smoke_refused : [0x00000002#32, 0x00000130#32, 0x00001001#32, 0x00050010#32, 0x00100020#32,
    0x01000001#32].any (fun w => (fieldsOfWord w).wellFormed) = false := by decide
theorem smoke_accepted : (fieldsOfWord 0x00110222#32).wellFormed = true ∧ (Instr.xcorr 2 3).wellFormed = true := by decide

/-! Small states. -/

/-- A sample descriptor of DEPTH 16 (95_test_vectors, FMT 0x00001001). -/
def smp (base len cap : Nat) (rate : Word := 48000#32) : Desc :=
  { base := BitVec.ofNat 32 base, len := BitVec.ofNat 32 len, cap := BitVec.ofNat 32 cap, rate := rate, fmt := 0x01001#17 }

/-- A 16-bit PCM descriptor (FMT 0x00011001). -/
def pcm (base len cap : Nat) : Desc := { smp base len cap with fmt := 0x11001#17 }

/-- A running engine after reset, with descriptors D0, D1, … and stored bytes. -/
def machine (ds : List Desc) (bytes : List (Nat × List Byte)) : State :=
  (bytes.foldl (fun s p => memWrite s p.1 p.2)
    ((List.zip (List.finRange 16) ds).foldl (fun s p => setDesc s p.1 p.2) (startRun State.reset)))

/-- The next state. -/
def after (o : Host.Outcome State Fault Refusal) : State :=
  match o with
  | .next t => t
  | _ => State.reset

/-- The samples at an address, as patterns. -/
def samplesAt (s : State) (a n : Nat) : List Nat := (List.range n).map fun i => memRead s (a + 8 * i) 8

def half : F64 := 0x3FE0000000000000#64
def quarter : F64 := 0x3FD0000000000000#64
def minusHalf : F64 := 0xBFE0000000000000#64
def two : F64 := 0x4000000000000000#64
def aNan : F64 := 0x7FF8000000000000#64
def plusInf : F64 := 0x7FF0000000000000#64

/-! One step each, from 95_test_vectors. -/

/-- V-SEQ-1: HALT at 0x40. -/
theorem test_halt : let t := after (step { machine [] [(0x40, [0, 0, 0, 0])] with cmdPtr := 0x40#32 })
    t.busy = false ∧ t.done = true ∧ t.cmdPtr = 0x44#32 ∧ t.cmdsDone = 1#32 := by decide

/-- V-SEQ-2, its first step. -/
theorem test_nop : let t := after (step (machine [] [(0, [1, 0, 0, 0])]))
    t.busy = true ∧ t.cmdPtr = 4#32 ∧ t.cmdsDone = 1#32 := by decide

/-- V-SEQ-3, V-SEQ-6: alignment is checked first. -/
theorem test_fetch_align :
    (after (step { machine [] [] with cmdPtr := 2#32 })).errCode = 0x3#32 ∧
    (after (step { machine [] [] with cmdPtr := 0x000FFFFE#32 })).errCode = 0x3#32 := by decide

/-- V-SEQ-4: CMD_PTR = MEM_BYTES. -/
theorem test_fetch_range : (after (step { machine [] [] with cmdPtr := 0x00100000#32 })).errCode = 0x4#32 := by decide

/-- V-DEC-1. -/
def dec1 : State := machine [pcm 0x100 2 4, smp 0 0 0, smp 0x200 0 16] [(0x100, [0x00, 0x40, 0xFF, 0xFF])]
theorem test_dec_16 : let t := after (exec (.dec 2 0) dec1)
    samplesAt t 0x200 2 = [0x3FE0000000000000, 0xBF00000000000000] ∧ t.desc 2 = smp 0x200 2 16 := by decide +kernel

/-- V-DEC-2: 24-bit frames; DEPTH 24 is kept. -/
def dec2 : State :=
  machine [{ pcm 0x100 2 6 with rate := 96000#32, fmt := 0x11801#17 }, smp 0 0 0, smp 0x200 0 16]
    [(0x100, [0x00, 0x00, 0x40, 0xFF, 0xFF, 0xFF])]
theorem test_dec_24 : let t := after (exec (.dec 2 0) dec2)
    samplesAt t 0x200 2 = [0x3FE0000000000000, 0xBE80000000000000] ∧
    t.desc 2 = { smp 0x200 2 16 with rate := 96000#32, fmt := 0x01801#17 } := by decide +kernel

/-- V-ENC-1. -/
def enc1 : State := machine [smp 0 0 0, smp 0 0 0, smp 0 0 0, { smp 0x400 2 16 with rate := 44100#32 }, smp 0x500 0 4]
  [(0x400, sampleBytes [0x3FD8000000000000#64, 0xBFD2000000000000#64])]
theorem test_enc : let t := after (exec (.enc 4 3) enc1)
    memRead t 0x500 4 = 0xDC003000 ∧ t.desc 4 = { pcm 0x500 2 4 with rate := 44100#32 } := by decide +kernel

/-- V-ENC-2: the first offender is at index 1. -/
def enc2 : State := machine [smp 0 0 0, smp 0x100 3 24, smp 0 0 0, smp 0x300 0 6] [(0x100, sampleBytes [half, f64One, two])]
theorem test_enc_range : let t := after (exec (.enc 3 1) enc2)
    t.errCode = 0x1122#32 ∧ t.errIndex = 1#32 ∧ t.mem = enc2.mem := by decide +kernel

/-- V-CONV-1. -/
def conv1 : State := machine [smp 0 0 0, smp 0x200 4 32, smp 0x300 2 16, smp 0x400 0 32]
  [(0x200, sampleBytes [half, quarter, minusHalf, 0#64]), (0x300, sampleBytes [f64One, half])]
theorem test_conv : samplesAt (after (exec (.conv 3 1 2) conv1)) 0x400 4 =
    [0x3FD8000000000000, 0x3FD8000000000000, 0xBFD2000000000000, 0xBFC8000000000000] := by decide +kernel

/-- V-CONV-5 and V-CONV-6: the source is scanned before the impulse. -/
def conv5 : State := machine [smp 0 0 0, smp 0x200 2 16, smp 0x300 2 16, smp 0x400 0 16]
  [(0x200, sampleBytes [half, half]), (0x300, sampleBytes [half, aNan])]
def conv6 : State := machine [smp 0 0 0, smp 0x200 2 16, smp 0x300 1 8, smp 0x400 0 16]
  [(0x200, sampleBytes [two, half]), (0x300, sampleBytes [aNan])]
theorem test_conv_bounds :
    (after (exec (.conv 3 1 2) conv5)).errCode = 0x2221#32 ∧ (after (exec (.conv 3 1 2) conv5)).errIndex = 1#32 ∧
    (after (exec (.conv 3 1 2) conv6)).errCode = 0x1121#32 ∧ (after (exec (.conv 3 1 2) conv6)).errIndex = 0#32 := by
  decide +kernel

/-- V-FIR-1. -/
def fir1 : State := machine [smp 0 0 0, smp 0x200 4 32, { smp 0x300 3 24 with rate := 0#32 }, smp 0x400 0 32]
  [(0x200, sampleBytes [f64One, 0#64, 0#64, 0#64]), (0x300, sampleBytes [quarter, half, quarter])]
theorem test_fir : samplesAt (after (exec (.fir 3 1 2) fir1)) 0x400 4 =
    [0x3FD0000000000000, 0x3FE0000000000000, 0x3FD0000000000000, 0] := by decide +kernel

/-- V-FIR-6: the first sum is a NaN, the second is +infinity. -/
def fir6 : State := machine [smp 0 0 0, smp 0x200 2 16, smp 0x300 2 16, smp 0x400 0 16]
  [(0x200, sampleBytes [plusInf, f64One]), (0x300, sampleBytes [0#64, f64One])]
theorem test_fir_nan : isNaN (firSum fir6 1 2 0) = true ∧ (after (exec (.fir 3 1 2) fir6)).draws = 1 ∧
    samplesAt (after (exec (.fir 3 1 2) fir6)) 0x408 1 = [0x7FF0000000000000] := by decide +kernel

/-- V-DC-4: rounded quotients. -/
def dc4 : State := machine [smp 0x200 3 24, smp 0x300 2 16, smp 0x400 0 32]
  [(0x200, sampleBytes [quarter, half, quarter]), (0x300, sampleBytes [f64One, half])]
theorem test_deconvT : samplesAt (after (exec (.deconvT 2 0 1) dc4)) 0x400 4 =
    [0x3FC999999999999A, 0x3FE999999999999A, 0x3FF0000000000000, 0x3FD999999999999A] := by decide +kernel

/-- V-DC-3. -/
def dc3 : State := machine [smp 0x200 2 16, smp 0x300 1 8, smp 0x400 0 32]
  [(0x200, sampleBytes [half, f64MinusOne]), (0x300, sampleBytes [f64One])]
theorem test_deconvF : samplesAt (after (exec (.deconvF 2 0 1) dc3)) 0x400 2 =
    [0x3FF0000000000000, 0xC000000000000000] := by decide +kernel

/-- V-DC-5: a peak that is not positive. -/
def dc5 : State := machine [smp 0x200 1 8, smp 0x300 1 8, smp 0x400 0 32]
  [(0x200, sampleBytes [minusHalf]), (0x300, sampleBytes [half])]
theorem test_deconv_degenerate : (after (exec (.deconvF 2 0 1) dc5)).errCode = 0x3225#32 ∧
    (after (exec (.deconvF 2 0 1) dc5)).descs = dc5.descs := by decide +kernel

/-- V-XC-2. -/
def xc2 : State := machine [smp 0x200 4 32, smp 0x300 4 32]
  [(0x200, sampleBytes [half, quarter, 0#64, 0#64]), (0x300, sampleBytes [0#64, half, quarter, 0#64])]
theorem test_xcorr : (after (exec (.xcorr 0 1) xc2)).lag = 0xFFFFFFFF#32 := by decide +kernel

/-- V-XC-7. -/
def xc7 : State := machine [smp 0x200 2 16, smp 0x300 2 16]
  [(0x200, sampleBytes [f64One, aNan]), (0x300, sampleBytes [f64One, f64One])]
theorem test_xcorr_nan : (after (exec (.xcorr 0 1) xc7)).errCode = 0x26#32 ∧
    (after (exec (.xcorr 0 1) xc7)).errIndex = 1#32 ∧ (after (exec (.xcorr 0 1) xc7)).lag = 0#32 := by decide +kernel

/-! The host: a register write, a MEM write, START, soft reset. -/

theorem test_host_descriptor : (after (step { State.reset with
    inbox := [.host (.regWrite 0x150#12 .w4 0xFFFF1802#32)] })).desc 2 =
      { base := 0, len := 0, cap := 0, rate := 0, fmt := 0x11802#17 } := by decide

theorem test_host_start : let t := after (step { State.reset with
    done := true, errCode := 5#32, cmdsDone := 9#32, inbox := [.host (.regWrite 0x00C#12 .w4 1#32)] })
    t.busy = true ∧ t.done = false ∧ t.errCode = 0#32 ∧ t.cmdsDone = 0#32 := by decide

theorem test_host_edge : let t := after (step { State.reset with
    inbox := [.host (.memWrite 0x000FFFFE#32 .w4 0x44332211#64)] })
    t.mem = [(0x000FFFFE, 0x11), (0x000FFFFF, 0x22)] := by decide

/-- P7: a soft reset while DEC runs draws the bytes of its destination region and keeps the others. -/
theorem test_soft_reset : let t := after (step { machine [pcm 0x100 2 4, smp 0 0 0, smp 0x200 0 16]
      [(0, [0x10, 0x02, 0, 0]), (0x100, [0, 0x40, 0xFF, 0xFF])] with
    inbox := [.host (.regWrite 0x00C#12 .w4 2#32)] })
    t.busy = false ∧ t.desc 0 = Desc.zero ∧ memRead t 0x100 4 = 0xFFFF4000 ∧ t.draws = 16 ∧
      t.mem.map (fun c => c.1) = [0, 1, 2, 3, 0x100, 0x101, 0x102, 0x103] ++ List.range' 0x200 16 := by decide +kernel

/-! Witnesses. Each shows values that meet all hypotheses of the statement of its name together. -/

theorem witness_DecodedWordsEncodeBack : decode 0x00110222#32 = .ok (.deconvF 2 0 1) := by decide

def nopState : State := machine [] [(0, [1, 0, 0, 0])]

theorem witness_StepRunsTheDecodedCommand :
    (ReadyToFetch nopState ∧ decodeBytes (commandBytes nopState) = .ok .nop ∧ Instr.nop.wellFormed = true ∧
      nopState.inbox = []) ∧
    (ReadyToFetch { nopState with inbox := [.engine] } ∧
      decodeBytes (commandBytes { nopState with inbox := [.engine] }) = .ok .nop) := by decide

theorem witness_IdleEngineTakesNoStep :
    (State.reset.busy = false ∧ State.reset.inbox = []) ∧
    ({ State.reset with inbox := [.engine] } : State).busy = false := by decide

def atPtr (p : Word) (word : List Byte) : State := { machine [] [(0, word)] with cmdPtr := p }

theorem witness_FetchChecksCmdPtr_refused :
    ((atPtr 0x000FFFFF#32 []).inbox = [] ∧ (atPtr 0x000FFFFF#32 []).busy = true ∧
      (atPtr 0x000FFFFF#32 []).cmdPtr.toNat % 4 ≠ 0) ∧
    ((atPtr 0x00100000#32 []).inbox = [] ∧ (atPtr 0x00100000#32 []).busy = true ∧
      (atPtr 0x00100000#32 []).cmdPtr.toNat % 4 = 0 ∧
      (atPtr 0x00100000#32 []).cfg.memBytes < (atPtr 0x00100000#32 []).cmdPtr.toNat + 4) := by decide

/-- A word of each outcome of decoding, the first in the last word of MEM. -/
theorem witness_FetchChecksCmdPtr_fetched :
    (ReadyToFetch (memWrite (atPtr 0x000FFFFC#32 []) 0x000FFFFC [1, 0, 0, 0]) ∧
      (1#32).toNat = memRead (memWrite (atPtr 0x000FFFFC#32 []) 0x000FFFFC [1, 0, 0, 0]) 0x000FFFFC 4) ∧
    (ReadyToFetch (atPtr 0#32 [2, 0, 0, 0]) ∧ (2#32).toNat = memRead (atPtr 0#32 [2, 0, 0, 0]) 0 4 ∧
      decode 2#32 = .error .illegalOpcode) ∧
    (ReadyToFetch (atPtr 0#32 [0, 1, 0, 0]) ∧ (0x100#32).toNat = memRead (atPtr 0#32 [0, 1, 0, 0]) 0 4 ∧
      decode 0x100#32 = .error .reservedField) := by decide

theorem witness_BadWordsAreRefused :
    (ReadyToFetch (atPtr 0#32 [0x02, 0, 0, 0x0F]) ∧ (atPtr 0#32 [0x02, 0, 0, 0x0F]).inbox = [] ∧
      ((wordOfBytes (commandBytes (atPtr 0#32 [0x02, 0, 0, 0x0F]))).extractLsb' 0 8).toNat = 0x02) ∧
    (ReadyToFetch (atPtr 0#32 [0x22, 0, 0x20, 0]) ∧ (atPtr 0#32 [0x22, 0, 0x20, 0]).inbox = [] ∧
      ((wordOfBytes (commandBytes (atPtr 0#32 [0x22, 0, 0x20, 0]))).extractLsb' 0 8).toNat = 0x22 ∧
      (fieldsOfWord (wordOfBytes (commandBytes (atPtr 0#32 [0x22, 0, 0x20, 0])))).wellFormed = false) := by decide

theorem witness_CommandsKeepEverythingElse : exec .nop nopState = .next (complete nopState) := rfl

/-- A failing command of each kind: one that leaves MEM, and PEAK_DEGENERATE. -/
theorem witness_ErrorsArePrecise :
    (exec (.enc 3 1) enc2 = .next (after (exec (.enc 3 1) enc2)) ∧
      (after (exec (.enc 3 1) enc2)).cmdPtr = enc2.cmdPtr ∧
      (after (exec (.enc 3 1) enc2)).errCode.toNat % 256 ≠ 0x25) ∧
    (exec (.deconvF 2 0 1) dc5 = .next (after (exec (.deconvF 2 0 1) dc5)) ∧
      (after (exec (.deconvF 2 0 1) dc5)).cmdPtr = dc5.cmdPtr ∧
      (after (exec (.deconvF 2 0 1) dc5)).errCode.toNat % 256 = 0x25) :=
  ⟨⟨rfl, by decide +kernel⟩, ⟨rfl, by decide +kernel⟩⟩

/-- The first source of DEC, and the second of CONV. -/
def decSrc : SrcSpec := { desc := 0, kind := .pcm, chanRate := true, nonempty := false }
def convSrc2 : SrcSpec := { desc := 2, kind := .sample, chanRate := true, nonempty := true }

/-- For each clause a D0 that fails that check first, for DEC's source; the range of check 5 at its boundary. -/
theorem witness_SourceChecksInOrder_rs1 : (sigOf (.dec 1 0)).src1 = some decSrc ∧
    [checkSrc (machine [smp 0 0 0] []) .rs1 decSrc,
      checkSrc (machine [{ pcm 0 0 0 with fmt := 0x11002#17 }] []) .rs1 decSrc,
      checkSrc (machine [{ pcm 0 0 0 with fmt := 0x10801#17 }] []) .rs1 decSrc,
      checkSrc (machine [{ pcm 0 0 0 with rate := 0#32 }] []) .rs1 decSrc,
      checkSrc (machine [pcm 0x100000 0 1] []) .rs1 decSrc,
      checkSrc (machine [pcm 0 3 5] []) .rs1 decSrc].map (fun e => e.map fun e => e.name) =
    [some .fmtKind, some .fmtChannels, some .fmtDepth, some .fmtRate, some .memRange, some .fmtLength] := by decide

/-- For CONV's second source, the first being ready: the checks that DEC's source does not have, at a boundary each. -/
theorem witness_SourceChecksInOrder_rs2 :
    (sigOf (.conv 3 1 2)).src2 = some convSrc2 ∧ (sigOf (.conv 3 1 2)).src1 = some (fullSample 1) ∧
    SourceReady conv1 1 .sample true true ∧
    [checkSrc (machine [smp 0 0 0, smp 0x200 4 32, pcm 0x300 2 16] []) .rs2 convSrc2,
      checkSrc (machine [smp 0 0 0, smp 0x200 4 32, smp 0x304 2 16] []) .rs2 convSrc2,
      checkSrc (machine [smp 0 0 0, smp 0x200 4 32, smp 0x300 0 16] []) .rs2 convSrc2,
      checkSrc (machine [smp 0 0 0, smp 0x200 4 32, smp 0x300 2 15] []) .rs2 convSrc2].map
        (fun e => e.map fun e => e.name) =
    [some .fmtKind, some .memAlign, some .empty, some .fmtLength] := by decide

def rates : State := machine [smp 0 0 0, smp 0x100 4 32, smp 0x200 4 32 44100#32] []
def lengths : State := machine [smp 0 0 0, smp 0x100 4 32, smp 0x200 3 32] []
theorem witness_PairChecksInOrder_rate : SourceReady rates 1 .sample true true ∧ SourceReady rates 2 .sample true true ∧
    (rates.desc 1).rate ≠ (rates.desc 2).rate := by decide
theorem witness_PairChecksInOrder_length :
    SourceReady lengths 1 .sample true true ∧ SourceReady lengths 2 .sample true true ∧
    (lengths.desc 1).rate = (lengths.desc 2).rate ∧ (lengths.desc 1).len ≠ (lengths.desc 2).len := by decide

/-- A destination of ENC or DEC that fails each check first: range, alignment, capacity by one byte, overlap by one frame. -/
theorem witness_DestinationChecksInOrder :
    (sigOf (.dec 1 0)).dst = some (sampleDst 1 .same) ∧
    SourceReady (machine [pcm 0x100 2 4] []) 0 .pcm true false ∧
    [machine [pcm 0x100 2 4, smp 0xFFFF8 0 9] [], machine [pcm 0x100 2 4, smp 0x204 0 16] [],
      machine [pcm 0x100 2 4, smp 0x200 0 15] [], machine [pcm 0x100 2 4, smp 0xF8 0 16] []].map
        (fun s => (checkDst s (sigOf (.dec 1 0)) (sampleDst 1 .same)).map fun e => e.name) =
    [some .memRange, some .memAlign, some .dstCapacity, some .overlap] := by decide

theorem witness_DecWritesTheDecodedSamples :
    (DecReady dec1 2 0 ∧ (dec1.desc 0).depth = 16#8) ∧ (DecReady dec2 2 0 ∧ (dec2.desc 0).depth = 24#8) := by decide

theorem witness_EncRefusesOutOfRange : EncReady enc2 3 1 ∧ 1 < lenOf enc2 1 ∧
    flt (fabs (sampleOf enc2 1 1)) f64One = false ∧
    ∀ j < 1, flt (fabs (sampleOf enc2 1 j)) f64One = true := by decide +kernel

theorem witness_EncWritesTheEncodedFrames : EncReady enc1 4 3 ∧
    ∀ j < lenOf enc1 3, flt (fabs (sampleOf enc1 3 j)) f64One = true := by decide +kernel

/-- The largest magnitude below 1.0. -/
theorem witness_EncodingTruncatesTowardZero : flt (fabs 0x3FEFFFFFFFFFFFFF#64) f64One = true := by decide +kernel

theorem witness_FramesRoundTrip : (0x7FFF#16 : BitVec 16) ≠ 0x8000#16 ∧ (0x800001#24 : BitVec 24) ≠ 0x800000#24 := by
  decide

/-- E1: a buffer without the frame 0x8000, and one whose first frame it is. -/
def e1 (b : Byte) : State :=
  machine [pcm 0x100 2 4, smp 0x200 0 16, smp 0x300 0 4] [(0x100, [b, 0x80, 0xFF, 0x7F])]
theorem witness_DecThenEncGivesTheSameBytes_all : DecReady (e1 1) 1 0 ∧ ((e1 1).desc 0).depth = 16#8 ∧
    EncReady (after (exec (.dec 1 0) (e1 1))) 2 1 ∧
    ∀ i < lenOf (e1 1) 0, memRead (e1 1) (baseOf (e1 1) 0 + 2 * i) 2 ≠ 0x8000 := by decide +kernel
theorem witness_DecThenEncGivesTheSameBytes_first : DecReady (e1 0) 1 0 ∧ ((e1 0).desc 0).depth = 16#8 ∧
    EncReady (after (exec (.dec 1 0) (e1 0))) 2 1 ∧
    0 < lenOf (e1 0) 0 ∧ memRead (e1 0) (baseOf (e1 0) 0 + 2 * 0) 2 = 0x8000 := by decide +kernel

theorem witness_ConvRefusesOutOfBounds_source :
    ConvReady conv6 3 1 2 ∧ 0 < lenOf conv6 1 ∧ fle (sampleOf conv6 1 0) f64One = false := by decide +kernel
theorem witness_ConvRefusesOutOfBounds_impulse : ConvReady conv5 3 1 2 ∧
    (∀ j < lenOf conv5 1, fge (sampleOf conv5 1 j) f64MinusOne = true ∧ fle (sampleOf conv5 1 j) f64One = true) ∧
    1 < lenOf conv5 2 ∧ fle (sampleOf conv5 2 1) f64One = false ∧
    ∀ j < 1, fge (sampleOf conv5 2 j) f64MinusOne = true ∧ fle (sampleOf conv5 2 j) f64One = true := by decide +kernel

/-- V-CONV-4 has both bounds: -1.0 and 1.0 pass. -/
def conv4 : State := machine [smp 0 0 0, smp 0x200 2 16, smp 0x300 1 8, smp 0x400 0 16]
  [(0x200, sampleBytes [f64MinusOne, f64One]), (0x300, sampleBytes [f64One])]
theorem witness_ConvWritesTheAttenuatedSums : ConvReady conv4 3 1 2 ∧
    (∀ j < lenOf conv4 1, fge (sampleOf conv4 1 j) f64MinusOne = true ∧ fle (sampleOf conv4 1 j) f64One = true) ∧
    (∀ j < lenOf conv4 2, fge (sampleOf conv4 2 j) f64MinusOne = true ∧ fle (sampleOf conv4 2 j) f64One = true) := by
  decide +kernel

/-- A sum that is no NaN and one that is. -/
theorem witness_FirWritesTheSums_number :
    FirReady fir1 3 1 2 ∧ 0 < lenOf fir1 1 ∧ isNaN (firSum fir1 1 2 0) = false := by decide +kernel
theorem witness_FirWritesTheSums_nan :
    FirReady fir6 3 1 2 ∧ 0 < lenOf fir6 1 ∧ isNaN (firSum fir6 1 2 0) = true := by decide +kernel

theorem witness_DeconvWritesTheNormalizedSums : DeconvReady dc4 2 0 1 ∧ 2 < lenOf dc4 0 + lenOf dc4 1 - 1 ∧
    isFinite (deconvSum dc4 0 1 2) = true ∧ fgt (deconvSum dc4 0 1 2) 0#64 = true ∧
    ∀ j < lenOf dc4 0 + lenOf dc4 1 - 1, fle (deconvSum dc4 0 1 j) (deconvSum dc4 0 1 2) = true := by decide +kernel

theorem witness_DeconvRefusesDegeneratePeak : DeconvReady dc5 2 0 1 ∧
    ¬ ∃ k0 < lenOf dc5 0 + lenOf dc5 1 - 1, isFinite (deconvSum dc5 0 1 k0) = true ∧
      fgt (deconvSum dc5 0 1 k0) 0#64 = true ∧
      ∀ j < lenOf dc5 0 + lenOf dc5 1 - 1, fle (deconvSum dc5 0 1 j) (deconvSum dc5 0 1 k0) = true := by decide +kernel

/-- V-DC-8: with a -infinity among the sums. -/
theorem witness_NormalizedPeakIsOne : [0xFFF0000000000000#64, half] ≠ ([] : List F64) ∧
    peakDegenerate [0xFFF0000000000000#64, half] = false ∧ feq half (peakOf [0xFFF0000000000000#64, half]) = true := by
  decide +kernel

theorem witness_XcorrRefusesNan : XcorrReady xc7 0 1 ∧ 1 < lenOf xc7 0 ∧ isNaN (corrSum xc7 0 1 1) = true ∧
    ∀ i < 1, isNaN (corrSum xc7 0 1 i) = false := by decide +kernel

theorem witness_XcorrWritesTheBestLag : XcorrReady xc2 0 1 ∧ 1 < lenOf xc2 0 ∧
    (∀ i < 1, flt (corrSum xc2 0 1 i) (corrSum xc2 0 1 1) = true) ∧
    ∀ i < lenOf xc2 0, fle (corrSum xc2 0 1 i) (corrSum xc2 0 1 1) = true := by decide +kernel

/-- V-XC-5. -/
def xc5 : State := machine [smp 0x200 4 32, smp 0x300 4 32]
  [(0x200, sampleBytes [0#64, 0#64, 0#64, 0#64]), (0x300, sampleBytes [0#64, 0#64, 0#64, 0#64])]
theorem witness_XcorrOfZerosGivesTheSmallestLag : XcorrReady xc5 0 1 ∧ (∀ i < lenOf xc5 0, sampleOf xc5 0 i = 0#64) ∧
    ∀ i < lenOf xc5 0, sampleOf xc5 1 i = 0#64 := by decide +kernel

theorem witness_ArithmeticRoundsToNearestEven : isFinite half = true ∧ isFinite two = true ∧
    isFinite (fadd half two) = true ∧ isFinite (fmul half two) = true ∧ fvalue two ≠ 0 ∧
    isFinite (fdiv half two) = true := by decide +kernel

theorem witness_ComparisonsAreQuietAndOrdered : isNaN aNan = true ∧ isFinite half = true := by decide +kernel

/-- While idle, and while a command runs. -/
theorem witness_HostReadsTheRegisters : ∀ off : BitVec 12,
    (({ State.reset with inbox := [.host (.regRead off .w4)] } : State).busy = false ∧
      ({ State.reset with inbox := [.host (.regRead off .w4)] } : State).inbox = .host (.regRead off .w4) :: []) ∧
    (({ nopState with inbox := [.host (.regRead off .w4)] } : State).busy = true ∧
      ({ nopState with inbox := [.host (.regRead off .w4)] } : State).inbox = .host (.regRead off .w4) :: [] ∧
      step { nopState with inbox := [.engine] } = .next (after (step { nopState with inbox := [.engine] }))) ∧
    State.reset.cfg.Valid :=
  fun _ => ⟨⟨rfl, rfl⟩, ⟨rfl, rfl, rfl⟩, by decide⟩

/-- The conditions at their boundaries: a byte access, a misaligned one, and the ends of each reserved range. -/
theorem witness_ReservedRegisterAccessesDoNothing :
    (AccessWidth.w1 ≠ .w4) ∧ (0x001#12).toNat % 4 ≠ 0 ∧
    (0x02C ≤ (0x02C#12).toNat ∧ (0x0FF#12).toNat < 0x100) ∧ 0x300 ≤ (0x300#12).toNat ∧
    (0x100 ≤ (0x114#12).toNat ∧ 0x14 ≤ (0x114#12).toNat % 0x20 ∧ 0x14 ≤ (0x2FC#12).toNat % 0x20) ∧
    ({ nopState with inbox := [.host (.regRead 0x2FC#12 .w4)] } : State).inbox = .host (.regRead 0x2FC#12 .w4) :: [] ∧
    ({ nopState with inbox := [.host (.regWrite 0x2FC#12 .w4 7#32)] } : State).inbox =
      .host (.regWrite 0x2FC#12 .w4 7#32) :: [] := by decide

/-- An idle state whose next turn is a register write of the host. -/
def idleWrite (off : BitVec 12) (v : Word) : State := { State.reset with inbox := [.host (.regWrite off .w4 v)] }
/-- A running state whose next turn is a register write of the host. -/
def busyWrite (off : BitVec 12) (v : Word) : State := { nopState with inbox := [.host (.regWrite off .w4 v)] }

theorem witness_IdleHostWritesDescriptors : ∀ n : DescNo, ∀ f ∈ [0x100, 0x104, 0x108, 0x10C, 0x110],
    (idleWrite (BitVec.ofNat 12 (f + 0x20 * n.val)) 7#32).busy = false ∧
    (idleWrite (BitVec.ofNat 12 (f + 0x20 * n.val)) 7#32).inbox =
      .host (.regWrite (BitVec.ofNat 12 (f + 0x20 * n.val)) .w4 7#32) :: [] :=
  fun _ _ _ => ⟨rfl, rfl⟩

theorem witness_BusyHostWritesAreIgnored :
    ((busyWrite 0x018#12 7#32).busy = true ∧ (0x018#12).toNat = 0x018) ∧
    ((busyWrite 0x100#12 7#32).busy = true ∧ 0x100 ≤ (0x100#12).toNat) ∧
    (idleWrite 0x028#12 7#32).inbox = .host (.regWrite 0x028#12 .w4 7#32) :: [] := by decide

theorem witness_ControlWritesStartAndReset :
    ({ nopState with inbox := [.host (.regRead 0x00C#12 .w4)] } : State).inbox = .host (.regRead 0x00C#12 .w4) :: [] ∧
    (idleWrite 0x00C#12 3#32).inbox = .host (.regWrite 0x00C#12 .w4 3#32) :: [] ∧
    (3#32).getLsbD 1 = true ∧ ((1#32).getLsbD 1 = false ∧ (1#32).getLsbD 0 = true ∧
      (idleWrite 0x00C#12 1#32).busy = false ∧ (busyWrite 0x00C#12 1#32).busy = true) ∧
    (4#32).getLsbD 1 = false ∧ (4#32).getLsbD 0 = false := by decide

theorem witness_StatusAndIrqEnWrites :
    (idleWrite 0x010#12 6#32).inbox = .host (.regWrite 0x010#12 .w4 6#32) :: [] ∧
    (busyWrite 0x014#12 6#32).inbox = .host (.regWrite 0x014#12 .w4 6#32) :: [] := by decide

/-- After P2's HALT with both enables set, and after an error: each event that moves irq. -/
def haltedState (next : Turn) : State := { State.reset with done := true, doneIe := true, errIe := true, inbox := [next] }
theorem witness_IrqRisesAndFalls :
    (∀ v : Word, step (haltedState (.host (.regWrite 0x010#12 .w4 v))) =
        .next (after (step (haltedState (.host (.regWrite 0x010#12 .w4 v))))) ∧
      step (haltedState (.host (.regWrite 0x014#12 .w4 v))) =
        .next (after (step (haltedState (.host (.regWrite 0x014#12 .w4 v)))))) ∧
    (step (haltedState (.host (.regWrite 0x00C#12 .w4 3#32))) =
        .next (after (step (haltedState (.host (.regWrite 0x00C#12 .w4 3#32))))) ∧
      (3#32).getLsbD 0 = true ∧ (3#32).getLsbD 1 = true ∧ (haltedState .reset).busy = false) ∧
    step (haltedState .reset) = .next (after (step (haltedState .reset))) ∧
    (exec .halt { nopState with doneIe := true } = .next (haltFlags (complete { nopState with doneIe := true }))) ∧
    (exec (.enc 3 1) { enc2 with errIe := true } = .next (after (exec (.enc 3 1) { enc2 with errIe := true })) ∧
      (after (exec (.enc 3 1) { enc2 with errIe := true })).cmdPtr = enc2.cmdPtr) ∧
    (nopState.inbox = [] ∧ step nopState = .next (after (step nopState))) :=
  ⟨fun _ => ⟨rfl, rfl⟩, ⟨rfl, by decide⟩, rfl, rfl, ⟨rfl, by decide +kernel⟩, ⟨rfl, rfl⟩⟩

/-- P2: writing 1 to the set flag alone drops irq; setting the enable bit of a flag that is 1 raises it (60 R275, R276). -/
theorem test_irq_moves :
    (haltedState .reset).irq = true ∧ (after (step (haltedState (.host (.regWrite 0x010#12 .w4 2#32))))).irq = false ∧
    (after (step (haltedState (.host (.regWrite 0x014#12 .w4 4#32))))).irq = false ∧
    (after (step { haltedState (.host (.regWrite 0x014#12 .w4 2#32)) with doneIe := false })).irq = true := by decide

/-- An access that crosses the end of MEM. -/
theorem witness_IdleHostWritesMemory :
    let s : State := { State.reset with inbox := [.host (.memWrite 0x000FFFFE#32 .w4 7#64)] }
    s.busy = false ∧ s.inbox = .host (.memWrite 0x000FFFFE#32 .w4 7#64) :: [] := by decide

theorem witness_IdleHostReadsMemory :
    let s : State := { State.reset with inbox := [.host (.memRead 0x000FFFFE#32 .w4)] }
    s.busy = false ∧ s.inbox = .host (.memRead 0x000FFFFE#32 .w4) :: [] := by decide

/-- DEC d2, d0 runs, and the host accesses the bytes just after its destination's used range. -/
def decRunning (t : Turn) : State :=
  { machine [pcm 0x100 2 4, smp 0 0 0, smp 0x200 0 16] [(0, [0x10, 0x02, 0, 0]), (0x100, [0, 0x40, 0xFF, 0xFF])] with
    inbox := [t] }
theorem witness_HostAccessOutsideUsedRanges : ∀ t ∈ [Turn.host (.memRead 0x210#32 .w8), .host (.memWrite 0x210#32 .w8 7#64)],
    ReadyToFetch (decRunning t) ∧ decodeBytes (commandBytes (decRunning t)) = .ok (.dec 2 0) ∧
    (∀ k < 8, inRanges (usedRanges (decRunning t) (.dec 2 0)) (0x210 + k) = false) ∧
    (decRunning t).inbox = t :: [] ∧ (decRunning t).cmdPtr.toNat + 4 ≤ (0x210#32).toNat ∧
    (0x210#32).toNat % AccessWidth.w8.bytes = 0 := by decide +kernel

/-- Misaligned accesses that cross the end of MEM while DEC runs, and the byte of one outside the used ranges. -/
theorem witness_MisalignedAccessesAreByteSequences :
    (∀ t, (decRunning t).cfg.Valid ∧ (decRunning t).busy = true ∧ (decRunning t).inbox = t :: []) ∧
    ((0x000FFFFE#32).toNat % AccessWidth.w4.bytes ≠ 0) ∧
    (ReadyToFetch (decRunning (.host (.memReadByte 0x000FFFFF#32 1))) ∧
      decodeBytes (commandBytes (decRunning (.host (.memReadByte 0x000FFFFF#32 1)))) = .ok (.dec 2 0) ∧
      inRanges (usedRanges (decRunning (.host (.memReadByte 0x000FFFFF#32 1))) (.dec 2 0)) 0x000FFFFF = false) :=
  ⟨fun _ => ⟨(by decide : Params.Valid Params.default), rfl, rfl⟩, by decide, by decide +kernel⟩

/-- A byte of a misaligned read takes its place (20_memory R81, R83). -/
theorem test_read_byte :
    (after (step { decRunning (.host (.memReadByte 0x1#32 2)) with hostData := 0x1122334455667788#64 })).hostData =
      0x1122334455027788#64 := by decide +kernel

/-- A read across the end of DEC's U_out, 0x200 to 0x20F, and its last byte as a byte access. -/
theorem witness_HostReadsDuringARun_used : ∀ t ∈ [Turn.host (.memRead 0x208#32 .w8), .host (.memReadByte 0x20F#32 7)],
    ReadyToFetch (decRunning t) ∧ decodeBytes (commandBytes (decRunning t)) = .ok (.dec 2 0) ∧
    (decRunning t).inbox = t :: [] ∧ (0x208#32).toNat % AccessWidth.w8.bytes = 0 ∧
    inRanges (usedRanges (decRunning t) (.dec 2 0)) (0x208 + 7) = true := by decide +kernel

/-- With every LEN 0 no command, of a raced run or not, has a used range. -/
theorem witness_HostReadsDuringARun_unused : ∀ t,
    let s : State := { nopState with raced := true, inbox := [t] }
    s.busy = true ∧ s.inbox = t :: [] ∧ wordRaced s = true ∧ ∀ i, inRanges (usedRanges s i) 0x200 = false := by
  refine fun t => ⟨rfl, rfl, rfl, fun i => ?_⟩
  have h : ∀ n : DescNo, (nopState.desc n).len = 0#32 := by decide
  have h' : ∀ n : DescNo, (State.desc { nopState with raced := true, inbox := [t] } n).len = 0#32 := h
  cases i <;> simp [usedRanges, inRanges, srcRange, outRange, outBytes, sigOf, Desc.usedBytes, outLength, srcLen,
    fullSample, deconvSig, sampleDst, h']

/-- A host write to the last byte of DEC's U_out. -/
theorem witness_WritesToUsedRangesRaceTheCommand :
    let s := decRunning (.host (.memWrite 0x20F#32 .w1 7#64))
    ReadyToFetch s ∧ decodeBytes (commandBytes s) = .ok (.dec 2 0) ∧ (0x20F#32).toNat % AccessWidth.w1.bytes = 0 ∧
    s.inbox = .host (.memWrite 0x20F#32 .w1 7#64) :: [] ∧ 0x20F < s.cfg.memBytes ∧
    inRanges (usedRanges s (.dec 2 0)) 0x20F = true := by decide +kernel

/-- A write to the word after the running command, and a command whose word was written, at its last byte. -/
theorem witness_WritesToCommandWordsRaceThem :
    ((decRunning (.host (.memWrite 0x4#32 .w4 0#64))).busy = true ∧ (0x4#32).toNat % AccessWidth.w4.bytes = 0 ∧
      (decRunning (.host (.memWrite 0x4#32 .w4 0#64))).inbox = .host (.memWrite 0x4#32 .w4 0#64) :: []) ∧
    (nopState.inbox = [] ∧ step nopState = .next (after (step nopState))) ∧
    (let s : State := { nopState with hostWrote := [3] }
     s.inbox = [] ∧ s.busy = true ∧ s.cmdPtr.toNat % 4 = 0 ∧ s.cmdPtr.toNat + 4 ≤ s.cfg.memBytes ∧
      ∃ a ∈ s.hostWrote, s.cmdPtr.toNat ≤ a ∧ a < s.cmdPtr.toNat + 4) ∧
    ({ nopState with raced := true } : State).raced = true := by
  refine ⟨by decide, ⟨rfl, rfl⟩, by decide, rfl⟩

theorem witness_ResetClearsAndKeepsMemory :
    ({ State.reset with inbox := [.reset] } : State).busy = false ∧
    (ReadyToFetch (decRunning .reset) ∧ decodeBytes (commandBytes (decRunning .reset)) = .ok (.dec 2 0) ∧
      (sigOf (.dec 2 0)).dst = some (sampleDst 2 .same) ∧ (decRunning .reset).inbox = .reset :: []) ∧
    (ReadyToFetch { nopState with inbox := [.reset] } ∧
      decodeBytes (commandBytes { nopState with inbox := [.reset] }) = .ok .nop ∧ (sigOf .nop).dst = none) := by
  decide +kernel

theorem witness_EveryStepKeepsTheInvariant :
    nopState.Inv ∧ step nopState = .next (after (step nopState)) := ⟨by decide +kernel, rfl⟩

theorem witness_EveryRunEnds : nopState.cfg.Valid ∧ nopState.inbox = [] ∧ nopState.busy = true := by decide

end Sys2Proof.Tests
end

/-! The invariant is kept by every step of every agent: by each shared operation, by each command, by the resets and by the
host's accesses. -/

namespace Sys2Proof.Machine

/-! What each shared operation does to the invariant. -/

theorem inv_memWrite {s : State} (h : s.Inv) {a : Nat} {bs : List Byte}
    (hr : bs.length = 0 ∨ a + bs.length ≤ s.cfg.memBytes) : (memWrite s a bs).Inv := by
  obtain ⟨hcfg, ⟨hwf, hbelow⟩, hrest⟩ := h
  exact ⟨hcfg, memOk_setBytes hwf hbelow a bs hr, hrest⟩

theorem inv_drawRange {s : State} (h : s.Inv) {a n : Nat} (hr : n = 0 ∨ a + n ≤ s.cfg.memBytes) :
    (drawRange s a n).Inv :=
  inv_memWrite (bs := drawnBytes s.draws n) h (by rwa [length_drawnBytes])

/-- Only a running engine raises an error, so DONE is 0 (10_state R47). -/
theorem inv_raiseError {s : State} (h : s.Inv) (hb : s.busy = true) (e : CmdError) : (raiseError e s).Inv := by
  obtain ⟨hcfg, hmem, ⟨_, hidle⟩, _, _, hlag⟩ := h
  have hdone : s.done = false := by
    by_contra hd
    simp [hidle (.inl (by simpa using hd))] at hb
  refine ⟨hcfg, hmem, ⟨by simp [hdone], fun _ => rfl⟩, ⟨errorWord_lt e, fun _ => ?_, nofun⟩, nofun, hlag⟩
  rw [raiseError_errCode, errorWord_code]
  exact errorCode_ne_zero e.name

/-- A command that completes lay inside MEM, so neither CMD_PTR nor CMDS_DONE wraps (10_state R52). -/
theorem inv_complete {s : State} (h : s.Inv) (hb : s.busy = true) (hp : s.cmdPtr.toNat + 4 ≤ s.cfg.memBytes) :
    (complete s).Inv := by
  obtain ⟨hcfg, hmem, hflags, herr, hrun, hlag⟩ := h
  obtain ⟨hcount, _⟩ := hrun hb
  have ⟨_, _, hmax⟩ := hcfg
  have hptr : (s.cmdPtr + 4#32).toNat = s.cmdPtr.toNat + 4 := by rw [BitVec.toNat_add, BitVec.toNat_ofNat]; omega
  have hdone : (s.cmdsDone + 1#32).toNat = s.cmdsDone.toNat + 1 := by rw [BitVec.toNat_add, BitVec.toNat_ofNat]; omega
  refine ⟨hcfg, hmem, hflags, herr, fun _ => ⟨?_, fun _ => ?_⟩, hlag⟩
  · rw [complete_cmdPtr, complete_cmdsDone, hptr, hdone]; omega
  · rw [complete_cmdPtr, complete_cfg, hptr]; exact hp

/-- HALT ends a run, in which ERR is 0 (10_state R47). -/
theorem inv_haltFlags {s : State} (h : s.Inv) (hb : s.busy = true) : (haltFlags s).Inv := by
  obtain ⟨hcfg, hmem, ⟨_, hidle⟩, ⟨hcode, hname, _⟩, _, hlag⟩ := h
  have herr : s.err = false := by
    by_contra he
    simp [hidle (.inr (by simpa using he))] at hb
  exact ⟨hcfg, hmem, ⟨by simp [herr], fun _ => rfl⟩, ⟨hcode, hname, nofun⟩, nofun, hlag⟩

theorem inv_startRun {s : State} (h : s.Inv) : (startRun s).Inv := by
  obtain ⟨hcfg, hmem, _, _, _, hlag⟩ := h
  exact ⟨hcfg, hmem, by simp [State.FlagsOk], by simp [State.ErrorOk], by simp [State.RunOk], hlag⟩

theorem inv_resetRegisters {s : State} (h : s.Inv) : (resetRegisters s).Inv := by
  obtain ⟨hcfg, hmem, _⟩ := h
  exact ⟨hcfg, hmem, by simp [State.FlagsOk], by simp [State.ErrorOk], by simp [State.RunOk], by simp [State.LagOk]⟩

theorem inv_clearFlags {s : State} (h : s.Inv) (v : Word) : (clearFlags v s).Inv := by
  obtain ⟨hcfg, hmem, ⟨hexcl, hidle⟩, ⟨hcode, hname, hclear⟩, hrun, hlag⟩ := h
  have hdone : (clearFlags v s).done = true → s.done = true := Bool.and_elim_left
  have herr : (clearFlags v s).err = true → s.err = true := Bool.and_elim_left
  exact ⟨hcfg, hmem, ⟨fun ⟨hd, he⟩ => hexcl ⟨hdone hd, herr he⟩, fun hde => hidle (hde.imp hdone herr)⟩,
    ⟨hcode, fun he => hname (herr he), hclear⟩, hrun, hlag⟩

/-- A host may move CMD_PTR only while no run counts against it (10_state R40). -/
theorem inv_cmdPtr {s : State} (h : s.Inv) (hb : s.busy = false) (p : Word) : State.Inv { s with cmdPtr := p } := by
  obtain ⟨hcfg, hmem, hflags, herr, _, hlag⟩ := h
  exact ⟨hcfg, hmem, hflags, herr, fun hb' => absurd hb' (by simp [hb]), hlag⟩

/-! Commands. -/

/-- The bytes of a ready destination lie in MEM. -/
theorem destReady_inside {s : State} {rd : DescNo} {k : BufKind} {n : Nat} (h : DestReady s rd k n) :
    baseOf s rd + n ≤ s.cfg.memBytes := by
  obtain ⟨hcap, _, hn⟩ := h
  omega

theorem inv_finishInto {s : State} (h : s.Inv) (hb : s.busy = true) (hp : s.cmdPtr.toNat + 4 ≤ s.cfg.memBytes)
    {rd : DescNo} {bs : List Byte} {k : BufKind} (hn : DestReady s rd k bs.length) (len : Nat) (rate : Word)
    (p : BitVec 8) : (finishInto s rd bs len rate k p).Inv :=
  inv_complete (s := writeBack (memWrite s (baseOf s rd) bs) rd len rate k p)
    (inv_memWrite h (.inr (destReady_inside hn))) hb hp

/-- A source of samples that passes its checks has at most 2^28 of them, since MEM has at most 2^31 bytes. -/
theorem lenOf_le_of_ready {s : State} {n : DescNo} {c e : Bool} (hv : s.cfg.Valid) (h : SourceReady s n .sample c e) :
    lenOf s n ≤ 2 ^ 28 := by
  obtain ⟨hkind, _, _, _, hcap, _, _, hused⟩ := h
  have hbytes : (s.desc n).usedBytes = lenOf s n * 8 := by rw [Desc.usedBytes, Desc.bpf, hkind]
  obtain ⟨_, _, hmax⟩ := hv
  omega

/-- The lags of a window of at most 2^28 lags (43_correlation R252). -/
theorem lagAt_range {n j : Nat} (hn : n ≤ 2 ^ 28) (hj : j < n) : -(2 ^ 27) ≤ lagAt n j ∧ lagAt n j < 2 ^ 27 := by
  unfold lagAt
  omega

theorem inv_finishLag {s : State} (h : s.Inv) (hb : s.busy = true) (hp : s.cmdPtr.toNat + 4 ≤ s.cfg.memBytes)
    {l : Int} (hl : -(2 ^ 27) ≤ l ∧ l < 2 ^ 27) : (finishLag s l).Inv := by
  obtain ⟨hcfg, hmem, hflags, herr, hrun, _⟩ := h
  have hint : (BitVec.ofInt 32 l).toInt = l := BitVec.toInt_ofInt_eq_self (by decide) (by omega) (by omega)
  refine inv_complete (s := { s with lag := BitVec.ofInt 32 l }) ⟨hcfg, hmem, hflags, herr, hrun, ?_⟩ hb hp
  show _ ≤ (BitVec.ofInt 32 l).toInt ∧ (BitVec.ofInt 32 l).toInt < _
  rwa [hint]

/-- A fetched command keeps the invariant, whichever of its outcomes it has (40_command_execution R140). -/
theorem inv_exec {i : Instr} {s t : State} (h : s.Inv) (hb : s.busy = true)
    (hp : s.cmdPtr.toNat + 4 ≤ s.cfg.memBytes) (ht : exec i s = .next t) : t.Inv := by
  cases exec_did ht with
  | raised e ht => subst ht; exact inv_raiseError h hb e
  | degenerate rd n hn ht => subst ht; exact inv_raiseError (inv_drawRange h (.inr (destReady_inside hn))) hb _
  | halted ht => subst ht; exact inv_haltFlags (inv_complete h hb hp) hb
  | counted ht => subst ht; exact inv_complete h hb hp
  | stored rd rs1 bs len k p draws hn ht => subst ht; exact inv_finishInto h hb hp hn len _ p
  | lagged rs1 rs2 j hr hj ht =>
    subst ht
    exact inv_finishLag h hb hp (lagAt_range (lenOf_le_of_ready h.1 hr.1) hj)

theorem inv_runDecoded {c : Except DecodeError Instr} {s t : State} (h : s.Inv) (hb : s.busy = true)
    (hp : s.cmdPtr.toNat + 4 ≤ s.cfg.memBytes) (ht : runDecoded c s = .next t) : t.Inv := by
  cases c with
  | ok i => exact inv_exec h hb hp ht
  | error e => cases ht; exact inv_raiseError h hb _

/-- The bytes that a completed raced command leaves open lie in MEM (20_memory R90). -/
theorem inv_scrambleOut {c : Except DecodeError Instr} {s t : State} (hb : s.busy = true)
    (hr : runDecoded c s = .next t) (h : t.Inv) : (scrambleOut c s t).Inv := by
  obtain ⟨_, hcfg, _⟩ := runDecoded_ends hb hr
  cases c with
  | error e => exact h
  | ok i =>
    simp only [scrambleOut]
    split
    · exact h
    · rename_i hmoved
      exact inv_drawRange h (by rw [hcfg]; exact exec_outRange hr hmoved)

theorem inv_engineStep {s t : State} (h : s.Inv) (hb : s.busy = true) (ht : engineStep s = .next t) : t.Inv := by
  rcases engineStep_cases ht with ⟨e, _, rfl⟩ | ⟨hf, _, hr⟩ | ⟨hf, _, u, hr, rfl⟩
  · exact inv_raiseError h hb e
  · exact inv_runDecoded h hb ((fetchError_eq_none s).mp hf).2 hr
  · have hu : u.Inv := inv_runDecoded (s := { s with wordDraws := s.wordDraws + 1, raced := false }) h hb
      ((fetchError_eq_none s).mp hf).2 hr
    exact inv_scrambleOut hb hr hu

theorem inv_engineTurn {s t : State} (h : s.Inv) (ht : engineTurn s = .next t) : t.Inv := by
  cases hb : s.busy with
  | true => rw [engineTurn_busy hb] at ht; exact inv_engineStep h hb ht
  | false => rw [engineTurn_idle hb] at ht; cases ht; exact h

/-! Resets. -/

/-- The destination region that an aborted command leaves open lies in MEM (70_reset R301). -/
theorem destRegion_inside (s : State) (i : Instr) :
    (destRegion s i).2 = 0 ∨ (destRegion s i).1 + (destRegion s i).2 ≤ s.cfg.memBytes := by
  unfold destRegion
  split
  · dsimp only; omega
  · exact .inl rfl

theorem inv_abortRunning {s : State} (h : s.Inv) : (abortRunning s).Inv := by
  unfold abortRunning
  split
  · exact inv_drawRange h (destRegion_inside s _)
  · exact h

theorem inv_resetMachine {s : State} (h : s.Inv) : (resetMachine s).Inv := inv_resetRegisters (inv_abortRunning h)

/-! The host. -/

theorem inv_hostWriteCtrl {s : State} (h : s.Inv) (v : Word) : (hostWriteCtrl v s).Inv := by
  unfold hostWriteCtrl
  split
  · exact inv_resetMachine h
  · split
    · exact inv_startRun h
    · exact h

theorem inv_regWrite {s : State} (h : s.Inv) (off : Nat) (v : Word) : (regWrite off v s).Inv := by
  unfold regWrite
  split
  · exact inv_hostWriteCtrl h v
  · exact inv_clearFlags h v
  · exact h
  · split
    · exact h
    · exact inv_cmdPtr h (Bool.eq_false_of_not_eq_true ‹_›) v
  · split <;> exact h

/-- The bytes of a host write outside MEM are dropped (20_memory R85). -/
theorem inv_hostMemWrite {s : State} (h : s.Inv) (a : Word) (w : AccessWidth) (v : BitVec 64) :
    (hostMemWrite a w v s).Inv := by
  have hw := inv_memWrite h (a := a.toNat) (bs := (leBytes w.bytes v.toNat).take (s.cfg.memBytes - a.toNat))
    (by rw [List.length_take]; omega)
  unfold hostMemWrite
  dsimp only
  split <;> exact hw

theorem inv_hostAccess {s : State} (h : s.Inv) (op : HostOp) : (hostAccess op s).Inv := by
  cases op with
  | regRead off w => exact h
  | regWrite off w v =>
    show (hostRegWrite off w v s).Inv
    unfold hostRegWrite
    split
    · exact inv_regWrite h _ v
    · exact h
  | memRead a w =>
    show (hostRead a w s).Inv
    unfold hostRead
    split <;> exact h
  | memReadByte a pos => exact h
  | memWrite a w v =>
    show (hostWrite a w v s).Inv
    unfold hostWrite
    split
    · exact h
    · exact inv_hostMemWrite h a w v

theorem inv_takeTurn {turn : Turn} {s t : State} (h : s.Inv) (ht : takeTurn turn s = .next t) : t.Inv := by
  cases turn with
  | engine => exact inv_engineTurn h ht
  | host op => cases ht; exact inv_hostAccess h op
  | reset => cases ht; exact inv_resetMachine h

/-- Settles O52: the turn that a step takes is the engine's, the host's or a reset, and each keeps the invariant. -/
theorem everyStepKeepsTheInvariant : Obligations.EveryStepKeepsTheInvariant := by
  intro s t h ht
  cases hi : s.inbox with
  | nil => rw [step_nil hi] at ht; exact inv_engineTurn h ht
  | cons turn rest => rw [step_cons hi] at ht; exact inv_takeTurn (s := { s with inbox := rest }) h ht

end Sys2Proof.Machine

/-! Binary64 arithmetic (00_scope R12): the comparisons order finite numbers by value, and each operation rounds its exact
result to nearest, ties to even. -/

namespace Sys2Proof.Machine

/-! The comparisons. Patterns other than NaN are ordered by `fkey` as finite numbers are by their values. -/

theorem fge_key {a b : F64} : fge a b = true ↔ isNaN a = false ∧ isNaN b = false ∧ fkey b ≤ fkey a := by
  simp only [fge, fle_key]; tauto

theorem feq_key {a b : F64} : feq a b = true ↔ isNaN a = false ∧ isNaN b = false ∧ fkey a = fkey b := by
  simp [feq, and_assoc]

theorem fkey_le_iff (a b : F64) : fkey a ≤ fkey b ↔ fvalue a ≤ fvalue b := by
  simpa using not_congr (fkey_lt_iff b a)

theorem fkey_eq_iff (a b : F64) : fkey a = fkey b ↔ fvalue a = fvalue b := by
  rw [le_antisymm_iff, le_antisymm_iff, fkey_le_iff, fkey_le_iff]

/-- The keys of finite numbers lie strictly between those of the infinities. -/
theorem fkey_finite {a : F64} (h : isFinite a = true) : fkey (finf true) < fkey a ∧ fkey a < fkey (finf false) := by
  have hm := (isFinite_iff a).mp h
  rw [show fkey (finf true) = -(2047 * 2 ^ 52) by decide, show fkey (finf false) = 2047 * 2 ^ 52 by decide, fkey]
  split <;> omega

theorem isNaN_finf (neg : Bool) : isNaN (finf neg) = false := by cases neg <;> decide

/-- A comparison that is true only of two numbers is false on a NaN (00_scope R12). -/
theorem eq_false_of_isNaN {a b : F64} {c : Bool} {p : Prop} (hn : isNaN a = true ∨ isNaN b = true)
    (h : c = true ↔ isNaN a = false ∧ isNaN b = false ∧ p) : c = false := by
  by_contra hc
  obtain ⟨ha, hb, _⟩ := h.mp (by simpa using hc)
  simp [ha, hb] at hn

/-- Settles O38: each comparison by the keys, and the keys by the values. -/
theorem comparisonsAreQuietAndOrdered : Obligations.ComparisonsAreQuietAndOrdered := by
  intro a b
  refine ⟨fun hn => ?quiet, fun ha hb => ?finite, fun ha => ?infinite⟩
  case quiet =>
    exact ⟨eq_false_of_isNaN hn flt_key, eq_false_of_isNaN hn fle_key, eq_false_of_isNaN hn feq_key,
      eq_false_of_isNaN hn fgt_key, eq_false_of_isNaN hn fge_key⟩
  case finite =>
    simp [flt_key, fle_key, feq_key, fgt_key, fge_key, isNaN_of_isFinite ha, isNaN_of_isFinite hb, fkey_lt_iff,
      fkey_le_iff, fkey_eq_iff]
  case infinite =>
    obtain ⟨hlow, hhigh⟩ := fkey_finite ha
    exact ⟨flt_key.mpr ⟨isNaN_of_isFinite ha, isNaN_finf false, hhigh⟩,
      flt_key.mpr ⟨isNaN_finf true, isNaN_of_isFinite ha, hlow⟩⟩

/-! Rounding to nearest, ties to even, on magnitudes. -/

/-- The magnitude of `r` is nearest to `n / d` among the finite magnitudes, and on a tie its last bit is 0: `n / d` lies
on its side of the midpoint to every other magnitude, or on the midpoint. -/
def NearestUnits (r : F64) (n d : Nat) : Prop :=
  ∀ y : F64, isFinite y = true →
    (funits r < funits y →
      2 * n ≤ (funits r + funits y) * d ∧ (2 * n = (funits r + funits y) * d → fmag r % 2 = 0)) ∧
    (funits y < funits r →
      (funits r + funits y) * d ≤ 2 * n ∧ (2 * n = (funits r + funits y) * d → fmag r % 2 = 0))

/-- Half a last digit above or below the rounded quotient, the quotient is even. -/
theorem roundQuotient_tie {m sh : Nat}
    (h : 2 * m = 2 * (roundQuotient m sh * 2 ^ sh) + 2 ^ sh ∨ 2 * m + 2 ^ sh = 2 * (roundQuotient m sh * 2 ^ sh)) :
    roundQuotient m sh % 2 = 0 := by
  have hd := Nat.div_add_mod m (2 ^ sh)
  have hl := Nat.mod_lt m (show 0 < 2 ^ sh by positivity)
  rw [Nat.mul_comm] at hd
  unfold roundQuotient at *
  dsimp only at *
  split at h <;> rename_i hc
  · rw [Nat.add_mul, Nat.one_mul] at h
    rw [if_pos hc]
    omega
  · rw [if_neg hc]
    omega

/-- Below the least normal significand of a binade, digits are finer than the binade's; from there on none is. -/
theorem dvd_funits_or_lt (e : Nat) (y : F64) : 2 ^ e ∣ funits y ∨ funits y < 2 ^ 52 * 2 ^ e := by
  obtain ⟨f, q, -, -, hq, hy⟩ := funits_eq y
  rw [hy]
  rcases Nat.lt_or_ge f e with hf | hf
  · right
    calc q * 2 ^ f < 2 ^ 53 * 2 ^ f := Nat.mul_lt_mul_of_pos_right hq (by positivity)
      _ = 2 ^ 52 * 2 ^ (f + 1) := by ring
      _ ≤ 2 ^ 52 * 2 ^ e := Nat.mul_le_mul_left _ (Nat.pow_le_pow_right (by norm_num) hf)
  · exact .inl ((pow_dvd_pow 2 hf).mul_left q)

/-- The next magnitude above a significand of a binade is at least one digit of that binade away. -/
theorem add_digit_le {R e : Nat} {y : F64} (hR : e = 0 ∨ 2 ^ 52 ≤ R) (h : R * 2 ^ e < funits y) :
    (R + 1) * 2 ^ e ≤ funits y := by
  rcases hR with rfl | hR
  · omega
  rcases dvd_funits_or_lt e y with ⟨c, hc⟩ | hlt
  · rw [hc, Nat.mul_comm] at h
    rw [hc, Nat.mul_comm]
    exact Nat.mul_le_mul_left _ (Nat.lt_of_mul_lt_mul_left h)
  · exact absurd (Nat.mul_le_mul_right (2 ^ e) hR) (by omega)

/-- The next magnitude below is one such digit away too, unless the significand is the binade's least. -/
theorem funits_add_digit_le {R e : Nat} {y : F64} (hR : e = 0 ∨ 2 ^ 52 < R) (h : funits y < R * 2 ^ e) :
    funits y + 2 ^ e ≤ R * 2 ^ e := by
  rcases hR with rfl | hR
  · omega
  rcases dvd_funits_or_lt e y with ⟨c, hc⟩ | hlt
  · rw [hc, Nat.mul_comm R] at h
    calc funits y + 2 ^ e = 2 ^ e * (c + 1) := by rw [hc]; ring
      _ ≤ 2 ^ e * R := Nat.mul_le_mul_left _ (Nat.lt_of_mul_lt_mul_left h)
      _ = R * 2 ^ e := Nat.mul_comm ..
  · calc funits y + 2 ^ e ≤ (2 ^ 52 + 1) * 2 ^ e := by rw [Nat.add_mul]; omega
      _ ≤ R * 2 ^ e := Nat.mul_le_mul_right _ hR

/-- A rounded significand that is its binade's least was not rounded up, since the quotient has 53 digits already. -/
theorem least_le_of_round {m k : Nat} (hs : k < roundShift m k) (hR : roundQuotient m (roundShift m k) ≤ 2 ^ 52) :
    roundQuotient m (roundShift m k) * 2 ^ roundShift m k ≤ m :=
  (Nat.mul_le_mul_right _ (hR.trans (quotient_ge hs))).trans (Nat.div_mul_le_self ..)

/-- The last bit of a rounded magnitude field is that of its significand. -/
theorem fmag_fround_mod_two {neg : Bool} {m k : Nat} (h : roundMag m k < 2047 * 2 ^ 52) :
    fmag (fround neg m k) % 2 = roundQuotient m (roundShift m k) % 2 := by
  rw [fmag_fround, Nat.min_eq_left h.le, roundMag]
  omega

theorem isFinite_fround_iff {neg : Bool} {m k : Nat} :
    isFinite (fround neg m k) = true ↔ roundMag m k < 2047 * 2 ^ 52 := by
  rw [isFinite_iff, fmag_fround]
  omega

/-- Rounding gives the nearest magnitude, and the even one on a tie. -/
theorem nearestUnits_fround {neg : Bool} {m k : Nat} (h : isFinite (fround neg m k) = true) :
    NearestUnits (fround neg m k) m (2 ^ k) := by
  intro y _
  rw [isFinite_fround_iff] at h
  rw [funits_fround h, fmag_fround_mod_two h]
  obtain ⟨hparts, -⟩ := roundMag_parts m k
  obtain ⟨hlow, hhigh⟩ := roundQuotient_near m (roundShift m k)
  have htie := @roundQuotient_tie m (roundShift m k)
  have hleast := @least_le_of_round m k
  have hpow : 2 ^ roundShift m k = 2 ^ (roundShift m k - k) * 2 ^ k := by
    rw [← Nat.pow_add, Nat.sub_add_cancel (le_roundShift m k)]
  have hK : 0 < 2 ^ k := by positivity
  rw [hpow] at hlow hhigh htie hleast
  generalize roundQuotient m (roundShift m k) = R at *
  constructor
  · intro hy
    have hstep := Nat.mul_le_mul_right (2 ^ k) (add_digit_le hparts hy)
    have hsum : (R * 2 ^ (roundShift m k - k) + funits y) * 2 ^ k =
      R * (2 ^ (roundShift m k - k) * 2 ^ k) + funits y * 2 ^ k := by ring
    have hnext : (R + 1) * 2 ^ (roundShift m k - k) * 2 ^ k =
      R * (2 ^ (roundShift m k - k) * 2 ^ k) + 2 ^ (roundShift m k - k) * 2 ^ k := by ring
    exact ⟨by omega, fun _ => htie (.inl (by omega))⟩
  · intro hy
    have hsum : (R * 2 ^ (roundShift m k - k) + funits y) * 2 ^ k =
      R * (2 ^ (roundShift m k - k) * 2 ^ k) + funits y * 2 ^ k := by ring
    by_cases hR : roundShift m k - k = 0 ∨ 2 ^ 52 < R
    · have hstep := Nat.mul_le_mul_right (2 ^ k) (funits_add_digit_le hR hy)
      rw [Nat.add_mul, Nat.mul_assoc] at hstep
      exact ⟨by omega, fun _ => htie (.inr (by omega))⟩
    · have hle := hleast (by omega) (by omega)
      have hlt := Nat.mul_lt_mul_of_pos_right hy hK
      rw [Nat.mul_assoc] at hlt
      omega

/-! The quotient of a division keeps its place among the midpoints. -/

/-- Twice a whole quotient and a digit for its remainder: the magnitude that a quotient is rounded from. -/
def stickyQuotient (n b : Nat) : Nat := 2 * (n / b) + if n % b = 0 then 0 else 1

theorem le_stickyQuotient_iff {n b : Nat} (hb : 0 < b) (c : Nat) : 2 * c ≤ stickyQuotient n b ↔ c * b ≤ n := by
  rw [← Nat.le_div_iff_mul_le hb, stickyQuotient]
  split <;> omega

theorem stickyQuotient_le_iff {n b : Nat} (hb : 0 < b) (c : Nat) : stickyQuotient n b ≤ 2 * c ↔ n ≤ c * b := by
  rw [stickyQuotient]
  split
  case isTrue hexact =>
    rw [Nat.add_zero, Nat.mul_le_mul_left_iff (by norm_num)]
    conv_rhs => rw [← Nat.div_mul_cancel (Nat.dvd_of_mod_eq_zero hexact)]
    exact (Nat.mul_le_mul_right_iff hb).symm
  case isFalse hrest =>
    have hne : n ≠ c * b := fun h => hrest (by rw [h, Nat.mul_mod_left])
    rw [show 2 * (n / b) + 1 ≤ 2 * c ↔ n / b < c by omega, Nat.div_lt_iff_lt_mul hb]
    omega

/-- What is nearest to a quotient's magnitude of four digits is nearest to the exact quotient. -/
theorem nearestUnits_of_sticky {r : F64} {n b : Nat} (hb : 0 < b) (h : NearestUnits r (stickyQuotient (n * 2) b) 4) :
    NearestUnits r n b := by
  intro y hy
  obtain ⟨hup, hdown⟩ := h y hy
  have hle := stickyQuotient_le_iff (n := n * 2) hb (funits r + funits y)
  have hge := le_stickyQuotient_iff (n := n * 2) hb (funits r + funits y)
  exact ⟨fun hlt => by have := hup hlt; omega, fun hlt => by have := hdown hlt; omega⟩

/-! From magnitudes to values. -/

/-- Of two values the nearer is the one on the quotient's side of their midpoint. -/
theorem abs_le_of_midpoint {u v n d : Int} (hd : 0 < d) (hup : u < v → 2 * n ≤ (u + v) * d)
    (hdown : v < u → (u + v) * d ≤ 2 * n) : |u * d - n| ≤ |v * d - n| := by
  rcases lt_trichotomy u v with h | rfl | h
  · have := hup h
    have := mul_lt_mul_of_pos_right h hd
    rw [abs_of_nonneg (a := v * d - n) (by linarith), abs_le]
    constructor <;> linarith
  · exact le_rfl
  · have := hdown h
    have := mul_lt_mul_of_pos_right h hd
    rw [abs_of_nonpos (a := v * d - n) (by linarith), abs_le]
    constructor <;> linarith

/-- Two values equally near have the quotient as their midpoint. -/
theorem midpoint_of_abs_eq {u v n d : Int} (hd : 0 < d) (hne : v ≠ u) (h : |u * d - n| = |v * d - n|) :
    2 * n = (u + v) * d := by
  rcases abs_eq_abs.mp h with h | h
  · exact absurd (mul_right_cancel₀ hd.ne' (sub_left_injective h)).symm hne
  · linarith

/-- A number with the sign of a pattern. -/
def withSign (neg : Bool) (z : Int) : Int := if neg then -z else z

theorem fvalue_eq (x : F64) : fvalue x = withSign (fneg x) (funits x) := rfl

theorem withSign_mul (a b : Bool) (y z : Int) : withSign a y * withSign b z = withSign (a != b) (y * z) := by
  cases a <;> cases b <;> simp [withSign]

theorem withSign_mul_const (a : Bool) (y z : Int) : withSign a y * z = withSign a (y * z) :=
  withSign_mul a false y z |>.trans (by rw [Bool.bne_false])

/-- The sign of a product taken times one of its signs is the other. -/
theorem withSign_withSign (a b : Bool) (z : Int) : withSign b (withSign (a != b) z) = withSign a z := by
  cases a <;> cases b <;> simp [withSign]

/-- A sign common to all terms changes no distance. -/
theorem abs_withSign_sub (neg : Bool) (u v : Int) : |withSign neg u - withSign neg v| = |u - v| := by
  cases neg
  · rfl
  · simp only [withSign, if_true, neg_sub_neg, abs_sub_comm]

theorem nearestEven_withSign (r : F64) (neg : Bool) (n d : Int) :
    NearestEven r (withSign neg n) (withSign neg d) ↔ NearestEven r n d := by
  have h : ∀ z : Int, |z * withSign neg d - withSign neg n| = |z * d - n| := fun z => by
    rw [← abs_withSign_sub neg]
    cases neg <;> simp [withSign]
  simp only [NearestEven, h]

/-- The midpoint property holds against values of either sign: zero lies between a number and a value of opposite sign, and
is no farther from the quotient than that value. -/
theorem midpoint_of_units {r y : F64} {n d : Nat} (h : NearestUnits r n d) (hy : isFinite y = true) (neg : Bool) :
    ((funits r : Int) < withSign neg (funits y) → 2 * (n : Int) ≤ (funits r + withSign neg (funits y)) * d) ∧
    (withSign neg (funits y) < funits r → (funits r + withSign neg (funits y)) * d ≤ 2 * (n : Int)) ∧
    (2 * (n : Int) = (funits r + withSign neg (funits y)) * d → withSign neg (funits y) ≠ funits r →
      fmag r % 2 = 0) := by
  cases neg with
  | false =>
    obtain ⟨hup, hdown⟩ := h y hy
    simp only [withSign, Bool.false_eq_true, if_false]
    refine ⟨fun hlt => by exact_mod_cast (hup (by omega)).1, fun hlt => by exact_mod_cast (hdown (by omega)).1,
      fun heq hne => ?_⟩
    have heq' : 2 * n = (funits r + funits y) * d := by exact_mod_cast heq
    rcases Nat.lt_or_gt_of_ne (show funits r ≠ funits y by omega) with hlt | hlt
    · exact (hup hlt).2 heq'
    · exact (hdown hlt).2 heq'
  | true =>
    simp only [withSign, if_true]
    have hzero : funits (fzero false) = 0 := funits_eq_zero.mpr (by decide)
    have hback : ((funits r : Int) + -(funits y : Int)) * d ≤ funits r * d :=
      mul_le_mul_of_nonneg_right (by omega) (by omega)
    rcases Nat.eq_zero_or_pos (funits r) with h0 | hpos
    · refine ⟨by omega, fun _ => ?_, fun _ _ => by rw [funits_eq_zero.mp h0]⟩
      rw [h0] at hback ⊢
      omega
    · obtain ⟨hle, htie⟩ := (h (fzero false) (by decide)).2 (by omega)
      rw [hzero, Nat.add_zero] at hle htie
      have hle' : (funits r : Int) * d ≤ 2 * n := by exact_mod_cast hle
      exact ⟨by omega, fun _ => hback.trans hle', fun heq _ => htie (by exact_mod_cast le_antisymm (heq ▸ hback) hle')⟩

/-- A pattern of nearest magnitude is nearest among all patterns to the quotient with its own sign. -/
theorem nearestEven_of_units {r : F64} {n d : Nat} (hd : 0 < d) (h : NearestUnits r n d) :
    NearestEven r (withSign (fneg r) n) d := by
  intro y hy
  have hdist : ∀ (neg : Bool) (u : Int), |withSign neg u * d - withSign (fneg r) n| =
      |withSign (fneg r != neg) u * d - n| := fun neg u => by
    rw [← abs_withSign_sub (fneg r)]
    cases neg <;> cases fneg r <;> simp [withSign]
  obtain ⟨hup, hdown, htie⟩ := midpoint_of_units h hy (fneg r != fneg y)
  have hd' : (0 : Int) < d := by exact_mod_cast hd
  have hself : withSign (fneg r != fneg r) (funits r) = funits r := by simp [withSign]
  rw [fvalue_eq r, fvalue_eq y, hdist, hdist, hself]
  refine ⟨abs_le_of_midpoint hd' hup hdown, fun habs hne => ?_⟩
  have hne' : withSign (fneg r != fneg y) (funits y) ≠ funits r := fun heq => hne (by
    rw [← heq]; cases fneg r <;> cases fneg y <;> simp [withSign])
  exact htie (midpoint_of_abs_eq hd' hne' habs) hne'

/-- The rounding that all operations share: a finite result is the exact one rounded to nearest, ties to even. -/
theorem nearestEven_fround {neg : Bool} {m k : Nat} (h : isFinite (fround neg m k) = true) :
    NearestEven (fround neg m k) (withSign neg m) (2 ^ k) := by
  have := nearestEven_of_units (by positivity) (nearestUnits_fround h)
  rwa [fneg_fround, Nat.cast_pow, Nat.cast_ofNat] at this

/-! The operations on finite numbers. -/

theorem fadd_finite {a b : F64} (ha : isFinite a = true) (hb : isFinite b = true) : fadd a b =
    if fvalue a + fvalue b = 0 then fzero (fneg a && fneg b)
    else fround (decide (fvalue a + fvalue b < 0)) (fvalue a + fvalue b).natAbs 0 := by
  simp [fadd, isNaN_of_isFinite, isInf_of_isFinite, ha, hb]

theorem fmul_finite {a b : F64} (ha : isFinite a = true) (hb : isFinite b = true) :
    fmul a b = fround (fneg a != fneg b) (funits a * funits b) 1074 := by
  simp [fmul, isNaN_of_isFinite, isInf_of_isFinite, ha, hb]

theorem fdiv_finite {a b : F64} (ha : isFinite a = true) (hb : isFinite b = true) (h0 : fmag b ≠ 0) :
    fdiv a b = fround (fneg a != fneg b) (stickyQuotient (funits a * 2 ^ 1074 * 2) (funits b)) 2 := by
  have hpow : 2 ^ 1075 = 2 ^ 1074 * 2 := by rw [show 1075 = 1074 + 1 from rfl, pow_succ]
  rw [Nat.mul_assoc, ← hpow, fdiv]
  simp only [isNaN_of_isFinite ha, isNaN_of_isFinite hb, isInf_of_isFinite ha, isInf_of_isFinite hb, h0, Bool.or_false,
    Bool.false_eq_true, if_false]
  rfl

theorem withSign_natAbs (z : Int) : withSign (decide (z < 0)) z.natAbs = z := by
  simp only [withSign, decide_eq_true_eq]
  split <;> omega

theorem fadd_nearestEven {a b : F64} (ha : isFinite a = true) (hb : isFinite b = true)
    (h : isFinite (fadd a b) = true) : NearestEven (fadd a b) (fvalue a + fvalue b) 1 := by
  rw [fadd_finite ha hb] at *
  split at h
  case isTrue hsum =>
    rw [if_pos hsum, hsum]
    have hzero : fvalue (fzero (fneg a && fneg b)) = 0 := by cases fneg a && fneg b <;> decide
    intro y _
    rw [hzero]
    refine ⟨by simp, fun heq hne => absurd ?_ hne⟩
    simpa using heq.symm
  case isFalse hsum =>
    rw [if_neg hsum]
    have := nearestEven_fround h
    rwa [withSign_natAbs, pow_zero] at this

theorem fmul_nearestEven {a b : F64} (ha : isFinite a = true) (hb : isFinite b = true)
    (h : isFinite (fmul a b) = true) : NearestEven (fmul a b) (fvalue a * fvalue b) (2 ^ 1074) := by
  rw [fmul_finite ha hb] at *
  rw [fvalue_eq a, fvalue_eq b, withSign_mul, ← Nat.cast_mul]
  exact nearestEven_fround h

theorem fdiv_nearestEven {a b : F64} (ha : isFinite a = true) (hb : isFinite b = true) (h0 : fvalue b ≠ 0)
    (h : isFinite (fdiv a b) = true) : NearestEven (fdiv a b) (fvalue a * 2 ^ 1074) (fvalue b) := by
  have hb0 : funits b ≠ 0 := fun hz => h0 (by simp [fvalue, hz])
  have hpos := Nat.pos_of_ne_zero hb0
  rw [fdiv_finite ha hb fun hz => hb0 (funits_eq_zero.mpr hz)] at *
  have hnear := nearestEven_of_units hpos (nearestUnits_of_sticky hpos (nearestUnits_fround h))
  rw [← nearestEven_withSign _ (fneg b), fneg_fround] at hnear
  rw [fvalue_eq a, fvalue_eq b, withSign_mul_const]
  rwa [withSign_withSign, Nat.cast_mul, Nat.cast_pow, Nat.cast_ofNat] at hnear

/-- Settles O37: each operation is one rounding of its exact result. -/
theorem arithmeticRoundsToNearestEven : Obligations.ArithmeticRoundsToNearestEven := fun _ _ ha hb =>
  ⟨fadd_nearestEven ha hb, fmul_nearestEven ha hb, fdiv_nearestEven ha hb⟩

end Sys2Proof.Machine

/-! The frame of every command: what it has done in terms of its own row of the table of operands (40_command_execution
R143), and from that what it leaves unchanged. -/

namespace Sys2Proof.Machine

/-! What a command has done, with its destination. -/

/-- The outcomes of a command. Bytes of MEM and a descriptor change only at the command's own destination, the bytes in
U_out; only HALT ends a run without an error, and only XCORR gives a lag. -/
inductive Effect (i : Instr) (s : State) : State → Prop where
  | raised (e : CmdError) : Effect i s (raiseError e s)
  | degenerate (e : CmdError) : Effect i s (raiseError e (drawRange s (outRange s i).1 (outRange s i).2))
  | halted (hi : i = .halt) : Effect i s (haltFlags (complete s))
  | counted : Effect i s (complete s)
  | stored (d : DstSpec) (bs : List Byte) (len : Nat) (rate : Word) (k : BufKind) (p : BitVec 8) (draws : Nat)
      (hd : (sigOf i).dst = some d) (hout : outRange s i = (baseOf s d.desc, bs.length)) :
      Effect i s { finishInto s d.desc bs len rate k p with draws := draws }
  | lagged (rs1 rs2 : DescNo) (l : Int) (hi : i = .xcorr rs1 rs2) : Effect i s (finishLag s l)

theorem Effect.storedSamples {i : Instr} {s : State} (d : DstSpec) (rs1 : DescNo) (xs : List F64)
    (hd : (sigOf i).dst = some d) (hout : outRange s i = (baseOf s d.desc, 8 * xs.length)) :
    Effect i s (finishSamples s d.desc rs1 xs) :=
  .stored d (sampleBytes xs) _ _ _ _ s.draws hd (by rw [hout, length_sampleBytes])

/-- DECONV in either mode, whose row of the table does not depend on the mode bit. -/
theorem deconvolve_effect {i : Instr} (rd rs1 rs2 : DescNo) (s : State) (hi : sigOf i = deconvSig rd rs1 rs2) :
    Effect i s (deconvolve rd rs1 rs2 s) := by
  have hout : outRange s i = (baseOf s rd, 8 * (deconvSumsOf s rs1 rs2).length) := by
    rw [length_deconvSumsOf, ← outRange_deconvT, outRange, hi]; rfl
  rcases deconvolve_cases rd rs1 rs2 s with ⟨e, _, h⟩ | ⟨_, _, h⟩ | ⟨_, _, h⟩
  · rw [h]; exact .raised e
  · have := Effect.degenerate (i := i) (s := s) (peakError rd)
    rwa [hout, ← h] at this
  · rw [h]
    exact .storedSamples (sampleDst rd .full) rs1 _ (by rw [hi]; rfl) (by rw [hout, length_normalize]; rfl)

theorem exec_effect {i : Instr} {s t : State} (h : exec i s = .next t) : Effect i s t := by
  cases i with
  | halt => rw [exec_halt_cases h]; exact .halted rfl
  | nop => rw [exec_nop_cases h]; exact .counted
  | dec rd rs1 =>
    rcases exec_dec_cases h with ⟨e, _, rfl⟩ | ⟨_, rfl⟩
    · exact .raised e
    · exact .storedSamples (sampleDst rd .same) rs1 _ rfl (by rw [outRange_dec, length_decodedSamples]; rfl)
  | enc rd rs1 =>
    rcases exec_enc_cases h with ⟨e, _, rfl⟩ | ⟨_, _, rfl⟩
    · exact .raised e
    · exact .stored ⟨rd, .pcm, .same, 2⟩ (frameBytes (readSamples s rs1)) _ _ _ _ s.draws rfl
        (by rw [outRange_enc, length_frameBytes, length_readSamples])
  | conv rd rs1 rs2 =>
    rcases exec_conv_cases h with ⟨e, _, rfl⟩ | ⟨_, _, rfl⟩
    · exact .raised e
    · exact .storedSamples (sampleDst rd .same) rs1 _ rfl
        (by rw [outRange_conv, length_convOut, length_readSamples]; rfl)
  | fir rd rs1 rs2 =>
    rcases exec_fir_cases h with ⟨e, _, rfl⟩ | ⟨_, rfl⟩
    · exact .raised e
    · exact .stored (sampleDst rd .same)
        (sampleBytes (replaceNans s.draws (firOut (readSamples s rs1) (readSamples s rs2)))) _ _ _ _ _ rfl
        (by rw [outRange_fir, length_sampleBytes, length_replaceNans, length_firOut, length_readSamples]; rfl)
  | deconvT rd rs1 rs2 => cases h; exact deconvolve_effect rd rs1 rs2 s rfl
  | deconvF rd rs1 rs2 => cases h; exact deconvolve_effect rd rs1 rs2 s rfl
  | xcorr rs1 rs2 =>
    rcases exec_xcorr_cases h with ⟨e, _, rfl⟩ | ⟨_, _, rfl⟩
    · exact .raised e
    · exact .lagged rs1 rs2 _ rfl

/-! What each outcome leaves unchanged. -/

section
variable {i : Instr} {s t : State}

theorem Effect.memSameOutside (h : Effect i s t) : MemSameOutside s t (outRange s i).1 (outRange s i).2 := by
  intro x hx
  cases h with
  | raised | halted | counted | lagged => exact readByte_congr rfl x
  | degenerate =>
    exact readByte_outside (bs := drawnBytes s.draws (outRange s i).2) rfl (by rwa [length_drawnBytes])
  | stored d bs _ _ _ _ _ _ hout =>
    rw [hout] at hx
    exact readByte_outside (bs := bs) rfl hx

/-- Every descriptor keeps its BASE and CAP, and all but the destination keep the rest (40_command_execution R150). -/
theorem Effect.desc (h : Effect i s t) (n : DescNo) :
    ((t.desc n).base = (s.desc n).base ∧ (t.desc n).cap = (s.desc n).cap) ∧
    ((∀ d, (sigOf i).dst = some d → d.desc ≠ n) → t.desc n = s.desc n) := by
  cases h with
  | raised | degenerate | halted | counted | lagged => exact ⟨⟨rfl, rfl⟩, fun _ => rfl⟩
  | stored d bs len rate k p draws hd =>
    have hdesc : State.desc { finishInto s d.desc bs len rate k p with draws := draws } n = _ :=
      desc_finishInto s d.desc n bs len rate k p
    rw [hdesc]
    split
    case isTrue hn => subst hn; exact ⟨⟨rfl, rfl⟩, fun hne => absurd rfl (hne d hd)⟩
    case isFalse => exact ⟨⟨rfl, rfl⟩, fun _ => rfl⟩

theorem Effect.lag (h : Effect i s t) (hi : ∀ x y, i ≠ .xcorr x y) : t.lag = s.lag := by
  cases h with
  | raised | degenerate | halted | counted | stored => rfl
  | lagged rs1 rs2 _ h => exact absurd h (hi rs1 rs2)

theorem Effect.done (h : Effect i s t) (hi : i ≠ .halt) : t.done = s.done := by
  cases h with
  | raised | degenerate | counted | stored | lagged => rfl
  | halted h => exact absurd h hi

/-- No command touches IRQ_EN, MEM_BYTES or the model's own fields but the counter of draws. -/
theorem Effect.fixed (h : Effect i s t) :
    t.doneIe = s.doneIe ∧ t.errIe = s.errIe ∧ t.cfg = s.cfg ∧ t.inbox = s.inbox ∧ t.hostData = s.hostData ∧
    t.raced = s.raced ∧ t.hostWrote = s.hostWrote ∧ t.wordDraws = s.wordDraws := by
  cases h <;> exact ⟨rfl, rfl, rfl, rfl, rfl, rfl, rfl, rfl⟩

end

/-- Settles O12: each outcome of a command keeps what the statement lists. -/
theorem commandsKeepEverythingElse : Obligations.CommandsKeepEverythingElse := by
  intro i s t h
  have he := exec_effect h
  exact ⟨he.memSameOutside, fun n => (he.desc n).2, fun n => (he.desc n).1, he.lag, he.done, he.fixed⟩

end Sys2Proof.Machine

/-! The host's register port and the resets (10_state, 70_reset_and_hazards): the step at a turn of the host or of the
reset input, then what each register reads and what a write of it does. -/

namespace Sys2Proof.Machine

section
variable {s : State} {rest : List Turn} {off : BitVec 12} {w : AccessWidth} {v : Word}

/-! The step at a turn of the host or of the reset input. -/

theorem step_host {op : HostOp} (h : s.inbox = .host op :: rest) :
    step s = .next (hostAccess op { s with inbox := rest }) := step_cons h

theorem step_reset (h : s.inbox = .reset :: rest) : step s = .next (resetMachine { s with inbox := rest }) :=
  step_cons h

theorem regAccessOk_iff : regAccessOk off w = true ↔ w = .w4 ∧ off.toNat % 4 = 0 := by simp [regAccessOk]

theorem step_regWrite (h : s.inbox = .host (.regWrite off .w4 v) :: rest) (ha : off.toNat % 4 = 0) :
    step s = .next (regWrite off.toNat v { s with inbox := rest }) := by
  rw [step_host h, hostAccess, hostRegWrite, if_pos (regAccessOk_iff.mpr ⟨rfl, ha⟩)]

/-- A register write that is not performed, or that its register ignores, only takes its turn. -/
theorem step_regWrite_ignored (h : s.inbox = .host (.regWrite off w v) :: rest)
    (hi : regAccessOk off w = true → regWrite off.toNat v { s with inbox := rest } = { s with inbox := rest }) :
    step s = .next { s with inbox := rest } := by
  rw [step_host h, hostAccess, hostRegWrite]
  split
  · rw [hi ‹_›]
  · rfl

/-! Reads. -/

theorem hostRegRead_data (h : regAccessOk off w = true) :
    (hostRegRead off w s).hostData = (regView s off.toNat).setWidth 64 := by rw [hostRegRead, if_pos h]

theorem hostRegRead_refused (h : ¬ regAccessOk off w = true) : (hostRegRead off w s).hostData = 0#64 := by
  rw [hostRegRead, if_neg h]

theorem hostRegRead_toNat (h : off.toNat % 4 = 0) :
    (hostRegRead off .w4 s).hostData.toNat = (regView s off.toNat).toNat := by
  rw [hostRegRead_data (regAccessOk_iff.mpr ⟨rfl, h⟩), BitVec.toNat_setWidth_of_le (by decide)]

/-- A register that no command writes as its result reads its value before the running command (70_reset R305; log 9). -/
theorem regView_of_not_result {k : Nat} (h : resultRegister k = false) : regView s k = regValue s k := by
  rw [regView, if_neg (by simp [h])]

theorem regView_idle {k : Nat} (h : s.busy = false) : regView s k = regValue s k := by
  rw [regView, if_neg (by simp [h])]

/-- During a run every register reads its value before or after the running command (70_reset R305; log 9). -/
theorem regView_cases (s : State) (k : Nat) :
    regView s k = regValue s k ∨ (s.busy = true ∧ regView s k = regValue (afterRunning s) k) := by
  unfold regView
  split
  case isTrue h => exact .inr ⟨h.1, rfl⟩
  case isFalse => exact .inl rfl

/-- The state after the running command is what the engine's turn gives. -/
theorem afterRunning_eq {u : State} (hb : s.busy = true) (h : engineTurn s = .next u) : afterRunning s = u := by
  rw [engineTurn_busy hb] at h
  rw [afterRunning, h]

theorem flagBit_toNat (b : Bool) : (flagBit b).toNat = b.toNat := by cases b <;> rfl

theorem statusWord_toNat (s : State) :
    (statusWord s).toNat = s.busy.toNat + 2 * s.done.toNat + 4 * s.err.toNat + 8 * s.irq.toNat := by
  simp only [statusWord, toNat_append_add, flagBit_toNat, BitVec.toNat_ofNat]
  omega

theorem irqEnWord_toNat (s : State) : (irqEnWord s).toNat = 2 * s.doneIe.toNat + 4 * s.errIe.toNat := by
  simp only [irqEnWord, toNat_append_add, flagBit_toNat, BitVec.toNat_ofNat]
  omega

/-- What a host read gives of a register that no command writes as its result. -/
theorem regRead_value {k : Nat} (hoff : off.toNat = k) (ha : k % 4 = 0) (hr : resultRegister k = false) :
    (hostRegRead off .w4 s).hostData.toNat = (regValue s k).toNat := by
  subst hoff
  rw [hostRegRead_toNat ha, regView_of_not_result hr]

/-- A host read gives this value as it stands while idle, and before or after the engine's turn during a run (70_reset
R305). -/
abbrev ReadShows (s : State) (rest : List Turn) (off : BitVec 12) (value : State → Word) : Prop :=
  (s.busy = false → (hostRegRead off .w4 { s with inbox := rest }).hostData.toNat = (value s).toNat) ∧
  ∀ u, step { s with inbox := .engine :: rest } = .next u →
    (hostRegRead off .w4 { s with inbox := rest }).hostData.toNat = (value s).toNat ∨
    (hostRegRead off .w4 { s with inbox := rest }).hostData.toNat = (value u).toNat

/-- Every register shows its value, if the value does not depend on the schedule. -/
theorem regRead_shows (value : State → Word) {k : Nat} (hoff : off.toNat = k) (ha : k % 4 = 0)
    (hv : ∀ x, regValue x k = value x) (hs : value { s with inbox := rest } = value s) :
    ReadShows s rest off value := by
  subst hoff
  rw [ReadShows, hostRegRead_toNat ha, ← hs]
  refine ⟨fun hb => by rw [regView_idle (s := { s with inbox := rest }) hb, hv], fun u hu => ?_⟩
  rcases regView_cases { s with inbox := rest } off.toNat with h | ⟨hb, h⟩
  · exact .inl (by rw [h, hv])
  · exact .inr (by rw [h, hv, afterRunning_eq hb hu])

/-- A field of a descriptor shows its value (10_state R33). -/
theorem regRead_showsField (value : Desc → Word) (n : DescNo) (k : Nat) (hk : k < 0x20) (ha : k % 4 = 0)
    (hoff : off.toNat = 0x100 + 0x20 * n.val + k) (hv : ∀ d, descFieldRead d k = value d) :
    ReadShows s rest off fun x => value (x.desc n) :=
  regRead_shows _ hoff (by omega) (fun x => (regValue_desc x n k hk).trans (hv _)) rfl

end

/-- Settles O39: each register by its value at its offset, LAG and the descriptors before or after the running command. -/
theorem hostReadsTheRegisters : Obligations.HostReadsTheRegisters := by
  intro s rest off h
  have hconst : ∀ {k : Nat} {c : BitVec 64}, off.toNat = k → k % 4 = 0 → resultRegister k = false →
      (∀ x, (regValue x k).toNat = c.toNat) → (hostRegRead off .w4 { s with inbox := rest }).hostData = c :=
    fun hoff ha hr hc => BitVec.eq_of_toNat_eq ((regRead_value hoff ha hr).trans (hc _))
  refine ⟨_, step_host h, rfl, fun hb => if_neg (by simp [hb]), ?id, ?version, ?memsize, ?ctrl, ?status, ?irqEn, ?cmdPtr,
    ?errCode, ?errIndex, ?cmdsDone, ?lag, fun n => ⟨?base, ?len, ?cap, ?rate, ?fmt⟩⟩
  case id => exact fun ho => hconst ho rfl rfl fun _ => rfl
  case version => exact fun ho => hconst ho rfl rfl fun _ => rfl
  case ctrl => exact fun ho => hconst ho rfl rfl fun _ => rfl
  case memsize =>
    intro ho ⟨_, _, hmax⟩
    have hfits : s.cfg.memBytes < 2 ^ 32 := by omega
    exact (regRead_value ho rfl rfl).trans ((BitVec.toNat_ofNat _ _).trans (Nat.mod_eq_of_lt hfits))
  case status => exact fun ho => (regRead_value ho rfl rfl).trans (statusWord_toNat _)
  case irqEn => exact fun ho => (regRead_value ho rfl rfl).trans (irqEnWord_toNat _)
  case cmdPtr => exact fun ho => regRead_value ho rfl rfl
  case errCode => exact fun ho => regRead_value ho rfl rfl
  case errIndex => exact fun ho => regRead_value ho rfl rfl
  case cmdsDone => exact fun ho => regRead_value ho rfl rfl
  case lag => exact fun ho => regRead_shows (fun x => x.lag) ho rfl (fun _ => rfl) rfl
  case base => exact fun ho => regRead_showsField (·.base) n 0x00 (by decide) rfl ho fun _ => rfl
  case len => exact fun ho => regRead_showsField (·.len) n 0x04 (by decide) rfl (by omega) fun _ => rfl
  case cap => exact fun ho => regRead_showsField (·.cap) n 0x08 (by decide) rfl (by omega) fun _ => rfl
  case rate => exact fun ho => regRead_showsField (·.rate) n 0x0C (by decide) rfl (by omega) fun _ => rfl
  case fmt => exact fun ho => regRead_showsField (·.fmt.setWidth 32) n 0x10 (by decide) rfl (by omega) fun _ => rfl

/-! Reserved offsets and refused accesses (10_state R53). -/

/-- An access that is performed there lies at a reserved offset. -/
theorem reserved_of_accessOk {off : BitVec 12} {w : AccessWidth} (hok : regAccessOk off w = true)
    (h : w ≠ .w4 ∨ off.toNat % 4 ≠ 0 ∨ ReservedOffset off.toNat) : ReservedOffset off.toNat := by
  obtain ⟨hw, ha⟩ := regAccessOk_iff.mp hok
  exact (h.resolve_left (not_not_intro hw)).resolve_left (not_not_intro ha)

theorem hostRegRead_reserved {off : BitVec 12} {w : AccessWidth} (s : State)
    (h : w ≠ .w4 ∨ off.toNat % 4 ≠ 0 ∨ ReservedOffset off.toNat) : (hostRegRead off w s).hostData = 0#64 := by
  by_cases hok : regAccessOk off w = true
  · rw [hostRegRead_data hok, regView_zero s _ fun s => regValue_reserved s _ (reserved_of_accessOk hok h)]; rfl
  · exact hostRegRead_refused hok

/-- Settles O40: an access is refused, or its offset is reserved. -/
theorem reservedRegisterAccessesDoNothing : Obligations.ReservedRegisterAccessesDoNothing := by
  intro s rest off w v h
  refine ⟨fun hr => ⟨_, step_host hr, ?read⟩, fun hw => step_regWrite_ignored hw fun hok => ?write⟩
  case read =>
    rw [← hostRegRead_reserved { s with inbox := rest } h]; rfl
  case write => exact regWrite_reserved _ _ _ (reserved_of_accessOk hok h)

/-! Writes of the registers (10_state R39 to R54). -/

/-- A write of a field of a descriptor while the engine is idle. -/
theorem step_descWrite {s : State} {rest : List Turn} {n : DescNo} {v : Word} (hb : s.busy = false) (off k : Nat)
    (h : s.inbox = .host (.regWrite (BitVec.ofNat 12 off) .w4 v) :: rest) (hoff : off = 0x100 + 0x20 * n.val + k)
    (hk : k < 0x20) (ha : k % 4 = 0) :
    step s = .next (setDesc { s with inbox := rest } n (descFieldWrite (s.desc n) v k)) := by
  have hn : (BitVec.ofNat 12 off).toNat = 0x100 + 0x20 * n.val + k := by
    have := n.isLt
    rw [BitVec.toNat_ofNat]; omega
  rw [step_regWrite h (by omega), hn, regWrite_desc { s with inbox := rest } n k v hk hb]; rfl

/-- Settles O41: each field by its offset in the descriptor. -/
theorem idleHostWritesDescriptors : Obligations.IdleHostWritesDescriptors := by
  intro s rest n v hb
  refine ⟨?base, ?len, ?cap, ?rate, ?fmt, ?cmdPtr⟩
  case base => exact fun h => step_descWrite hb _ 0x00 h rfl (by decide) rfl
  case len => exact fun h => step_descWrite hb _ 0x04 h (by omega) (by decide) rfl
  case cap => exact fun h => step_descWrite hb _ 0x08 h (by omega) (by decide) rfl
  case rate => exact fun h => step_descWrite hb _ 0x0C h (by omega) (by decide) rfl
  case fmt =>
    intro h
    rw [← BitVec.setWidth_eq_extractLsb' (by decide)]
    exact step_descWrite hb _ 0x10 h (by omega) (by decide) rfl
  case cmdPtr =>
    intro h
    rw [step_regWrite h rfl]
    exact congrArg _ (if_neg (by simp [hb]))

/-- While the engine runs, CMD_PTR and the descriptor window ignore writes (10_state R39, R40). -/
theorem regWrite_busy {s : State} {off : Nat} (v : Word) (hb : s.busy = true) (h : off = 0x018 ∨ 0x100 ≤ off) :
    regWrite off v s = s := by
  unfold regWrite
  split
  iterate 3 omega
  · exact if_pos hb
  · exact if_neg (by simp [hb])

/-- ID, VERSION, MEMSIZE, ERR_CODE, ERR_INDEX, LAG and CMDS_DONE ignore writes (10_state R43 to R45, R49 to R52). -/
theorem regWrite_readOnly {off : Nat} (s : State) (v : Word)
    (h : off ∈ [0x000, 0x004, 0x008, 0x01C, 0x020, 0x024, 0x028]) : regWrite off v s = s := by
  simp only [List.mem_cons, List.not_mem_nil, or_false] at h
  obtain rfl | rfl | rfl | rfl | rfl | rfl | rfl := h <;> rfl

/-- Settles O42: a write to a register that ignores it only takes its turn. -/
theorem busyHostWritesAreIgnored : Obligations.BusyHostWritesAreIgnored := by
  intro s rest off v h hoff
  refine step_regWrite_ignored h fun _ => ?_
  rcases hoff with ⟨hb, hoff⟩ | hoff
  · exact regWrite_busy v hb hoff
  · exact regWrite_readOnly _ v hoff

section
variable {s : State} {rest : List Turn} {v : Word}

theorem step_ctrlWrite (h : s.inbox = .host (.regWrite 0x00C#12 .w4 v) :: rest) :
    step s = .next (hostWriteCtrl v { s with inbox := rest }) := step_regWrite h rfl

theorem hostWriteCtrl_srst (h : v.getLsbD 1 = true) : hostWriteCtrl v s = resetMachine s := by
  rw [hostWriteCtrl, if_pos h]

theorem hostWriteCtrl_start (h1 : v.getLsbD 1 = false) (h0 : v.getLsbD 0 = true) (hb : s.busy = false) :
    hostWriteCtrl v s = startRun s := by
  rw [hostWriteCtrl, h1, h0, hb]; rfl

theorem hostWriteCtrl_ignored (h1 : v.getLsbD 1 = false) (h : v.getLsbD 0 = false ∨ s.busy = true) :
    hostWriteCtrl v s = s := by
  have hs : (v.getLsbD 0 && !s.busy) = false :=
    Bool.and_eq_false_iff.mpr (h.imp_right fun hb => by rw [hb]; rfl)
  rw [hostWriteCtrl, h1, hs]; rfl

end

/-- Settles O43: a write of CTRL is a reset, START or nothing. -/
theorem controlWritesStartAndReset : Obligations.ControlWritesStartAndReset := by
  intro s rest v
  refine ⟨fun hr => ⟨_, step_host hr, ?read⟩, fun h => ?write⟩
  case read => exact BitVec.eq_of_toNat_eq (regRead_value (k := 0x00C) rfl rfl rfl)
  case write =>
    rw [step_ctrlWrite h]
    refine ⟨fun h1 => ?srst, fun h1 h0 hb => ?start, fun h1 _ hb => ?running, fun h1 h0 => ?neither⟩
    case srst => rw [hostWriteCtrl_srst h1, step_reset rfl]
    case start =>
      rw [hostWriteCtrl_start (s := { s with inbox := rest }) h1 h0 hb]
      exact ⟨_, rfl, rfl, rfl, rfl, rfl, rfl, rfl, rfl, rfl, rfl, rfl, rfl, rfl, rfl, rfl⟩
    case running => rw [hostWriteCtrl_ignored (s := { s with inbox := rest }) h1 (.inr hb)]
    case neither => rw [hostWriteCtrl_ignored h1 (.inl h0)]

/-- Settles O44: the two writes are `clearFlags` and `setIrqEn`. -/
theorem statusAndIrqEnWrites : Obligations.StatusAndIrqEnWrites := fun _ _ _ =>
  ⟨fun h => step_regWrite h rfl, fun h => step_regWrite h rfl⟩

/-! Reset (10_state R57, 70_reset R301 to R303). -/

theorem irq_eq_false {s : State} (hd : s.done = false) (he : s.err = false) : s.irq = false := by
  simp [State.irq, hd, he]

theorem desc_of_replicate {s : State} {d : Desc} (h : s.descs = Vector.replicate 16 d) (n : DescNo) : s.desc n = d := by
  simp [State.desc, h]

/-- Settles O49: the fields of the reset state, and the idle engine's turn. -/
theorem resetStateIsIdleAndZero : Obligations.ResetStateIsIdleAndZero :=
  ⟨rfl, rfl, rfl, rfl, rfl, rfl, rfl, rfl, rfl, rfl, irq_eq_false rfl rfl, desc_of_replicate rfl,
    (step_nil rfl).trans (engineTurn_idle rfl)⟩

/-- Settles O51: MEM lists nothing, and the engine is idle. -/
theorem resetMeetsTheInvariant : Obligations.ResetMeetsTheInvariant := by
  refine ⟨?cfg, ⟨List.Pairwise.nil, nofun⟩, ⟨nofun, fun _ => rfl⟩, ⟨?code, nofun, nofun⟩, nofun, ?lag⟩ <;> decide

/-! A reset during a run: it draws the destination region of the running command, and no other byte. -/

theorem abortRunning_idle {s : State} (h : s.busy = false) : abortRunning s = s := by
  rw [abortRunning, runningCmd_idle h]

theorem abortRunning_ready {s : State} {i : Instr} (h : ReadyToFetch s) (hi : decodeBytes (commandBytes s) = .ok i) :
    abortRunning s = drawRange s (destRegion s i).1 (destRegion s i).2 := by
  rw [abortRunning, runningCmd_ready h hi]

theorem destRegion_none {i : Instr} (s : State) (h : (sigOf i).dst = none) : destRegion s i = (0, 0) := by
  rw [destRegion, h]

theorem destRegion_some {i : Instr} {d : DstSpec} (s : State) (h : (sigOf i).dst = some d) :
    destRegion s i = (baseOf s d.desc, min (baseOf s d.desc + capOf s d.desc) s.cfg.memBytes - baseOf s d.desc) := by
  rw [destRegion, h]

/-- Aborting the running command keeps MEM_BYTES and the turns still to come. -/
theorem abortRunning_fixed (s : State) :
    (abortRunning s).cfg = s.cfg ∧ (abortRunning s).inbox = s.inbox := by
  unfold abortRunning
  split <;> exact ⟨rfl, rfl⟩

/-- Settles O50: `resetRegisters` clears, and `abortRunning` draws bytes of the destination region alone. -/
theorem resetClearsAndKeepsMemory : Obligations.ResetClearsAndKeepsMemory := by
  intro s rest h
  obtain ⟨hcfg, hinbox⟩ := abortRunning_fixed { s with inbox := rest }
  refine ⟨_, step_reset h, rfl, rfl, rfl, rfl, rfl, rfl, rfl, rfl, rfl, rfl, irq_eq_false rfl rfl, desc_of_replicate rfl,
    hcfg, hinbox, fun hb => ?idle, fun i hf hi => ⟨fun hd => ?noDestination, fun d hd x hx => ?outside⟩⟩
  case idle =>
    rw [resetMachine, abortRunning_idle (s := { s with inbox := rest }) hb]; rfl
  case noDestination =>
    rw [resetMachine, abortRunning_ready (s := { s with inbox := rest }) hf hi, destRegion_none _ hd]; rfl
  case outside =>
    rw [resetMachine, abortRunning_ready (s := { s with inbox := rest }) hf hi, destRegion_some _ hd]
    refine readByte_outside (resetRegisters_mem _) ?_
    rw [length_drawnBytes]
    show x < baseOf s d.desc ∨
      baseOf s d.desc + (min (baseOf s d.desc + capOf s d.desc) s.cfg.memBytes - baseOf s d.desc) ≤ x
    omega

end Sys2Proof.Machine

/-! The host's accesses to MEM (20_memory R81 to R90): the step at a turn of such an access, what an access made as a whole
reads and writes, the byte accesses of a misaligned one, and the step of a raced command. -/

namespace Sys2Proof.Machine

section
variable {s : State} {rest : List Turn} {a : Word} {w : AccessWidth} {v : BitVec 64} {i : Instr}

/-! The step at a MEM access of the host. -/

theorem step_memRead (h : s.inbox = .host (.memRead a w) :: rest) (hs : splits s a w = false) :
    step s = .next (hostMemRead a w { s with inbox := rest }) := by
  rw [step_host h, hostAccess, hostRead_whole (s := { s with inbox := rest }) hs]

theorem step_memWrite (h : s.inbox = .host (.memWrite a w v) :: rest) (hs : splits s a w = false) :
    step s = .next (hostMemWrite a w v { s with inbox := rest }) := by
  rw [step_host h, hostAccess, hostWrite_whole (s := { s with inbox := rest }) hs]

theorem step_memRead_split (h : s.inbox = .host (.memRead a w) :: rest) (hs : splits s a w = true) :
    step s = .next (issueParts (readParts s a w) { s with inbox := rest, hostData := 0#64 }) := by
  rw [step_host h, hostAccess, hostRead_split (s := { s with inbox := rest }) hs]; rfl

theorem step_memWrite_split (h : s.inbox = .host (.memWrite a w v) :: rest) (hs : splits s a w = true) :
    step s = .next (issueParts (writeParts s a w v) { s with inbox := rest }) := by
  rw [step_host h, hostAccess, hostWrite_split (s := { s with inbox := rest }) hs]; rfl

theorem step_memReadByte {pos : Fin 8} (h : s.inbox = .host (.memReadByte a pos) :: rest) :
    step s = .next (hostMemReadByte a pos { s with inbox := rest }) := step_host h

/-! Reads. -/

/-- A byte in no used range of the running command reads as MEM holds it, 0x00 past the end (20_memory R85, R90). -/
theorem hostReadByte_plain (k : Nat) {x : Nat} (h : s.busy = false ∨ inRanges (runningRanges s) x = false) :
    hostReadByte s k x = if x < s.cfg.memBytes then readByte s x else 0#8 := by
  have hfree : (s.busy && inRanges (runningRanges s) x) = false := Bool.and_eq_false_iff.mpr h
  rw [hostReadByte, hfree]
  by_cases hx : x < s.cfg.memBytes
  · rw [if_neg (by omega), if_pos hx]; rfl
  · rw [if_pos (by omega), if_neg hx]

/-- Outside the used ranges of an unraced running command a byte reads as it does while idle (20_memory R90). -/
theorem hostReadByte_outside (k : Nat) {x : Nat} (hr : ReadyToFetch s) (hi : decodeBytes (commandBytes s) = .ok i)
    (hx : inRanges (usedRanges s i) x = false) :
    hostReadByte { s with inbox := rest } k x = if x < s.cfg.memBytes then readByte s x else 0#8 :=
  hostReadByte_plain (s := { s with inbox := rest }) k (.inr (by rw [runningRanges_ready rest hr hi, hx]))

/-- In a used range of an unraced running command a byte is a draw (20_memory R90). -/
theorem hostReadByte_inUse (k : Nat) {x : Nat} (hr : ReadyToFetch s) (hi : decodeBytes (commandBytes s) = .ok i)
    (hm : x < s.cfg.memBytes) (hx : inRanges (usedRanges s i) x = true) :
    hostReadByte { s with inbox := rest } k x = Config.freeByte (s.draws + k) :=
  hostReadByte_used (s := { s with inbox := rest }) k hm hr.1 (by rw [runningRanges_ready rest hr hi, hx])

theorem hostReadByte_noCommand (k : Nat) {x : Nat} (hm : x < s.cfg.memBytes)
    (h : ∀ i, inRanges (usedRanges s i) x = false) : hostReadByte { s with inbox := rest } k x = readByte s x :=
  hostReadByte_unused (s := { s with inbox := rest }) k hm (inRanges_running_none rest h)

theorem hostMemRead_idle (h : s.busy = false) :
    hostMemRead a w s = { s with hostData := (hostMemRead a w s).hostData } := by
  have hd : (hostMemRead a w s).draws = s.draws := if_neg (by simp [h])
  rw [← hd]; rfl

theorem hostMemRead_busy (h : s.busy = true) :
    hostMemRead a w s = { s with hostData := (hostMemRead a w s).hostData, draws := s.draws + w.bytes } := by
  have hd : (hostMemRead a w s).draws = s.draws + w.bytes := if_pos h
  rw [← hd]; rfl

theorem hostMemReadByte_busy {pos : Fin 8} (h : s.busy = true) : hostMemReadByte a pos s =
    { s with hostData := (hostMemReadByte a pos s).hostData, draws := s.draws + 1 } := by
  have hd : (hostMemReadByte a pos s).draws = s.draws + 1 := if_pos h
  rw [← hd]; rfl

/-- A byte access of a read fills its own place and keeps the others (20_memory R83; log 13). -/
theorem hostMemReadByte_byte (s : State) (a : Word) (pos : Fin 8) {k : Nat} (hk : k < 8) :
    (hostMemReadByte a pos s).hostData.extractLsb' (8 * k) 8 =
      if k = pos.val then hostReadByte s 0 a.toNat else s.hostData.extractLsb' (8 * k) 8 :=
  putByte_byte _ _ _ hk

/-! Writes. -/

theorem mem_touched {x : Nat} :
    x ∈ touched s a w ↔ a.toNat ≤ x ∧ x < a.toNat + w.bytes ∧ x < s.cfg.memBytes := by
  simp only [touched, bytesInside, List.mem_map, List.mem_range, Nat.lt_min]
  refine ⟨?_, fun h => ⟨x - a.toNat, ?_⟩⟩
  · rintro ⟨k, hk, rfl⟩; omega
  · omega

theorem hostMemWrite_idle (h : s.busy = false) :
    hostMemWrite a w v s = { s with mem := (hostMemWrite a w v s).mem } := by
  have hw : hostMemWrite a w v s =
      memWrite s a.toNat ((leBytes w.bytes v.toNat).take (s.cfg.memBytes - a.toNat)) := if_neg (by simp [h])
  rw [hw]; rfl

/-- A write during a run stores, and is recorded with the race that it makes (20_memory R90; log 7). -/
theorem hostMemWrite_busy (h : s.busy = true) : hostMemWrite a w v s =
    { s with
      mem := (hostMemWrite a w v s).mem
      hostWrote := touched s a w ++ s.hostWrote
      raced := s.raced || (touched s a w).any (inRanges (runningRanges s)) } := by
  simp only [hostMemWrite, if_pos h]; rfl

theorem hostMemWrite_mem (s : State) (a : Word) (w : AccessWidth) (v : BitVec 64) : (hostMemWrite a w v s).mem =
    (memWrite s a.toNat ((leBytes w.bytes v.toNat).take (s.cfg.memBytes - a.toNat))).mem := by
  unfold hostMemWrite
  dsimp only
  split <;> rfl

/-- The bytes that a host write stores (20_memory R81, R85). -/
theorem readByte_hostMemWrite (s : State) (a : Word) (w : AccessWidth) (v : BitVec 64) (x : Nat) :
    readByte (hostMemWrite a w v s) x =
      if a.toNat ≤ x ∧ x < a.toNat + w.bytes ∧ x < s.cfg.memBytes then v.extractLsb' (8 * (x - a.toNat)) 8
      else readByte s x :=
  (readByte_congr (hostMemWrite_mem s a w v) x).trans (readByte_hostWrite s a w v x)

/-- A write races an unraced running command exactly when it touches a byte of its used ranges (20_memory R90). -/
theorem touched_any_running (hr : ReadyToFetch s) (hi : decodeBytes (commandBytes s) = .ok i) :
    (touched s a w).any (inRanges (runningRanges { s with inbox := rest })) = true ↔
      ∃ x, (a.toNat ≤ x ∧ x < a.toNat + w.bytes ∧ x < s.cfg.memBytes) ∧ inRanges (usedRanges s i) x = true := by
  simp only [runningRanges_ready rest hr hi, List.any_eq_true, mem_touched]

/-- A write outside the running command's used ranges and its word leaves it unraced. -/
theorem readyToFetch_hostMemWrite (hr : ReadyToFetch s) (hi : decodeBytes (commandBytes s) = .ok i)
    (hout : ∀ x, a.toNat ≤ x → x < a.toNat + w.bytes → inRanges (usedRanges s i) x = false)
    (hword : a.toNat + w.bytes ≤ s.cmdPtr.toNat ∨ s.cmdPtr.toNat + 4 ≤ a.toNat) :
    ReadyToFetch (hostMemWrite a w v { s with inbox := rest }) := by
  have hnone : (touched s a w).any (inRanges (runningRanges { s with inbox := rest })) = false := by
    refine Bool.eq_false_of_not_eq_true fun hany => ?_
    obtain ⟨x, ⟨h1, h2, _⟩, hx⟩ := (touched_any_running hr hi).mp hany
    rw [hout x h1 h2] at hx
    exact Bool.noConfusion hx
  obtain ⟨hb, halign, hrange, hraced, hwrote⟩ := hr
  rw [hostMemWrite_busy (s := { s with inbox := rest }) hb]
  refine ⟨hb, halign, hrange, Bool.or_eq_false_iff.mpr ⟨hraced, hnone⟩, fun x hx => ?wrote⟩
  case wrote =>
    rcases List.mem_append.mp hx with hx | hx
    · have := mem_touched.mp hx
      show x < s.cmdPtr.toNat ∨ s.cmdPtr.toNat + 4 ≤ x
      omega
    · exact hwrote x hx

end

/-- Settles O46: an idle write is one access, and MEM alone changes. -/
theorem idleHostWritesMemory : Obligations.IdleHostWritesMemory := fun s rest a w v hb h =>
  ⟨_, step_memWrite h (splits_idle hb a w), hostMemWrite_idle hb,
    fun x => readByte_hostMemWrite { s with inbox := rest } a w v x⟩

/-- Settles O47: an idle read is one access, and no byte of it is in use. -/
theorem idleHostReadsMemory : Obligations.IdleHostReadsMemory := by
  intro s rest a w hb h
  obtain ⟨hlt, hbytes⟩ := hostData_byte { s with inbox := rest } a w
  exact ⟨_, step_memRead h (splits_idle hb a w), hostMemRead_idle hb, hlt,
    fun k hk => (hbytes k hk).trans (hostReadByte_plain k (.inl hb))⟩

/-- Settles O48: outside the used ranges a read gives MEM, and a write touches nothing that races the command. -/
theorem hostAccessOutsideUsedRanges : Obligations.HostAccessOutsideUsedRanges := by
  intro s rest i a w v hr hi ha hout
  have ⟨_, _, _, hraced, _⟩ := hr
  refine ⟨fun h => ⟨_, step_memRead h (splits_aligned s ha), rfl, hraced, fun k hk => ?read⟩, fun h hword =>
    ⟨_, step_memWrite h (splits_aligned s ha), readyToFetch_hostMemWrite hr hi hout hword,
      fun x => readByte_hostMemWrite { s with inbox := rest } a w v x⟩⟩
  case read =>
    obtain ⟨_, hbytes⟩ := hostData_byte { s with inbox := rest } a w
    rw [hbytes k hk, hostReadByte_outside k hr hi (hout _ (by omega) (by omega))]

/-- Settles O56: a byte of the read is a draw in a used range, and MEM's where no command has one. -/
theorem hostReadsDuringARun : Obligations.HostReadsDuringARun := by
  intro s rest hb
  refine ⟨fun a w ha h => ⟨_, step_memRead h (splits_aligned s ha), hostMemRead_busy hb, fun k hk hm => ?whole⟩,
    fun a pos h hm => ⟨_, step_memReadByte h, hostMemReadByte_busy hb, ?byte⟩⟩
  case whole =>
    obtain ⟨_, hbytes⟩ := hostData_byte { s with inbox := rest } a w
    rw [hbytes k hk]
    exact ⟨fun i hr hi hx => hostReadByte_inUse k hr hi hm hx, hostReadByte_noCommand k hm⟩
  case byte =>
    rw [hostMemReadByte_byte _ a pos pos.isLt, if_pos rfl]
    exact ⟨fun i hr hi hx => hostReadByte_inUse 0 hr hi hm hx, hostReadByte_noCommand 0 hm⟩

/-- Settles O57: the byte in a used range is among those touched, so the record is a race. -/
theorem writesToUsedRangesRaceTheCommand : Obligations.WritesToUsedRangesRaceTheCommand := by
  intro s rest i a w v x hr hi ha h h1 h2 hm hx
  have hw := hostMemWrite_busy (s := { s with inbox := rest }) (a := a) (w := w) (v := v) hr.1
  have hany : (touched s a w).any (inRanges (runningRanges { s with inbox := rest })) = true :=
    (touched_any_running hr hi).mpr ⟨x, ⟨h1, h2, hm⟩, hx⟩
  have hraced : (hostMemWrite a w v { s with inbox := rest }).raced = true := by
    rw [hw]; exact Bool.or_eq_true_iff.mpr (.inr hany)
  refine ⟨_, step_memWrite h (splits_aligned s ha), hraced, ?frame,
    fun y => readByte_hostMemWrite { s with inbox := rest } a w v y⟩
  case frame => rw [← hraced, hw]

/-! Misaligned accesses during a run (20_memory R83; log 13). -/

section
variable {s : State} {a : Word} {w : AccessWidth} {v : BitVec 64} {i : Nat}

/-- Byte access `i` of a read, with its address and its place. -/
theorem readParts_part (hv : s.cfg.Valid) (hi : i < bytesInside s a w) : ∃ (b : Word) (pos : Fin 8),
    (readParts s a w)[i]? = some (.memReadByte b pos) ∧ b.toNat = a.toNat + i ∧ pos.val = i := by
  have hw : i < w.bytes := hi.trans_le (bytesInside_le s a w)
  refine ⟨a + BitVec.ofNat 32 i, Fin.ofNat 8 i, by simp [readParts, hi],
    part_address hv ((lt_bytesInside s a w hw).mp hi), Nat.mod_eq_of_lt (hw.trans_le (accessBytes_le w))⟩

/-- Byte access `i` of a write, with its address and its byte. -/
theorem writeParts_part (hv : s.cfg.Valid) (hi : i < bytesInside s a w) : ∃ (b : Word) (c : BitVec 64),
    (writeParts s a w v)[i]? = some (.memWrite b .w1 c) ∧ b.toNat = a.toNat + i ∧
      c.extractLsb' 0 8 = v.extractLsb' (8 * i) 8 := by
  have hw : i < w.bytes := hi.trans_le (bytesInside_le s a w)
  refine ⟨a + BitVec.ofNat 32 i, (v.extractLsb' (8 * i) 8).setWidth 64, by simp [writeParts, hi],
    part_address hv ((lt_bytesInside s a w hw).mp hi), ?_⟩
  rw [← BitVec.setWidth_eq_extractLsb' (by decide), BitVec.setWidth_setWidth_of_le _ (by decide), BitVec.setWidth_eq]

end

/-- Settles O54: the turns put ahead are a permutation of the byte accesses and turns of the engine. -/
theorem misalignedAccessesAreByteSequences : Obligations.MisalignedAccessesAreByteSequences := by
  intro s rest a w v hv hb
  refine ⟨fun ha => ⟨bytesInside s a w, bytesInside_le s a w, fun i hi => lt_bytesInside s a w hi, fun h => ?read,
    fun h => ?write⟩, fun pos i h hr hi hx => ⟨_, step_memReadByte h, rfl, fun k hk => ?byte⟩⟩
  case read =>
    obtain ⟨k, hp⟩ := spread_perm (readParts s a w) s.draws
    exact ⟨_, _, k, _, step_memRead_split h (splits_misaligned hb ha), rfl, hp, length_readParts s a w,
      fun i hi => readParts_part hv hi⟩
  case write =>
    obtain ⟨k, hp⟩ := spread_perm (writeParts s a w v) s.draws
    exact ⟨_, _, k, _, step_memWrite_split h (splits_misaligned hb ha), rfl, hp, length_writeParts s a w v,
      fun i hi => writeParts_part hv hi⟩
  case byte =>
    rw [hostMemReadByte_byte _ a pos hk, hostReadByte_outside 0 hr hi hx]

/-! A command whose word the host has written (20_memory R90; log 7). -/

theorem raiseError_failedWith (s : State) (e : CmdError) :
    FailedWith s (raiseError e s) e.name.code.toNat e.role.code.toNat e.desc.val e.index :=
  ⟨⟨rfl, rfl, errorWord_toNat e, rfl, rfl, rfl, rfl, rfl, rfl, rfl, rfl, rfl, rfl, rfl, rfl, rfl, rfl⟩, rfl, rfl⟩

theorem readByte_drawRange (s : State) (a : Nat) {n k : Nat} (hk : k < n) :
    readByte (drawRange s a n) (a + k) = Config.freeByte (s.draws + k) := by
  rw [readByte_setBytes (drawRange_mem s a n), length_drawnBytes, if_pos (by omega), Nat.add_sub_cancel_left]
  simp [drawnBytes, hk]

theorem memSameOutside_drawRange (s : State) (a n : Nat) : MemSameOutside s (drawRange s a n) a n :=
  fun _ hx => readByte_outside (drawRange_mem s a n) (by rwa [length_drawnBytes])

theorem wordRaced_eq_true (s : State) : wordRaced s = true ↔
    s.raced = true ∨ ∃ a ∈ s.hostWrote, s.cmdPtr.toNat ≤ a ∧ a < s.cmdPtr.toNat + 4 := by
  simp [wordRaced]

/-- The state in which a raced command starts: its race is over, and the next one will have a word of its own. -/
abbrev racedStart (s : State) : State := { s with raced := false, wordDraws := s.wordDraws + 1 }

/-- The step of a raced command runs the word drawn. -/
theorem engineStep_raced {s u : State} (hf : fetchError s = none) (hw : wordRaced s = true)
    (hu : runDecoded (decode (Config.freeWord s.wordDraws)) (racedStart s) = .next u) :
    engineStep s = .next (scrambleOut (decode (Config.freeWord s.wordDraws)) (racedStart s) u) := by
  have hc : runningDecoded s = decode (Config.freeWord s.wordDraws) := if_pos hw
  rw [engineStep, hf]
  simp only [hw, if_true, racedStep, hc, hu]

theorem runDecoded_hostWrote {c : Except DecodeError Instr} {s t : State} (h : runDecoded c s = .next t) :
    t.hostWrote = s.hostWrote := by
  cases c with
  | error e => cases h; rfl
  | ok i =>
    obtain ⟨_, _, _, _, _, _, hwrote, _⟩ := (exec_effect h).fixed
    exact hwrote

theorem scrambleOut_hostWrote (c : Except DecodeError Instr) (s t : State) :
    (scrambleOut c s t).hostWrote = t.hostWrote := by
  unfold scrambleOut
  split
  · split <;> rfl
  · rfl

/-- No turn of the engine forgets what the host has written. -/
theorem engineTurn_hostWrote {s t : State} (h : engineTurn s = .next t) : t.hostWrote = s.hostWrote := by
  cases hb : s.busy with
  | false => rw [engineTurn_idle hb] at h; cases h; rfl
  | true =>
    rw [engineTurn_busy hb] at h
    rcases engineStep_cases h with ⟨e, _, rfl⟩ | ⟨_, _, hr⟩ | ⟨_, _, u, hu, rfl⟩
    · rfl
    · exact runDecoded_hostWrote hr
    · rw [scrambleOut_hostWrote, runDecoded_hostWrote hu]

/-- Settles O55: a write is recorded, the engine keeps the record, and `racedStep` runs the word drawn. -/
theorem writesToCommandWordsRaceThem : Obligations.WritesToCommandWordsRaceThem := by
  refine ⟨fun s rest a w v hb ha h => ⟨_, step_memWrite h (splits_aligned s ha), ?written⟩,
    fun s t hn h => engineTurn_hostWrote (step_nil hn ▸ h), fun s hn hb halign hrange hraced => ?raced⟩
  case written =>
    rw [hostMemWrite_busy (s := { s with inbox := rest }) hb]
    exact ⟨rfl, fun x hx => List.mem_append_right _ hx,
      fun x h1 h2 hm => List.mem_append_left _ (mem_touched.mpr ⟨h1, h2, hm⟩)⟩
  case raced =>
    intro w s1
    obtain ⟨u, hu⟩ := runDecoded_next (decode w) s1
    refine ⟨scrambleOut (decode w) s1 u, ?step, fun hd => ?illegal, fun hd => ?reserved, fun i hi => ?command⟩
    case step =>
      rw [step_nil hn, engineTurn_busy hb]
      exact engineStep_raced ((fetchError_eq_none s).mpr ⟨halign, hrange⟩) ((wordRaced_eq_true s).mpr hraced) hu
    case illegal => rw [hd] at hu ⊢; cases hu; exact raiseError_failedWith s1 _
    case reserved => rw [hd] at hu ⊢; cases hu; exact raiseError_failedWith s1 _
    case command =>
      rw [hi] at hu ⊢
      refine ⟨u, hu, fun hsame => if_pos hsame, fun hmoved => ?_⟩
      have hdrawn : scrambleOut (.ok i) s1 u = drawRange u (outRange s i).1 (outRange s i).2 := if_neg hmoved
      rw [hdrawn]
      exact ⟨rfl, memSameOutside_drawRange u _ _, fun k hk => readByte_drawRange u _ hk⟩

end Sys2Proof.Machine

/-! The decoder and the encoder (30_encoding, 40_command_execution R142): decoding as a function of the fields of a word, and
from that the round trip, the match table and the two errors of a word that is no command. -/

namespace Sys2Proof

/-! Fields and descriptor numbers. -/

@[simp] theorem descField_pack_rd (f : Fields) : descField f.pack 8 = f.rd.toFin := Fin.ext (descField_rd f)
@[simp] theorem descField_pack_rs1 (f : Fields) : descField f.pack 12 = f.rs1.toFin := Fin.ext (descField_rs1 f)
@[simp] theorem descField_pack_rs2 (f : Fields) : descField f.pack 16 = f.rs2.toFin := Fin.ext (descField_rs2 f)

@[simp] theorem descBits_toFin (x : BitVec 4) : descBits x.toFin = x := BitVec.eq_of_toNat_eq (descBits_toNat _)

@[simp] theorem toFin_descBits (n : DescNo) : (descBits n).toFin = n := Fin.ext (descBits_toNat n)

theorem eq_descBits_iff (x : BitVec 4) (n : DescNo) : x = descBits n ↔ n.val = x.toNat := by
  rw [← BitVec.toNat_inj, descBits_toNat, eq_comm]

theorem opcodeOk_iff (f : Fields) : f.opcodeOk = true ↔
    f.opc = 0x00#8 ∨ f.opc = 0x01#8 ∨ f.opc = 0x10#8 ∨ f.opc = 0x11#8 ∨
    f.opc = 0x20#8 ∨ f.opc = 0x21#8 ∨ f.opc = 0x22#8 ∨ f.opc = 0x30#8 := by
  simp [Fields.opcodeOk, legalOpcodes]

theorem opcodeOk_iff_mem (f : Fields) :
    f.opcodeOk = true ↔ f.opc.toNat ∈ [0x00, 0x01, 0x10, 0x11, 0x20, 0x21, 0x22, 0x30] := by
  simp [opcodeOk_iff, ← BitVec.toNat_inj]

theorem fieldsOfWord_opcodeOk (w : Word) : (fieldsOfWord w).opcodeOk = true ↔
    (w.extractLsb' 0 8).toNat ∈ [0x00, 0x01, 0x10, 0x11, 0x20, 0x21, 0x22, 0x30] := opcodeOk_iff_mem _

/-- The checks as propositions: the opcode is in the map, and each field that must be 0 is (30_encoding R115, R116). -/
theorem wellFormed_iff (f : Fields) : f.wellFormed = true ↔ f.opcodeOk = true ∧
    (f.opc ∈ [0x00, 0x01, 0x30] → f.rd = 0) ∧ (f.opc ∈ [0x00, 0x01] → f.rs1 = 0) ∧
    (f.opc ∈ [0x00, 0x01, 0x10, 0x11] → f.rs2 = 0) ∧ (f.flg = 0 ∨ f.opc = 0x22 ∧ f.flg = 1) ∧ f.rsv = 0 := by
  simp only [Fields.wellFormed, Fields.rdOk, Fields.rs1Ok, Fields.rs2Ok, Fields.flgOk, Fields.rsvOk, Bool.and_eq_true,
    Bool.or_eq_true, Bool.not_eq_true', List.contains_eq_mem, decide_eq_false_iff_not, beq_iff_eq, and_assoc,
    imp_iff_not_or]

/-! The rows of the opcode map. -/

/-- The command that the fields name (30_encoding R114), where they are well formed (`decode_legal`). -/
def Fields.command (f : Fields) : Instr :=
  match f.opc.toNat with
  | 0x00 => .halt
  | 0x01 => .nop
  | 0x10 => .dec f.rd.toFin f.rs1.toFin
  | 0x11 => .enc f.rd.toFin f.rs1.toFin
  | 0x20 => .conv f.rd.toFin f.rs1.toFin f.rs2.toFin
  | 0x21 => .fir f.rd.toFin f.rs1.toFin f.rs2.toFin
  | 0x22 => if f.flg.getLsbD 0 then .deconvF f.rd.toFin f.rs1.toFin f.rs2.toFin
    else .deconvT f.rd.toFin f.rs1.toFin f.rs2.toFin
  | _ => .xcorr f.rs1.toFin f.rs2.toFin

/-! A mask with every bit of a field set, spelled as a literal. -/

@[simp] theorem and_full4 (x : BitVec 4) : x &&& 15#4 = x := BitVec.and_allOnes

@[simp] theorem and_full8 (x : BitVec 8) : x &&& 255#8 = x := BitVec.and_allOnes

/-- FLG[23:21] is 0 when FLG is 0 or the MODE bit alone (30_encoding R113). -/
theorem flg_and_eq_zero : ∀ x : BitVec 4, x &&& 14#4 = 0#4 ↔ x = 0#4 ∨ x = 1#4 := by decide

theorem matchRow_pack {f : Fields} {m v : Word}
    (h : f.mask (fieldsOfWord m) = fieldsOfWord v ↔ f.wellFormed = true) (i : Instr) :
    matchRow f.pack m v i = if f.wellFormed then .ok i else .error .reservedField := by
  have hrow := and_eq_iff f.pack m v
  rw [fieldsOfWord_pack, h] at hrow
  exact if_congr hrow rfl rfl

theorem decode_illegal {f : Fields} (h : f.opcodeOk = false) : decode f.pack = .error .illegalOpcode := by
  rw [← Bool.not_eq_true, opcodeOk_iff_mem] at h
  simp only [decode, opc_pack]
  split <;> simp_all

theorem decode_legal {f : Fields} (h : f.opcodeOk = true) :
    decode f.pack = if f.wellFormed then .ok f.command else .error .reservedField := by
  simp only [decode, opc_pack, mode_pack, descField_pack_rd, descField_pack_rs1, descField_pack_rs2]
  rw [opcodeOk_iff] at h
  obtain ⟨opc, rd, rs1, rs2, flg, rsv⟩ := f
  rcases h with rfl | rfl | rfl | rfl | rfl | rfl | rfl | rfl <;>
  · refine matchRow_pack ?_ _
    simp [Fields.mask, fieldsOfWord, wellFormed_iff, opcodeOk_iff, flg_and_eq_zero]

/-- What decoding a word can answer, by its fields (40_command_execution R142). -/
theorem decode_cases (w : Word) :
    ((fieldsOfWord w).opcodeOk = false ∧ (fieldsOfWord w).wellFormed = false ∧
      decode w = .error .illegalOpcode) ∨
    ((fieldsOfWord w).opcodeOk = true ∧ (fieldsOfWord w).wellFormed = false ∧ decode w = .error .reservedField) ∨
    ((fieldsOfWord w).opcodeOk = true ∧ (fieldsOfWord w).wellFormed = true ∧
      decode w = .ok (fieldsOfWord w).command) := by
  obtain ⟨f, rfl⟩ := exists_pack w
  rw [fieldsOfWord_pack]
  cases hopc : f.opcodeOk with
  | false => exact .inl ⟨rfl, by simp [Fields.wellFormed, hopc], decode_illegal hopc⟩
  | true =>
    rw [decode_legal hopc]
    cases f.wellFormed with
    | false => exact .inr (.inl ⟨rfl, rfl, rfl⟩)
    | true => exact .inr (.inr ⟨rfl, rfl, rfl⟩)

theorem decode_eq_illegalOpcode (w : Word) : decode w = .error .illegalOpcode ↔
    (w.extractLsb' 0 8).toNat ∉ [0x00, 0x01, 0x10, 0x11, 0x20, 0x21, 0x22, 0x30] := by
  rw [← fieldsOfWord_opcodeOk]
  rcases decode_cases w with ⟨hopc, _, hd⟩ | ⟨hopc, _, hd⟩ | ⟨hopc, _, hd⟩ <;> simp [hopc, hd]

theorem decode_eq_reservedField (w : Word) : decode w = .error .reservedField ↔
    (w.extractLsb' 0 8).toNat ∈ [0x00, 0x01, 0x10, 0x11, 0x20, 0x21, 0x22, 0x30] ∧
      (fieldsOfWord w).wellFormed = false := by
  rw [← fieldsOfWord_opcodeOk]
  rcases decode_cases w with ⟨hopc, hwf, hd⟩ | ⟨hopc, hwf, hd⟩ | ⟨hopc, hwf, hd⟩ <;> simp [hopc, hwf, hd]

theorem decode_eq_command (w : Word) (i : Instr) :
    decode w = .ok i ↔ (fieldsOfWord w).wellFormed = true ∧ (fieldsOfWord w).command = i := by
  rcases decode_cases w with ⟨_, hwf, hd⟩ | ⟨_, hwf, hd⟩ | ⟨_, hwf, hd⟩ <;> simp [hwf, hd]

/-! The round trip. Well-formed fields and commands are the same thing. -/

theorem wellFormed_fields (i : Instr) : i.fields.wellFormed = true := by
  rw [wellFormed_iff, opcodeOk_iff]
  cases i <;> simp [Instr.fields]

theorem command_fields (i : Instr) : i.fields.command = i := by
  cases i <;> simp [Instr.fields, Fields.command]

theorem fields_command {f : Fields} (h : f.wellFormed = true) : f.command.fields = f := by
  obtain ⟨hopc, hrd, hrs1, hrs2, hmode, hrsv⟩ := (wellFormed_iff f).mp h
  obtain ⟨opc, rd, rs1, rs2, flg, rsv⟩ := f
  rcases hmode with rfl | ⟨rfl, rfl⟩
  case inl =>
    rw [opcodeOk_iff] at hopc
    rcases hopc with rfl | rfl | rfl | rfl | rfl | rfl | rfl | rfl <;> simp_all [Fields.command, Instr.fields]
  case inr => simp_all [Fields.command, Instr.fields]

/-- A word decodes to a command exactly when its fields are the command's. -/
theorem decode_eq_ok_iff_fields (w : Word) (i : Instr) : decode w = .ok i ↔ fieldsOfWord w = i.fields := by
  rw [decode_eq_command]
  constructor
  · rintro ⟨h, rfl⟩; exact (fields_command h).symm
  · intro h; rw [h]; exact ⟨wellFormed_fields i, command_fields i⟩

/-- Decoding and encoding are inverse: a word decodes to the command that it is the word of, and to no other. -/
theorem decode_eq_ok_iff (w : Word) (i : Instr) : decode w = .ok i ↔ encode i = w := by
  rw [decode_eq_ok_iff_fields, eq_comm, ← pack_inj, pack_fieldsOfWord, encode]

/-- Settles O1: the bytes of a word give the word, which decodes to the command it encodes. -/
theorem encodedCommandsDecodeBack : Obligations.EncodedCommandsDecodeBack := fun i =>
  ⟨wellFormed_fields i, by rw [decodeBytes, wordOfBytes_bytesOfWord, decode_eq_ok_iff]⟩

/-- Settles O2: decoding and encoding are inverse. -/
theorem decodedWordsEncodeBack : Obligations.DecodedWordsEncodeBack := fun w i => (decode_eq_ok_iff w i).mp

/-- Settles O3: each word is the word of its command. -/
theorem exampleWordsDecode : Obligations.ExampleWordsDecode := by
  simp only [Obligations.ExampleWordsDecode, decode_eq_ok_iff]
  decide

/-! The match table (30_encoding R114) and the words that match no row. -/

/-- Settles O4: a row's mask keeps the fields that the row fixes, and its operands are the numbers in the others. -/
theorem decodingIsTheMatchTable : Obligations.DecodingIsTheMatchTable := by
  intro w rdIs rs1Is rs2Is
  simp only [rdIs, rs1Is, rs2Is, ← eq_descBits_iff, decode_eq_ok_iff_fields, and_eq_iff]
  refine ⟨?halt, ?nop, ?dec, ?enc, ?conv, ?fir, ?deconvT, ?deconvF, ?xcorr, decode_eq_illegalOpcode w,
    decode_eq_reservedField w⟩
  all_goals
    intros
    simp [fieldsOfWord, Fields.mask, Instr.fields] <;> tauto

end Sys2Proof

namespace Sys2Proof.Machine

/-- A fetched word that is no command is refused with the error of its decoding (40_command_execution R142). -/
theorem step_undecodable {s : State} {e : DecodeError} (h : ReadyToFetch s) (hn : s.inbox = [])
    (he : decode (wordOfBytes (commandBytes s)) = .error e) : step s = .next (raiseError (decodeFault e) s) := by
  rw [step_nil hn, engineTurn_busy h.1, engineStep_ready h, decodeBytes, he, runDecoded]

/-- Settles O8: a word outside the match table decodes to its error, which the step records. -/
theorem badWordsAreRefused : Obligations.BadWordsAreRefused := by
  intro s h hn w opc
  exact ⟨fun hbad => ⟨_, step_undecodable h hn ((decode_eq_illegalOpcode w).mpr hbad),
      raiseError_failedWith s (decodeFault .illegalOpcode)⟩,
    fun hopc hwf => ⟨_, step_undecodable h hn ((decode_eq_reservedField w).mpr ⟨hopc, hwf⟩),
      raiseError_failedWith s (decodeFault .reservedField)⟩⟩

end Sys2Proof.Machine

/-! The execution of commands (40_command_execution): the engine's turn and its fetch, the two outcomes of a command,
the operand checks in their order, and the end of every run. -/

namespace Sys2Proof.Machine

/-! The engine's turn (40_command_execution R140 to R142). -/

section
variable {s : State} {rest : List Turn}

theorem step_engine (h : s.inbox = .engine :: rest) : step s = engineTurn { s with inbox := rest } := step_cons h

/-- An unraced command at CMD_PTR is executed on the state as it stands. -/
theorem engineTurn_command {i : Instr} (h : ReadyToFetch s) (hi : decodeBytes (commandBytes s) = .ok i) :
    engineTurn s = exec i s := by
  rw [engineTurn_busy h.1, engineStep_ready h, hi, runDecoded]

/-- A failing fetch ends the run with its error. -/
theorem step_fetchError {e : CmdError} (hn : s.inbox = []) (hb : s.busy = true) (he : fetchError s = some e) :
    step s = .next (raiseError e s) := by
  rw [step_nil hn, engineTurn_busy hb, engineStep, he]

/-- The word that MEM holds at CMD_PTR, read little-endian, is the word of the command bytes. -/
theorem eq_wordOfBytes {w : Word} (h : w.toNat = memRead s s.cmdPtr.toNat 4) : w = wordOfBytes (commandBytes s) :=
  BitVec.eq_of_toNat_eq (h.trans (wordOfBytes_toNat s).symm)

end

/-- Settles O5: at either inbox the step is the engine's turn, which executes the command. -/
theorem stepRunsTheDecodedCommand : Obligations.StepRunsTheDecodedCommand := fun s _ h hi _ =>
  ⟨fun hn => (step_nil hn).trans (engineTurn_command h hi),
   fun rest hn => (step_engine hn).trans (engineTurn_command (s := { s with inbox := rest }) h hi)⟩

/-- Settles O6: at either inbox the step is the turn of an idle engine. -/
theorem idleEngineTakesNoStep : Obligations.IdleEngineTakesNoStep := fun s hb =>
  ⟨fun hn => (step_nil hn).trans (engineTurn_idle hb),
   fun rest hn => (step_engine hn).trans (engineTurn_idle (s := { s with inbox := rest }) hb)⟩

/-- Settles O7: the two checks of a fetch in their order, and then the word that is decoded. -/
theorem fetchChecksCmdPtr : Obligations.FetchChecksCmdPtr := by
  intro s hn hb
  refine ⟨fun halign => ?misaligned, fun halign hrange => ?outside, fun hr w hw => ?fetched⟩
  case misaligned => exact ⟨_, step_fetchError hn hb (fetchError_align halign), raiseError_failedWith s _⟩
  case outside => exact ⟨_, step_fetchError hn hb (fetchError_range halign hrange), raiseError_failedWith s _⟩
  case fetched =>
    rw [eq_wordOfBytes hw]
    exact ⟨fun i hi => (step_nil hn).trans (engineTurn_command hr hi),
      fun hd => ⟨_, step_undecodable hr hn hd, raiseError_failedWith s (decodeFault .illegalOpcode)⟩,
      fun hd => ⟨_, step_undecodable hr hn hd, raiseError_failedWith s (decodeFault .reservedField)⟩⟩

/-! The outcomes of a command (40_command_execution R151 to R153). -/

/-- Settles O9: HALT is completion and then the two flags. -/
theorem haltStopsTheRun : Obligations.HaltStopsTheRun := fun s => ⟨haltFlags (complete s), rfl, by simp [Counted]⟩

/-- Settles O10: NOP is completion alone. -/
theorem nopOnlyCounts : Obligations.NopOnlyCounts := fun s => ⟨complete s, rfl, by simp [Counted, SameControl]⟩

theorem engineTurn_next (s : State) : ∃ t, engineTurn s = .next t := by
  cases hb : s.busy with
  | false => exact ⟨s, engineTurn_idle hb⟩
  | true => rw [engineTurn_busy hb]; exact engineStep_next s

theorem step_next (s : State) : ∃ t, step s = .next t := by
  cases hn : s.inbox with
  | nil => rw [step_nil hn]; exact engineTurn_next s
  | cons turn rest =>
    rw [step_cons hn]
    cases turn with
    | engine => exact engineTurn_next _
    | host op => exact ⟨_, rfl⟩
    | reset => exact ⟨_, rfl⟩

/-- A command completes and leaves the error state, or it fails and ends the run (40_command_execution R151,
60_exceptions R272). -/
theorem Effect.completes_or_fails {i : Instr} {s t : State} (h : Effect i s t) :
    (Counted s t ∧ t.err = s.err ∧ t.errCode = s.errCode ∧ t.errIndex = s.errIndex) ∨
    (t.cmdPtr = s.cmdPtr ∧ t.cmdsDone = s.cmdsDone ∧ t.busy = false ∧ t.err = true ∧ t.done = s.done) := by
  cases h with
  | raised | degenerate => exact .inr ⟨rfl, rfl, rfl, rfl, rfl⟩
  | halted | counted | stored | lagged => exact .inl ⟨⟨rfl, rfl⟩, rfl, rfl, rfl⟩

/-- Settles O11: each turn answers a next state, and so does each command, whose effect completes it or fails it. -/
theorem everyCommandCompletesOrFails : Obligations.EveryCommandCompletesOrFails := by
  refine ⟨step_next, fun i s => ?_⟩
  obtain ⟨t, ht⟩ := exec_next i s
  exact ⟨t, ht, (exec_effect ht).completes_or_fails⟩

/-! The rows of the table of operands (40_command_execution R143). -/

section
variable {i : Instr}

theorem src1_ne_none_of_src2 {b : SrcSpec} (h : (sigOf i).src2 = some b) : (sigOf i).src1 ≠ none := by
  cases i with
  | halt | nop | dec | enc => exact absurd h nofun
  | conv | fir | deconvT | deconvF | xcorr => exact nofun

theorem src1_ne_none_of_dst {d : DstSpec} (h : (sigOf i).dst = some d) : (sigOf i).src1 ≠ none := by
  cases i with
  | halt | nop | xcorr => exact absurd h nofun
  | dec | enc | conv | fir | deconvT | deconvF => exact nofun

/-- Only XCORR asks for equal lengths, and it has no destination. -/
theorem lenMatch_of_dst {d : DstSpec} (h : (sigOf i).dst = some d) : (sigOf i).lenMatch = false := by
  cases i with
  | halt | nop | xcorr => exact absurd h nofun
  | dec | enc | conv | fir | deconvT | deconvF => rfl

end

/-! Which check of the operands comes first (40_command_execution R143). -/

section
variable {s : State} {sig : OperandSig}

/-- The sources that a command has pass their checks. -/
abbrev SourcesReady (s : State) (sig : OperandSig) : Prop :=
  (∀ a, sig.src1 = some a → SourceReady s a.desc a.kind a.chanRate a.nonempty) ∧
  (∀ b, sig.src2 = some b → SourceReady s b.desc b.kind b.chanRate b.nonempty)

/-- Operand `r` is the source `sp`, and the sources before it pass their checks. -/
abbrev ReachesSource (s : State) (sig : OperandSig) (r : Role) (sp : SrcSpec) : Prop :=
  (r = .rs1 ∧ sig.src1 = some sp) ∨
    (r = .rs2 ∧ sig.src2 = some sp ∧
      ∀ a, sig.src1 = some a → SourceReady s a.desc a.kind a.chanRate a.nonempty)

theorem checkSrcOf_eq_none (s : State) (r : Role) (o : Option SrcSpec) : checkSrcOf s r o = none ↔
    ∀ a, o = some a → SourceReady s a.desc a.kind a.chanRate a.nonempty := by
  cases o with
  | none => simp [checkSrcOf]
  | some sp => simp only [checkSrcOf, Option.bind_some, checkSrc_eq_none, Option.some.injEq, forall_eq']

/-- The first source that fails a check gives the command's error. -/
theorem operandError_source {r : Role} {sp : SrcSpec} {e : CmdError} (h : ReachesSource s sig r sp)
    (he : checkSrc s r sp = some e) : operandError s sig = some e := by
  rcases h with ⟨rfl, h1⟩ | ⟨rfl, h2, hready⟩
  · rw [operandError, h1]
    simp [checkSrcOf, he]
  · rw [operandError, (checkSrcOf_eq_none s .rs1 sig.src1).mpr hready, h2]
    simp [checkSrcOf, he]

/-- With the sources ready, the pair is checked and then the destination. -/
theorem operandError_ready (h : SourcesReady s sig) :
    operandError s sig = (checkPair s sig).or (sig.dst.bind (checkDst s sig)) := by
  obtain ⟨h1, h2⟩ := h
  simp only [operandError, (checkSrcOf_eq_none s _ _).mpr h1, (checkSrcOf_eq_none s _ _).mpr h2, Option.none_or]

theorem operandError_pair {e : CmdError} (h : SourcesReady s sig) (he : checkPair s sig = some e) :
    operandError s sig = some e := by
  rw [operandError_ready h, he, Option.some_or]

theorem operandError_destination {d : DstSpec} {e : CmdError} (h : SourcesReady s sig) (hp : checkPair s sig = none)
    (hd : sig.dst = some d) (he : checkDst s sig d = some e) : operandError s sig = some e := by
  rw [operandError_ready h, hp, hd, Option.none_or, Option.bind_some, he]

/-- A failing operand check is recorded with ERR_INDEX 0, and MEM stays (60_exceptions R271, R272). -/
theorem exec_operandFault {i : Instr} {name : ErrName} {r : Role} {n : DescNo} (hs : (sigOf i).src1 ≠ none)
    (h : operandError s (sigOf i) = operandFault name r n) :
    ∃ t, exec i s = .next t ∧ FailedWith s t name.code.toNat r.code.toNat n.val 0 :=
  ⟨_, exec_operandError h hs, raiseError_failedWith s ⟨name, r, n, 0⟩⟩

end

/-! The source checks (40_command_execution R145). -/

/-- A check that holds passes on to the next one. -/
theorem check_passes {α : Type} {p : Prop} [Decidable p] {a b : α} (h : p) : (if ¬ p then a else b) = b :=
  if_neg (not_not_intro h)

/-- The source checks as the chain of the conditions that each asks for. -/
theorem checkSrc_eq (s : State) (r : Role) (sp : SrcSpec) : checkSrc s r sp =
    if ¬ (s.desc sp.desc).kind = sp.kind then operandFault .fmtKind r sp.desc
    else if ¬ (sp.chanRate = true → (s.desc sp.desc).chan = 1#8) then operandFault .fmtChannels r sp.desc
    else if ¬ (sp.kind = .pcm → (s.desc sp.desc).depth = 16#8 ∨ (s.desc sp.desc).depth = 24#8) then
      operandFault .fmtDepth r sp.desc
    else if ¬ (sp.chanRate = true → (s.desc sp.desc).rate ≠ 0#32) then operandFault .fmtRate r sp.desc
    else if ¬ baseOf s sp.desc + capOf s sp.desc ≤ s.cfg.memBytes then operandFault .memRange r sp.desc
    else if ¬ (sp.kind = .sample → baseOf s sp.desc % 8 = 0) then operandFault .memAlign r sp.desc
    else if ¬ (sp.nonempty = true → lenOf s sp.desc ≠ 0) then operandFault .empty r sp.desc
    else if ¬ lenOf s sp.desc * (s.desc sp.desc).bpf ≤ capOf s sp.desc then operandFault .fmtLength r sp.desc
    else none := by
  have hlen : (s.desc sp.desc).len = 0#32 ↔ (s.desc sp.desc).len.toNat = 0 := by simp [BitVec.toNat_eq]
  exact if_congr Iff.rfl rfl (if_congr Classical.not_imp.symm rfl (if_congr (by tauto) rfl (if_congr (by tauto) rfl
    (if_congr not_le.symm rfl (if_congr Classical.not_imp.symm rfl (if_congr (by tauto) rfl
      (if_congr not_le.symm rfl rfl)))))))

/-- Settles O16: the first source check that fails is the command's first error. -/
theorem sourceChecksInOrder : Obligations.SourceChecksInOrder := by
  intro i s r sp hreach d fails c1 c2 c3 c4 c5 c6 c7 c8
  have hsrc : (sigOf i).src1 ≠ none := by
    rcases hreach with ⟨_, h⟩ | ⟨_, h, _⟩
    · rw [h]; exact nofun
    · exact src1_ne_none_of_src2 h
  have fault (name : ErrName) (h : checkSrc s r sp = operandFault name r sp.desc) : fails name.code.toNat :=
    exec_operandFault hsrc (operandError_source hreach h)
  rw [checkSrc_eq] at fault
  exact ⟨fun h => fault .fmtKind (if_pos h),
    fun h1 h => fault .fmtChannels (by rw [check_passes h1, if_pos h]),
    fun h1 h2 h => fault .fmtDepth (by rw [check_passes h1, check_passes h2, if_pos h]),
    fun h1 h2 h3 h => fault .fmtRate (by rw [check_passes h1, check_passes h2, check_passes h3, if_pos h]),
    fun h1 h2 h3 h4 h => fault .memRange (by
      rw [check_passes h1, check_passes h2, check_passes h3, check_passes h4, if_pos h]),
    fun h1 h2 h3 h4 h5 h => fault .memAlign (by
      rw [check_passes h1, check_passes h2, check_passes h3, check_passes h4, check_passes h5, if_pos h]),
    fun h1 h2 h3 h4 h5 h6 h => fault .empty (by
      rw [check_passes h1, check_passes h2, check_passes h3, check_passes h4, check_passes h5, check_passes h6,
        if_pos h]),
    fun h1 h2 h3 h4 h5 h6 h7 h => fault .fmtLength (by
      rw [check_passes h1, check_passes h2, check_passes h3, check_passes h4, check_passes h5, check_passes h6,
        check_passes h7, if_pos h])⟩

/-! The pair checks (40_command_execution R147). -/

section
variable {s : State} {sig : OperandSig} {a b : SrcSpec}

theorem checkPair_rate (ha : sig.src1 = some a) (hb : sig.src2 = some b) (hm : sig.rateMatch = true)
    (h : (s.desc a.desc).rate ≠ (s.desc b.desc).rate) : checkPair s sig = operandFault .rateMismatch .rs2 b.desc := by
  simp only [checkPair, ha, hb, if_pos (And.intro hm h)]

theorem checkPair_length (ha : sig.src1 = some a) (hb : sig.src2 = some b) (hm : sig.lenMatch = true)
    (hr : (s.desc a.desc).rate = (s.desc b.desc).rate) (h : (s.desc a.desc).len ≠ (s.desc b.desc).len) :
    checkPair s sig = operandFault .lengthMismatch .rs2 b.desc := by
  simp only [checkPair, ha, hb, hr, ne_eq, not_true_eq_false, and_false, if_false, if_pos (And.intro hm h)]

/-- The pair passes where the table asks for no match of the lengths and the rates match if it asks for that. -/
theorem checkPair_passes (hl : sig.lenMatch = false)
    (hr : ∀ a b, sig.src1 = some a → sig.src2 = some b → sig.rateMatch = true →
      (s.desc a.desc).rate = (s.desc b.desc).rate) : checkPair s sig = none := by
  cases h1 : sig.src1 with
  | none => simp only [checkPair, h1]
  | some a =>
    cases h2 : sig.src2 with
    | none => simp only [checkPair, h1, h2]
    | some b => exact (checkPair_eq_none s sig h1 h2).mpr ⟨hr a b h1 h2, fun h => by simp [hl] at h⟩

end

theorem sourcesReady_samples {s : State} {sig : OperandSig} {x y : DescNo} (hx : SourceReady s x .sample true true)
    (hy : SourceReady s y .sample true true) (h1 : sig.src1 = some (fullSample x))
    (h2 : sig.src2 = some (fullSample y)) : SourcesReady s sig :=
  ⟨fun a ha => by cases h1.symm.trans ha; exact hx, fun b hb => by cases h2.symm.trans hb; exact hy⟩

/-- Settles O17: the first pair check that fails is the error, since both sources pass. -/
theorem pairChecksInOrder : Obligations.PairChecksInOrder := by
  intro s rd x y hx hy
  refine ⟨fun hne => ?rates, fun heq hne => ?lengths⟩
  case rates =>
    have mismatch (i : Instr) (h1 : (sigOf i).src1 = some (fullSample x)) (h2 : (sigOf i).src2 = some (fullSample y))
        (hm : (sigOf i).rateMatch = true) : ∃ t, exec i s = .next t ∧ FailedWith s t 0x20 2 y.val 0 :=
      exec_operandFault (name := .rateMismatch) (r := .rs2) (src1_ne_none_of_src2 h2)
        (operandError_pair (sourcesReady_samples hx hy h1 h2) (checkPair_rate h1 h2 hm hne))
    exact ⟨mismatch _ rfl rfl rfl, mismatch _ rfl rfl rfl, mismatch _ rfl rfl rfl, mismatch _ rfl rfl rfl⟩
  case lengths =>
    exact exec_operandFault (i := .xcorr x y) (name := .lengthMismatch) (r := .rs2) nofun
      (operandError_pair (sourcesReady_samples hx hy rfl rfl)
        (checkPair_length (b := fullSample y) rfl rfl rfl heq hne))

/-! The destination checks (40_command_execution R148, R149). -/

theorem overlapsSrc_eq_true (s : State) (rd : DescNo) (n : Nat) (o : Option SrcSpec) :
    overlapsSrc s (baseOf s rd) n o = true ↔ ¬ ∀ a, o = some a → NoOverlap s rd n a.desc := by
  cases o with
  | none => simp [overlapsSrc]
  | some a => simp only [← overlapsSrc_some, Option.some.injEq, forall_eq', not_not]

/-- The destination checks as the chain of the conditions that each asks for. -/
theorem checkDst_eq (s : State) (sig : OperandSig) (d : DstSpec) : checkDst s sig d =
    if ¬ baseOf s d.desc + capOf s d.desc ≤ s.cfg.memBytes then operandFault .memRange .rd d.desc
    else if ¬ (d.kind = .sample → baseOf s d.desc % 8 = 0) then operandFault .memAlign .rd d.desc
    else if ¬ outBytes s sig d ≤ capOf s d.desc then operandFault .dstCapacity .rd d.desc
    else if overlapsSrc s (baseOf s d.desc) (outBytes s sig d) sig.src1 = true ∨
        overlapsSrc s (baseOf s d.desc) (outBytes s sig d) sig.src2 = true then operandFault .overlap .rd d.desc
    else none :=
  if_congr not_le.symm rfl (if_congr Classical.not_imp.symm rfl (if_congr not_le.symm rfl rfl))

/-- Settles O18: the first destination check that fails is the error, since the sources and the pair pass. -/
theorem destinationChecksInOrder : Obligations.DestinationChecksInOrder := by
  intro i s d hd hsrc1 hsrc2 hrate n fails c1 c2 c3 c4
  have fault (name : ErrName) (h : checkDst s (sigOf i) d = operandFault name .rd d.desc) : fails name.code.toNat :=
    exec_operandFault (r := .rd) (src1_ne_none_of_dst hd)
      (operandError_destination ⟨hsrc1, hsrc2⟩ (checkPair_passes (lenMatch_of_dst hd) hrate) hd h)
  rw [checkDst_eq] at fault
  exact ⟨fun h => fault .memRange (if_pos h), fun h1 h => fault .memAlign (by rw [check_passes h1, if_pos h]),
    fun h1 h2 h => fault .dstCapacity (by rw [check_passes h1, check_passes h2, if_pos h]),
    fun h1 h2 h3 h => fault .overlap (by
      rw [check_passes h1, check_passes h2, check_passes h3]
      exact if_pos ((not_and_or.mp h).imp (overlapsSrc_eq_true ..).mpr (overlapsSrc_eq_true ..).mpr))⟩

/-! Whole runs (40_command_execution R155). -/

/-- A step of a running engine that nothing disturbs ends the run, or takes CMD_PTR past a word inside MEM, where it
does not wrap. -/
theorem step_ends_or_moves {s : State} (hv : s.cfg.Valid) (hn : s.inbox = []) (hb : s.busy = true) :
    ∃ t, step s = .next t ∧ ((t.busy = false ∧ (t.done = true ∨ t.err = true)) ∨
      (t.cfg = s.cfg ∧ t.inbox = [] ∧ t.busy = true ∧ t.cmdPtr.toNat = s.cmdPtr.toNat + 4 ∧
        s.cmdPtr.toNat + 4 ≤ s.cfg.memBytes)) := by
  obtain ⟨t, ht⟩ := engineStep_next s
  obtain ⟨⟨hinbox, hcfg, hended | ⟨hbusy, hptr⟩⟩, hword⟩ := engineStep_ends hb ht
  all_goals refine ⟨t, by rw [step_nil hn, engineTurn_busy hb, ht], ?_⟩
  · exact .inl hended
  · have hin := hword hbusy
    have hmax := hv.2.2
    have hp : t.cmdPtr.toNat = s.cmdPtr.toNat + 4 := by
      rw [hptr, BitVec.toNat_add, BitVec.toNat_ofNat]
      omega
    exact .inr ⟨hcfg, hinbox.trans hn, hbusy, hp, hin⟩

/-- The words of MEM from CMD_PTR on are a bound on the steps before the last one. -/
theorem run_ends (s : State) (hv : s.cfg.Valid) (hn : s.inbox = []) (hb : s.busy = true) :
    ∃ k t, k ≤ (s.cfg.memBytes - s.cmdPtr.toNat) / 4 + 1 ∧ Sys2Proof.core.run k s = .next t ∧
      t.busy = false ∧ (t.done = true ∨ t.err = true) := by
  obtain ⟨t, ht, hended | ⟨hcfg, hinbox, hbusy, hptr, hword⟩⟩ := step_ends_or_moves hv hn hb
  · exact ⟨1, t, by omega, run_succ 0 ht, hended⟩
  · obtain ⟨k, u, hk, hrun, hend⟩ := run_ends t (hcfg ▸ hv) hinbox hbusy
    rw [hcfg, hptr] at hk
    exact ⟨k + 1, u, by omega, (run_succ k ht).trans hrun, hend⟩
termination_by (s.cfg.memBytes - s.cmdPtr.toNat) / 4
decreasing_by rw [hcfg, hptr]; omega

/-- Settles O53, by recursion on the words of MEM that are left. -/
theorem everyRunEnds : Obligations.EveryRunEnds := run_ends

end Sys2Proof.Machine

/-! The PCM codec (41_pcm_codec): the conversions, divisions and products that are exact, what a decoded frame is and what
a sample encodes to, and from these DEC, ENC and the one after the other. -/

namespace Sys2Proof.Machine

/-! Rounding is exact on the numbers that binary64 holds (00_scope R12). -/

/-- A significand of at most 53 digits at any exponent of the format is the magnitude of a finite pattern. -/
theorem exists_finite_funits (neg : Bool) {e q : Nat} (he : e ≤ 2045) (hq : q < 2 ^ 53) :
    ∃ x : F64, isFinite x = true ∧ fneg x = neg ∧ funits x = q * 2 ^ e := by
  induction e generalizing q with
  | zero =>
    have hm : fmag (fpack neg q) = q := fmag_fpack neg (by omega)
    exact ⟨fpack neg q, by rw [isFinite_iff, hm]; omega, fneg_fpack neg (by omega),
      by simpa using funits_fpack neg 0 q (.inl rfl) hq.le (by omega)⟩
  | succ e ih =>
    rcases Nat.lt_or_ge q (2 ^ 52) with hsmall | hbig
    · obtain ⟨x, hx, hn, hu⟩ := ih (by omega) (show 2 * q < 2 ^ 53 by omega)
      exact ⟨x, hx, hn, by rw [hu, pow_succ]; ring⟩
    · have hlt : (e + 1) * 2 ^ 52 + q < 2047 * 2 ^ 52 := by omega
      exact ⟨fpack neg ((e + 1) * 2 ^ 52 + q), by rw [isFinite_iff, fmag_fpack neg (by omega)]; exact hlt,
        fneg_fpack neg (by omega), funits_fpack neg (e + 1) q (.inr hbig) hq.le (by omega)⟩

/-- Rounding is exact on a significand of at most 53 digits at any exponent of the format. -/
theorem fround_significand (neg : Bool) {m k e q : Nat} (he : e ≤ 2045) (hq : q < 2 ^ 53)
    (hm : m = q * 2 ^ e * 2 ^ k) :
    isFinite (fround neg m k) = true ∧ fvalue (fround neg m k) = withSign neg (q * 2 ^ e : Nat) := by
  obtain ⟨x, hx, hn, hu⟩ := exists_finite_funits neg he hq
  rw [fround_of_funits hx hn (hu ▸ hm.symm)]
  exact ⟨hx, by rw [fvalue_eq, hn, hu]⟩

theorem natAbs_withSign (neg : Bool) (n : Nat) : (withSign neg n).natAbs = n := by
  cases neg
  · exact Int.natAbs_natCast n
  · exact (Int.natAbs_neg _).trans (Int.natAbs_natCast n)

theorem natAbs_fvalue (x : F64) : (fvalue x).natAbs = funits x := natAbs_withSign (fneg x) (funits x)

theorem stickyQuotient_mul (c : Nat) {b : Nat} (hb : 0 < b) : stickyQuotient (c * b) b = 2 * c := by
  rw [stickyQuotient, Nat.mul_div_cancel c hb, Nat.mul_mod_left, if_pos rfl, Nat.add_zero]

/-! Powers of two as operands. -/

/-- A finite positive pattern of value 2^p. -/
abbrev IsPowTwo (b : F64) (p : Nat) : Prop := isFinite b = true ∧ fneg b = false ∧ funits b = 2 ^ (1074 + p)

theorem funits_one : funits f64One = 2 ^ 1074 := by decide +kernel
theorem isPowTwo_15 : IsPowTwo f64TwoPow15 15 := by decide +kernel
theorem isPowTwo_23 : IsPowTwo f64TwoPow23 23 := by decide +kernel

/-- An integer of at most 53 digits converts exactly (00_scope R12). -/
theorem i2f_exact {z : Int} (hz : z.natAbs < 2 ^ 53) :
    isFinite (i2f z) = true ∧ fneg (i2f z) = decide (z < 0) ∧ funits (i2f z) = z.natAbs * 2 ^ 1074 := by
  obtain ⟨hfin, hval⟩ := fround_significand (decide (z < 0)) (k := 0) (by norm_num : 1074 ≤ 2045) hz
    (by rw [pow_zero, Nat.mul_one])
  exact ⟨hfin, fneg_fround .., (natAbs_fvalue _).symm.trans ((congrArg _ hval).trans (natAbs_withSign ..))⟩

/-- Dividing an integer of at most 53 digits by a power of two is exact. -/
theorem fdiv_i2f_powTwo {z : Int} {b : F64} {p : Nat} (hz : z.natAbs < 2 ^ 53) (hb : IsPowTwo b p) (hp : p ≤ 1074) :
    isFinite (fdiv (i2f z) b) = true ∧ fvalue (fdiv (i2f z) b) = z * 2 ^ (1074 - p) := by
  obtain ⟨hfin, hneg, hunits⟩ := i2f_exact hz
  obtain ⟨hbfin, hbneg, hbunits⟩ := hb
  have hpos : 0 < funits b := hbunits ▸ Nat.two_pow_pos _
  have hpow : 2 ^ 1074 * 2 ^ 1074 = 2 ^ (1074 - p) * 2 ^ (1074 + p) := by
    rw [← Nat.pow_add, ← Nat.pow_add, show 1074 - p + (1074 + p) = 1074 + 1074 by omega]
  have hdividend : funits (i2f z) * 2 ^ 1074 * 2 = z.natAbs * 2 ^ (1074 - p) * 2 * funits b := by
    rw [hunits, hbunits, Nat.mul_assoc z.natAbs, hpow]
    simp only [Nat.mul_comm, Nat.mul_left_comm]
  rw [fdiv_finite hfin hbfin (fun h => hpos.ne' (funits_eq_zero.mpr h)), hdividend, stickyQuotient_mul _ hpos, hneg,
    hbneg, Bool.bne_false]
  obtain ⟨hr, hval⟩ := fround_significand (decide (z < 0)) (k := 2) (show 1074 - p ≤ 2045 by omega) hz
    (show 2 * (z.natAbs * 2 ^ (1074 - p) * 2) = _ by omega)
  refine ⟨hr, ?_⟩
  rw [hval, Nat.cast_mul, ← withSign_mul_const, withSign_natAbs, Nat.cast_pow, Nat.cast_ofNat]

theorem isFinite_of_funits_le {x : F64} (hx : funits x ≤ 2 ^ 1074) : isFinite x = true := by
  have hle : fmag x ≤ fmag f64One := Nat.not_lt.mp fun h => (funits_mono h).not_ge (by rwa [funits_one])
  rw [isFinite_iff]
  exact hle.trans_lt (by decide)

/-- Multiplying by a power of two is exact on magnitudes up to 1.0. -/
theorem fmul_powTwo {x b : F64} {p : Nat} (hx : funits x ≤ 2 ^ 1074) (hb : IsPowTwo b p) (hp : 1074 + p ≤ 2045) :
    fvalue (fmul x b) = fvalue x * 2 ^ p := by
  obtain ⟨hbfin, hbneg, hbunits⟩ := hb
  obtain ⟨e, q, -, he, hq, hu⟩ := funits_eq x
  have hexp : e ≤ 1074 := by
    rcases he with rfl | he
    · exact Nat.zero_le _
    · rw [← Nat.pow_le_pow_iff_right (a := 2) (by norm_num)]
      calc 2 ^ e ≤ q * 2 ^ e := Nat.le_mul_of_pos_left _ (by omega)
        _ ≤ 2 ^ 1074 := hu ▸ hx
  have hproduct : funits x * 2 ^ (1074 + p) = q * 2 ^ (e + p) * 2 ^ 1074 := by
    rw [hu, Nat.mul_assoc, Nat.mul_assoc, ← Nat.pow_add, ← Nat.pow_add]
    congr 2
    ring
  have hrange : e + p ≤ 2045 := (Nat.add_le_add_right hexp p).trans hp
  obtain ⟨-, hval⟩ := fround_significand (fneg x) hrange hq hproduct
  rw [fmul_finite (isFinite_of_funits_le hx) hbfin, hbneg, Bool.bne_false, hbunits, hval, fvalue_eq x,
    withSign_mul_const, hu, Nat.pow_add, ← Nat.mul_assoc, Nat.cast_mul, Nat.cast_pow 2 p, Nat.cast_ofNat]

/-! Samples against 1.0. -/

theorem funits_fabs (x : F64) : funits (fabs x) = funits x := by
  have h : fmag (fabs x) = fmag x := fmag_fpack false (fmag_lt x)
  unfold funits fexp ffrac
  rw [h]

theorem fvalue_fabs (x : F64) : fvalue (fabs x) = funits x := by
  rw [fvalue_eq, fabs, fneg_fpack false (fmag_lt x)]
  exact congrArg Nat.cast (funits_fabs x)

theorem fvalue_one : fvalue f64One = (2 ^ 1074 : Nat) :=
  congrArg Nat.cast funits_one

/-- ENC's range check passes exactly the values below 1.0 in magnitude (41_pcm_codec R187). -/
theorem flt_fabs_one_iff (x : F64) : flt (fabs x) f64One = true ↔ funits x < 2 ^ 1074 := by
  rw [flt_key, fkey_lt_iff, fvalue_fabs, fvalue_one, Nat.cast_lt]
  refine ⟨fun ⟨_, _, h⟩ => h, fun h => ⟨isNaN_of_isFinite (isFinite_of_funits_le ?_), by decide, h⟩⟩
  rw [funits_fabs]
  exact h.le

/-! The rescale (41_pcm_codec R183). -/

/-- The peak is the magnitude of a sample. -/
theorem peakMagnitude_mem {s0 : F64} {rest : List F64} (h : ∀ x ∈ s0 :: rest, isNaN (fabs x) = false) :
    peakMagnitude s0 rest ∈ (s0 :: rest).map fabs := by
  have hfold : peakMagnitude s0 rest = (rest.map fabs).foldl (fun m x => if fgt x m then x else m) (fabs s0) :=
    (List.foldl_map (f := fabs) (g := fun m x => if fgt x m then x else m)).symm
  obtain ⟨hs0, hrest⟩ := List.forall_mem_cons.mp h
  rw [hfold, List.map_cons]
  exact (foldl_fgt_max _ _ hs0 (List.forall_mem_map.mpr hrest)).1

/-- With every magnitude at most 1.0 the peak is not above 1.0. -/
theorem rescale_eq_self {xs : List F64} (h : ∀ x ∈ xs, funits x ≤ 2 ^ 1074) : rescale xs = xs := by
  cases xs with
  | nil => rfl
  | cons s0 rest =>
    have hnan : ∀ x ∈ s0 :: rest, isNaN (fabs x) = false := fun x hx =>
      isNaN_of_isFinite (isFinite_of_funits_le ((funits_fabs x).symm ▸ h x hx))
    obtain ⟨x, hx, hpeak⟩ := List.mem_map.mp (peakMagnitude_mem hnan)
    refine if_neg fun hgt => ?_
    obtain ⟨-, -, hlt⟩ := fgt_key.mp hgt
    rw [← hpeak, fkey_lt_iff, fvalue_fabs, fvalue_one, Nat.cast_lt] at hlt
    exact hlt.not_ge (h x hx)

/-! Decoded frames (41_pcm_codec R181, R182). -/

/-- The sample is the signed frame over 2^p, exactly. -/
abbrev HoldsFrame (x : F64) {p : Nat} (w : BitVec (p + 1)) : Prop :=
  isFinite x = true ∧ fvalue x * 2 ^ p = w.toInt * 2 ^ 1074

theorem natAbs_toInt_le {p : Nat} (w : BitVec (p + 1)) : w.toInt.natAbs ≤ 2 ^ p := by
  have hlow := BitVec.le_toInt w
  have hhigh := BitVec.toInt_lt (x := w)
  rw [Nat.add_sub_cancel] at hlow hhigh
  rw [← Int.ofNat_le, Int.natCast_natAbs, Nat.cast_pow, abs_le]
  exact ⟨hlow, hhigh.le⟩

theorem natAbs_toInt_lt_iff {p : Nat} (w : BitVec (p + 1)) :
    w.toInt.natAbs < 2 ^ p ↔ w ≠ BitVec.intMin (p + 1) := by
  have hmin : (BitVec.intMin (p + 1)).toInt = -((2 ^ p : Nat) : Int) := by
    rw [BitVec.toInt_intMin_of_pos (Nat.succ_pos p), Nat.cast_pow]
    rfl
  have hhigh : w.toInt < (2 ^ p : Nat) := by exact_mod_cast BitVec.toInt_lt (x := w)
  have hle := natAbs_toInt_le w
  rw [ne_eq, ← BitVec.toInt_inj, hmin]
  omega

theorem holdsFrame_fdiv {p : Nat} {b : F64} (w : BitVec (p + 1)) (hb : IsPowTwo b p) (hp : p < 53) :
    HoldsFrame (fdiv (i2f w.toInt) b) w := by
  obtain ⟨hfin, hval⟩ := fdiv_i2f_powTwo
    ((natAbs_toInt_le w).trans_lt (Nat.pow_lt_pow_right (by norm_num) hp)) hb (by omega)
  exact ⟨hfin, by rw [hval, mul_assoc, ← pow_add, Nat.sub_add_cancel (by omega)]⟩

theorem holdsFrame_decodeFrame16 (w : Nat) : HoldsFrame (decodeFrame16 w) (p := 15) (BitVec.ofNat 16 w) :=
  holdsFrame_fdiv _ isPowTwo_15 (by norm_num)

theorem holdsFrame_decodeFrame24 (w : Nat) : HoldsFrame (decodeFrame24 w) (p := 23) (BitVec.ofNat 24 w) :=
  holdsFrame_fdiv _ isPowTwo_23 (by norm_num)

theorem holdsFrame_of_frame16 (w : BitVec 16) : HoldsFrame (decodeFrame16 w.toNat) (p := 15) w := by
  have h := holdsFrame_decodeFrame16 w.toNat
  rwa [BitVec.ofNat_toNat, BitVec.setWidth_eq] at h

theorem holdsFrame_of_frame24 (w : BitVec 24) : HoldsFrame (decodeFrame24 w.toNat) (p := 23) w := by
  have h := holdsFrame_decodeFrame24 w.toNat
  rwa [BitVec.ofNat_toNat, BitVec.setWidth_eq] at h

section
variable {x : F64} {p : Nat} {w : BitVec (p + 1)}

theorem HoldsFrame.funits_mul (h : HoldsFrame x w) : funits x * 2 ^ p = w.toInt.natAbs * 2 ^ 1074 := by
  have hval := congrArg Int.natAbs h.2
  simpa only [Int.natAbs_mul, natAbs_fvalue, Int.natAbs_pow, Int.reduceAbs] using hval

theorem HoldsFrame.funits_le (h : HoldsFrame x w) : funits x ≤ 2 ^ 1074 := by
  refine Nat.le_of_mul_le_mul_right ?_ (Nat.two_pow_pos p)
  rw [h.funits_mul, Nat.mul_comm]
  exact Nat.mul_le_mul_left _ (natAbs_toInt_le w)

/-- Only the least frame decodes to a magnitude that is not below 1.0. -/
theorem HoldsFrame.encOutOfRange_eq_false_iff (h : HoldsFrame x w) :
    encOutOfRange x = false ↔ w ≠ BitVec.intMin (p + 1) := by
  rw [encOutOfRange, Bool.not_eq_false', flt_fabs_one_iff, ← natAbs_toInt_lt_iff,
    ← Nat.mul_lt_mul_right (Nat.two_pow_pos p), h.funits_mul, Nat.mul_comm (2 ^ 1074),
    Nat.mul_lt_mul_right (Nat.two_pow_pos 1074)]

theorem HoldsFrame.encOutOfRange_intMin (h : HoldsFrame x (BitVec.intMin (p + 1))) : encOutOfRange x = true :=
  Bool.of_not_eq_false fun hf => h.encOutOfRange_eq_false_iff.mp hf rfl

end

/-- Settles O20: the frame converts exactly, and so does the quotient by a power of two. -/
theorem decodedFramesAreExact : Obligations.DecodedFramesAreExact :=
  ⟨holdsFrame_of_frame16, holdsFrame_of_frame24⟩

/-- Settles O21: no decoded frame exceeds 1.0 in magnitude. -/
theorem rescaleLeavesDecodedSamples : Obligations.RescaleLeavesDecodedSamples := fun _ =>
  ⟨rescale_eq_self (List.forall_mem_map.mpr fun w _ => (holdsFrame_decodeFrame16 w).funits_le),
   rescale_eq_self (List.forall_mem_map.mpr fun w _ => (holdsFrame_decodeFrame24 w).funits_le)⟩

/-! Encoding (41_pcm_codec R188). -/

theorem ftrunc_eq_tdiv (x : F64) : ftrunc x = (fvalue x).tdiv (2 ^ 1074) := by
  have hdiv : ((funits x / 2 ^ 1074 : Nat) : Int) = (funits x : Int).tdiv (2 ^ 1074) := by
    rw [Int.ofNat_tdiv, Nat.cast_pow, Nat.cast_ofNat]
  rw [ftrunc, fvalue, hdiv]
  split
  · exact (Int.neg_tdiv ..).symm
  · rfl

theorem encodeSample_of_funits_le {x : F64} (h : funits x ≤ 2 ^ 1074) :
    encodeSample x = BitVec.ofInt 16 ((fvalue x * 2 ^ 15).tdiv (2 ^ 1074)) := by
  rw [encodeSample, ftrunc_eq_tdiv, fmul_powTwo h isPowTwo_15 (by norm_num)]

/-- A frame of d more bits than 16 encodes to its value over 2^d, rounded toward zero. -/
theorem HoldsFrame.encodeSample_eq_ofInt {x : F64} {d : Nat} {w : BitVec (15 + d + 1)} (h : HoldsFrame x w) :
    encodeSample x = BitVec.ofInt 16 (w.toInt.tdiv (2 ^ d)) := by
  have hscale : fvalue x * 2 ^ 15 * 2 ^ d = 2 ^ 1074 * w.toInt := by rw [mul_assoc, ← pow_add, h.2, mul_comm]
  have hpow : (0 : Int) < 2 ^ d := by positivity
  rw [encodeSample_of_funits_le h.funits_le, ← Int.mul_tdiv_mul_of_pos_left _ _ hpow, hscale,
    Int.mul_tdiv_mul_of_pos _ _ (by positivity)]

theorem natAbs_scaled_tdiv_lt {v : Int} {n : Nat} (k : Nat) (h : v.natAbs < 2 ^ n) :
    ((v * 2 ^ k).tdiv (2 ^ n)).natAbs < 2 ^ k := by
  simp only [Int.natAbs_tdiv, Int.natAbs_mul, Int.natAbs_pow, Int.reduceAbs]
  refine (Nat.div_lt_iff_lt_mul (Nat.two_pow_pos n)).mpr ?_
  rw [Nat.mul_comm]
  exact (Nat.mul_lt_mul_left (Nat.two_pow_pos k)).mpr h

/-- Settles O24: below 1.0 the product with 2^15 is exact, and its truncation has a magnitude below 2^15. -/
theorem encodingTruncatesTowardZero : Obligations.EncodingTruncatesTowardZero := by
  intro x hx
  rw [flt_fabs_one_iff] at hx
  have hlt := natAbs_scaled_tdiv_lt 15 (natAbs_fvalue x ▸ hx)
  rw [encodeSample_of_funits_le hx.le]
  generalize (fvalue x * 2 ^ 15).tdiv (2 ^ 1074) = z at hlt ⊢
  have hint : (BitVec.ofInt 16 z).toInt = z := BitVec.toInt_ofInt_eq_self (by norm_num) (by omega) (by omega)
  rw [hint]
  exact ⟨rfl, by omega, by omega⟩

theorem frame16_roundTrip {w : BitVec 16} (hw : w ≠ 0x8000#16) :
    encOutOfRange (decodeFrame16 w.toNat) = false ∧ encodeSample (decodeFrame16 w.toNat) = w := by
  have h := holdsFrame_of_frame16 w
  exact ⟨h.encOutOfRange_eq_false_iff.mpr hw,
    by rw [h.encodeSample_eq_ofInt (d := 0), pow_zero, Int.tdiv_one, BitVec.ofInt_toInt]⟩

theorem frame24_narrowed (w : BitVec 24) : (encodeSample (decodeFrame24 w.toNat)).toInt = w.toInt.tdiv 256 := by
  have hlow := Int.tdiv_le_tdiv (c := 256) (by norm_num) (BitVec.le_toInt w)
  have hhigh := Int.tdiv_le_tdiv (c := 256) (by norm_num) (Int.le_sub_one_of_lt (BitVec.toInt_lt (x := w)))
  rw [(holdsFrame_of_frame24 w).encodeSample_eq_ofInt (d := 8)]
  exact BitVec.toInt_ofInt_eq_self (by norm_num) hlow (Int.lt_of_le_sub_one hhigh)

/-- Settles O25: the least frame alone decodes to a magnitude of 1.0, and a frame of d more bits than 16 encodes to its
value over 2^d. -/
theorem framesRoundTrip : Obligations.FramesRoundTrip :=
  ⟨fun _ hw => frame16_roundTrip hw, (holdsFrame_of_frame16 0x8000#16).encOutOfRange_intMin,
   fun w hw => (holdsFrame_of_frame24 w).encOutOfRange_eq_false_iff.mpr hw,
   (holdsFrame_of_frame24 0x800000#24).encOutOfRange_intMin, frame24_narrowed⟩

/-! DEC (41_pcm_codec R180, R184). -/

theorem exec_dec_ready {s : State} {rd rs1 : DescNo} (h : DecReady s rd rs1) :
    exec (.dec rd rs1) s = .next (finishSamples s rd rs1 (decodedSamples s rs1)) := by
  rw [exec, execDec, (dec_operands s rd rs1).mpr h, orRaise_none]

theorem getElem_readFrames (s : State) (n : DescNo) (k i : Nat) (h : i < (readFrames s n k).length) :
    (readFrames s n k)[i] = memRead s (baseOf s n + k * i) k := by
  simp [readFrames]

theorem decodedSamples_16 {s : State} {n : DescNo} (h : (s.desc n).depth = 16#8) :
    decodedSamples s n = (readFrames s n 2).map decodeFrame16 := by
  rw [decodedSamples, if_pos h]
  exact (rescaleLeavesDecodedSamples _).1

theorem decodedSamples_24 {s : State} {n : DescNo} (h : (s.desc n).depth = 24#8) :
    decodedSamples s n = (readFrames s n 3).map decodeFrame24 := by
  rw [decodedSamples, if_neg (by rw [h]; decide)]
  exact (rescaleLeavesDecodedSamples _).2

/-- Settles O19: the decoded samples are stored unrescaled, and each reads back. -/
theorem decWritesTheDecodedSamples : Obligations.DecWritesTheDecodedSamples := by
  intro s rd rs1 h
  have hlen := length_decodedSamples s rs1
  have hread (i : Nat) (hi : i < lenOf s rs1) :=
    finishSamples_sample s rd rs1 (decodedSamples s rs1) i (hlen.symm ▸ hi)
  refine ⟨_, exec_dec_ready h, finishSamples_completed s rd rs1 _ _ hlen (s.desc rs1).len.isLt, rfl,
    fun hd i hi => (hread i hi).trans ?depth16, fun hd i hi => (hread i hi).trans ?depth24⟩
  case depth16 => simp only [decodedSamples_16 hd, List.getElem_map, getElem_readFrames]
  case depth24 => simp only [decodedSamples_24 hd, List.getElem_map, getElem_readFrames]

/-! ENC (41_pcm_codec R186, R187, R189). -/

theorem exec_enc_ready {s : State} {rd rs1 : DescNo} (h : EncReady s rd rs1) : exec (.enc rd rs1) s =
    .next (orRaise (firstOffender encOutOfRange .encRange .rs1 rs1 (readSamples s rs1)) s
      (finishInto s rd (frameBytes (readSamples s rs1)) (readSamples s rs1).length (s.desc rs1).rate .pcm 16#8)) := by
  rw [exec, execEnc, (enc_operands s rd rs1).mpr h, Option.none_or]

theorem encOutOfRange_eq_false (x : F64) : encOutOfRange x = false ↔ flt (fabs x) f64One = true :=
  .of_eq (Bool.not_eq_false' _)

theorem encOutOfRange_eq_true (x : F64) : encOutOfRange x = true ↔ flt (fabs x) f64One = false :=
  .of_eq (Bool.not_eq_true' _)

/-- Settles O22: the scan names the first sample that is not below 1.0. -/
theorem encRefusesOutOfRange : Obligations.EncRefusesOutOfRange := by
  intro s rd rs1 k h hk hbad hbelow
  have hscan := firstOffender_eq_some encOutOfRange .encRange .rs1 s rs1 k hk ((encOutOfRange_eq_true _).mpr hbad)
    fun j hj => (encOutOfRange_eq_false _).mpr (hbelow j hj)
  exact ⟨_, exec_enc_ready h, by rw [hscan]; exact raiseError_failedWith s ⟨.encRange, .rs1, rs1, k⟩⟩

/-- Settles O23: the scan finds no sample, and the stored frames read back. -/
theorem encWritesTheEncodedFrames : Obligations.EncWritesTheEncodedFrames := by
  intro s rd rs1 h hbelow
  have hscan := (firstOffender_eq_none encOutOfRange .encRange .rs1 s rs1).mpr
    fun j hj => (encOutOfRange_eq_false _).mpr (hbelow j hj)
  have hlen := length_readSamples s rs1
  refine ⟨_, exec_enc_ready h, ?_⟩
  rw [hscan, orRaise_none, hlen]
  refine ⟨finishInto_completed s rd rs1 _ _ _ _ _ (hlen ▸ length_frameBytes _) (s.desc rs1).len.isLt, rfl,
    fun i hi => ?_⟩
  rw [memRead_items (fun x => (encodeSample x).toNat) (readSamples s rs1) rfl i (hlen ▸ hi), getElem_readSamples]
  exact Nat.mod_eq_of_lt (encodeSample _).isLt

/-! DEC and then ENC (41_pcm_codec R190). -/

/-- A number read from MEM holds the byte of each of its places. -/
theorem readByte_eq_of_memRead {s t : State} {n : Nat} : ∀ {a b k : Nat}, k < n → memRead t b n = memRead s a n →
    readByte t (b + k) = readByte s (a + k) := by
  induction n with
  | zero => omega
  | succ n ih =>
    intro a b k hk h
    have ha := (readByte s a).isLt
    have hb := (readByte t b).isLt
    rw [memRead, memRead] at h
    cases k with
    | zero => exact BitVec.eq_of_toNat_eq (by simp only [Nat.add_zero]; omega)
    | succ k =>
      rw [show b + (k + 1) = b + 1 + k by omega, show a + (k + 1) = a + 1 + k by omega]
      exact ih (by omega) (by omega)

/-- The round trip of a 16-bit frame as MEM holds it. -/
theorem decodeFrame16_roundTrip {v : Nat} (hv : v < 2 ^ 16) (h : v ≠ 0x8000) :
    flt (fabs (decodeFrame16 v)) f64One = true ∧ (encodeSample (decodeFrame16 v)).toNat = v := by
  have hnat : (BitVec.ofNat 16 v).toNat = v := Nat.mod_eq_of_lt hv
  obtain ⟨hrange, hsame⟩ := frame16_roundTrip (w := BitVec.ofNat 16 v) fun he =>
    h (hnat.symm.trans (congrArg BitVec.toNat he))
  rw [hnat] at hrange hsame
  exact ⟨(encOutOfRange_eq_false _).mp hrange, by rw [hsame, hnat]⟩

/-- Settles O26: ENC finds the decoded frames that DEC has stored, and each round trips or is refused. -/
theorem decThenEncGivesTheSameBytes : Obligations.DecThenEncGivesTheSameBytes := by
  intro s t rd rs1 out hdec hdepth ht henc
  obtain ⟨t', ht', ⟨-, -, -, ⟨-, -, hlen, -⟩, -⟩, -, hsample, -⟩ := decWritesTheDecodedSamples s rd rs1 hdec
  obtain rfl : t' = t := Host.Outcome.next.inj (ht'.symm.trans ht)
  replace hlen : lenOf t' rd = lenOf s rs1 := hlen
  replace hsample := hsample hdepth
  have hround (i : Nat) := decodeFrame16_roundTrip (memRead_lt s 2 (baseOf s rs1 + 2 * i))
  refine ⟨fun hframes => ?same, fun i hi hleast hbefore => ?refused⟩
  case same =>
    obtain ⟨u, hu, -, -, hencoded⟩ := encWritesTheEncodedFrames t' out rd henc fun j hj => by
      rw [hsample j (hlen ▸ hj)]
      exact (hround j (hframes j (hlen ▸ hj))).1
    refine ⟨u, hu, fun k hk => ?_⟩
    have hi : k / 2 < lenOf s rs1 := by omega
    have hread := hencoded (k / 2) (by rwa [hlen])
    rw [hsample _ hi, (hround _ (hframes _ hi)).2] at hread
    have hbyte := readByte_eq_of_memRead (Nat.mod_lt k two_pos) hread
    rwa [Nat.add_assoc, Nat.add_assoc, Nat.div_add_mod] at hbyte
  case refused =>
    refine encRefusesOutOfRange t' out rd i henc (hlen ▸ hi) ?_ fun j hj => ?_
    · rw [hsample i hi, hleast]
      exact (encOutOfRange_eq_true _).mp (holdsFrame_decodeFrame16 0x8000).encOutOfRange_intMin
    · rw [hsample j (hj.trans hi)]
      exact (hround j (hbefore j hj)).1

end Sys2Proof.Machine

/-! The convolution unit (42_convolution): the order of rounded magnitudes, what it means for a list of sums to have a
positive finite peak, and from these CONV, FIR and DECONV on ready operands. -/

namespace Sys2Proof.Machine

/-! Rounding keeps the order of magnitudes (00_scope R12). -/

theorem bitLength_mono {m n : Nat} (h : m ≤ n) : bitLength m ≤ bitLength n :=
  (bitLength_le_iff m _).mpr (h.trans_lt (lt_pow_bitLength n))

theorem roundShift_mono {m n : Nat} (k : Nat) (h : m ≤ n) : roundShift m k ≤ roundShift n k :=
  max_le_max_right k (Nat.sub_le_sub_right (bitLength_mono h) 53)

/-- A smaller number whose quotient rounded higher would have to lie half a digit above the larger one's. -/
theorem roundQuotient_mono {m n : Nat} (sh : Nat) (h : m ≤ n) : roundQuotient m sh ≤ roundQuotient n sh := by
  by_contra! hlt
  obtain ⟨hm, -⟩ := roundQuotient_near m sh
  obtain ⟨-, hn⟩ := roundQuotient_near n sh
  have hstep := Nat.mul_le_mul_right (2 ^ sh) (Nat.succ_le_of_lt hlt)
  rw [Nat.succ_mul] at hstep
  obtain rfl : m = n := by omega
  exact lt_irrefl _ hlt

/-- In one binade the significands are in order; in different ones the field of the higher binade is higher. -/
theorem roundMag_mono {m n : Nat} (k : Nat) (h : m ≤ n) : roundMag m k ≤ roundMag n k := by
  have hm := le_roundShift m k
  rcases Nat.eq_or_lt_of_le (roundShift_mono k h) with heq | hlt
  · rw [roundMag, roundMag, heq]
    exact Nat.add_le_add_left (roundQuotient_mono _ h) _
  · obtain ⟨-, htop⟩ := roundMag_parts m k
    obtain ⟨hleast, -⟩ := roundMag_parts n k
    rw [roundMag, roundMag]
    omega

theorem fmag_fround_le {neg : Bool} {m k : Nat} {y : F64} (h : m ≤ funits y * 2 ^ k) :
    fmag (fround neg m k) ≤ fmag y := by
  rw [fmag_fround, ← roundMag_exact y k]
  exact (Nat.min_le_left _ _).trans (roundMag_mono k h)

/-! Division by a positive finite number (42_convolution R227, R229). -/

theorem fkey_of_nonneg {x : F64} (h : fneg x = false) : fkey x = fmag x := if_neg (by simp [h])

theorem fkey_nonpos {x : F64} (h : fneg x = true) : fkey x ≤ 0 := by
  rw [fkey, if_pos h]
  omega

/-- What DECONV asks of a peak (42_convolution R226). -/
abbrev IsPositive (p : F64) : Prop := isFinite p = true ∧ fgt p 0#64 = true

theorem IsPositive.fields {p : F64} (h : IsPositive p) : fneg p = false ∧ 0 < fmag p := by
  obtain ⟨-, -, hkey⟩ := fgt_key.mp h.2
  rw [show fkey 0#64 = 0 by decide] at hkey
  have hneg : fneg p = false := Bool.eq_false_of_not_eq_true fun hn => (fkey_nonpos hn).not_gt hkey
  rw [fkey_of_nonneg hneg] at hkey
  exact ⟨hneg, by omega⟩

theorem IsPositive.funits_pos {p : F64} (h : IsPositive p) : 0 < funits p :=
  Nat.pos_of_ne_zero fun hz => h.fields.2.ne' (funits_eq_zero.mp hz)

/-- A number equal to a positive one is the same pattern: only zero has two. -/
theorem IsPositive.eq_of_fkey_eq {x p : F64} (h : IsPositive p) (hkey : fkey x = fkey p) : x = p := by
  obtain ⟨hneg, hpos⟩ := h.fields
  rw [fkey_of_nonneg hneg] at hkey
  have hx : fneg x = false := Bool.eq_false_of_not_eq_true fun hn => by
    have := fkey_nonpos hn
    omega
  rw [fkey_of_nonneg hx] at hkey
  exact ext_of_fields (hx.trans hneg.symm) (by omega)

theorem fdiv_positive {x p : F64} (hx : isFinite x = true) (hp : IsPositive p) :
    fdiv x p = fround (fneg x) (stickyQuotient (funits x * 2 ^ 1074 * 2) (funits p)) 2 := by
  obtain ⟨hneg, hpos⟩ := hp.fields
  rw [fdiv_finite hx hp.1 hpos.ne', hneg, Bool.bne_false]

/-- 1.0 in the quarter units that a quotient is rounded from. -/
theorem funits_one_quarters : funits f64One * 2 ^ 2 = 2 * (2 ^ 1074 * 2) := by
  rw [funits_one, pow_two, Nat.mul_left_comm]

theorem fdiv_self {p : F64} (hp : IsPositive p) : fdiv p p = f64One := by
  rw [fdiv_positive hp.1 hp, Nat.mul_assoc, Nat.mul_comm, stickyQuotient_mul _ hp.funits_pos]
  exact fround_of_funits (by decide) hp.fields.1.symm funits_one_quarters

/-- The quotient of a dividend that is not larger is rounded from a magnitude not above that of 1.0. -/
theorem fmag_fdiv_le_one {x p : F64} (hx : isFinite x = true) (hp : IsPositive p) (hle : fmag x ≤ fmag p) :
    fmag (fdiv x p) ≤ fmag f64One := by
  have hunits : funits x ≤ funits p := Nat.not_lt.mp fun h => (funits_lt_iff.mp h).not_ge hle
  rw [fdiv_positive hx hp]
  apply fmag_fround_le
  rw [funits_one_quarters, stickyQuotient_le_iff hp.funits_pos, Nat.mul_assoc, Nat.mul_comm]
  exact Nat.mul_le_mul_left _ hunits

/-- A dividend that is below a finite number and not finite is -infinity. -/
theorem eq_finf_of_fle {x p : F64} (hp : isFinite p = true) (hle : fle x p = true) (hx : ¬ isFinite x = true) :
    x = finf true := by
  obtain ⟨hnan, -, hkey⟩ := fle_key.mp hle
  have hmag : fmag x = 2047 * 2 ^ 52 := by
    rw [isFinite_iff] at hx
    rw [isNaN_false_iff] at hnan
    omega
  have hhigh : fkey p < (2047 * 2 ^ 52 : Nat) := (fkey_finite hp).2.trans_eq (by decide)
  refine ext_of_fields ?_ hmag
  by_contra hneg
  rw [fkey_of_nonneg (Bool.eq_false_of_not_eq_true hneg), hmag] at hkey
  exact hkey.not_gt hhigh

theorem fdiv_finf {p : F64} (hp : IsPositive p) (neg : Bool) : fdiv (finf neg) p = finf neg := by
  have hinf : isInf (finf neg) = true ∧ fneg (finf neg) = neg := by cases neg <;> decide
  simp [fdiv, isNaN_finf, hinf, isNaN_of_isFinite hp.1, isInf_of_isFinite hp.1, hp.fields]

/-- A finite dividend gives a quotient of its own sign, and -infinity gives -infinity. -/
theorem fdiv_le_one {x p : F64} (hp : IsPositive p) (hle : fle x p = true) : fle (fdiv x p) f64One = true := by
  obtain ⟨-, -, hkey⟩ := fle_key.mp hle
  by_cases hx : isFinite x = true
  case neg =>
    rw [eq_finf_of_fle hp.1 hle hx, fdiv_finf hp]
    decide
  case pos =>
    have hnan : isNaN (fdiv x p) = false := by rw [fdiv_positive hx hp, isNaN_fround]
    have hsign : fneg (fdiv x p) = fneg x := by rw [fdiv_positive hx hp, fneg_fround]
    refine fle_key.mpr ⟨hnan, by decide, ?_⟩
    cases hneg : fneg x with
    | true => exact (fkey_nonpos (hsign.trans hneg)).trans (by decide)
    | false =>
      rw [fkey_of_nonneg hneg, fkey_of_nonneg hp.fields.1, Nat.cast_le] at hkey
      rw [fkey_of_nonneg (hsign.trans hneg), fkey_of_nonneg (by decide), Nat.cast_le]
      exact fmag_fdiv_le_one hx hp hkey

/-! The peak (42_convolution R226). -/

/-- A sum that is finite, above 0 and at least every other. -/
abbrev IsPeak (c : List F64) (p : F64) : Prop := p ∈ c ∧ IsPositive p ∧ ∀ x ∈ c, fle x p = true

theorem IsPeak.not_isNaN {c : List F64} {p : F64} (h : IsPeak c p) : ∀ x ∈ c, isNaN x = false :=
  fun x hx => (fle_key.mp (h.2.2 x hx)).1

/-- A list has at most one such pattern, and it is the one that the search answers. -/
theorem IsPeak.peakOf_eq {c : List F64} {p : F64} (h : IsPeak c p) : peakOf c = p := by
  have hnan := h.not_isNaN
  obtain ⟨hmem, hpos, hmax⟩ := h
  obtain ⟨hpmem, hpmax⟩ := peakOf_spec (List.ne_nil_of_mem hmem) hnan
  obtain ⟨-, -, hle⟩ := fle_key.mp (hmax _ hpmem)
  obtain ⟨-, -, hge⟩ := fle_key.mp (hpmax _ hmem)
  exact hpos.eq_of_fkey_eq (le_antisymm hle hge)

theorem peakDegenerate_eq_false_iff (c : List F64) :
    peakDegenerate c = false ↔ (∀ x ∈ c, isNaN x = false) ∧ IsPositive (peakOf c) := by
  simp [peakDegenerate, show fzero false = 0#64 from rfl]

/-- The model's test is that of R226: DECONV normalizes exactly the lists that have a peak. -/
theorem peakDegenerate_eq_false_iff_exists (c : List F64) : peakDegenerate c = false ↔ ∃ p, IsPeak c p := by
  rw [peakDegenerate_eq_false_iff]
  constructor
  · rintro ⟨hnan, hpos⟩
    have hne : c ≠ [] := by
      rintro rfl
      exact absurd hpos.2 (by decide)
    obtain ⟨hmem, hmax⟩ := peakOf_spec hne hnan
    exact ⟨peakOf c, hmem, hpos, hmax⟩
  · rintro ⟨p, hp⟩
    exact ⟨hp.not_isNaN, hp.peakOf_eq ▸ hp.2.1⟩

/-- Settles O33: division by the peak keeps the order below it, and takes the peak itself to 1.0. -/
theorem normalizedPeakIsOne : Obligations.NormalizedPeakIsOne := by
  intro c _ hc
  obtain ⟨p, hp⟩ := (peakDegenerate_eq_false_iff_exists c).mp hc
  rw [hp.peakOf_eq]
  obtain ⟨hmem, hpos, hmax⟩ := hp
  refine ⟨hmem, hmax, fun x hx => fdiv_le_one hpos (hmax x hx), fun x _ heq => ?_⟩
  obtain ⟨-, -, hkey⟩ := feq_key.mp heq
  rw [hpos.eq_of_fkey_eq hkey, fdiv_self hpos]

/-! CONV (42_convolution R211 to R214). -/

/-- Check 7 of a source (40_command_execution R145). -/
theorem lenOf_pos {s : State} {n : DescNo} {k : BufKind} {chanRate : Bool} (h : SourceReady s n k chanRate true) :
    0 < lenOf s n := by
  obtain ⟨-, -, -, -, -, -, hnonempty, -⟩ := h
  exact hnonempty rfl

/-- What CONV asks of a sample (42_convolution R212). -/
abbrev InBounds (x : F64) : Prop := fge x f64MinusOne = true ∧ fle x f64One = true

theorem outOfBounds_eq_false (x : F64) : outOfBounds x = false ↔ InBounds x := by
  simp [outOfBounds]

theorem outOfBounds_eq_true (x : F64) : outOfBounds x = true ↔ ¬ InBounds x := by
  rw [← outOfBounds_eq_false, Bool.not_eq_false]

/-- The scan of a buffer that stays in bounds finds nothing. -/
theorem amplitudeScan_passes (r : Role) (s : State) (n : DescNo) (h : ∀ j < lenOf s n, InBounds (sampleOf s n j)) :
    firstOffender outOfBounds .amplitudeBounds r n (readSamples s n) = none :=
  (firstOffender_eq_none ..).mpr fun j hj => (outOfBounds_eq_false _).mpr (h j hj)

theorem amplitudeScan_finds (r : Role) (s : State) (n : DescNo) {k : Nat} (hk : k < lenOf s n)
    (hbad : ¬ InBounds (sampleOf s n k)) (h : ∀ j < k, InBounds (sampleOf s n j)) :
    firstOffender outOfBounds .amplitudeBounds r n (readSamples s n) = some ⟨.amplitudeBounds, r, n, k⟩ :=
  firstOffender_eq_some _ _ r s n k hk ((outOfBounds_eq_true _).mpr hbad)
    fun j hj => (outOfBounds_eq_false _).mpr (h j hj)

section
variable {s : State} {rd rs1 rs2 : DescNo}

theorem exec_conv_ready (h : ConvReady s rd rs1 rs2) : exec (.conv rd rs1 rs2) s =
    .next (orRaise (amplitudeError rs1 rs2 (readSamples s rs1) (readSamples s rs2)) s
      (finishSamples s rd rs1 (convOut (readSamples s rs1) (readSamples s rs2)))) := by
  rw [exec, execConv, (conv_operands s rd rs1 rs2).mpr h, Option.none_or]

theorem exec_conv_amplitude {r : Role} {n : DescNo} {k : Nat} (h : ConvReady s rd rs1 rs2)
    (he : amplitudeError rs1 rs2 (readSamples s rs1) (readSamples s rs2) = some ⟨.amplitudeBounds, r, n, k⟩) :
    ∃ t, exec (.conv rd rs1 rs2) s = .next t ∧ FailedWith s t 0x21 r.code.toNat n.val k :=
  ⟨_, exec_conv_ready h, by rw [he]; exact raiseError_failedWith s ⟨.amplitudeBounds, r, n, k⟩⟩

end

/-- Settles O27: the scan of the source comes first, and that of the impulse decides when it finds nothing. -/
theorem convRefusesOutOfBounds : Obligations.ConvRefusesOutOfBounds := by
  intro s rd rs1 rs2 hready ok
  refine ⟨fun k hk hbad hbefore => ?source, fun hsource k hk hbad hbefore => ?impulse⟩
  case source =>
    exact exec_conv_amplitude hready (r := .rs1)
      (by rw [amplitudeError, amplitudeScan_finds .rs1 s rs1 hk hbad hbefore, Option.some_or])
  case impulse =>
    exact exec_conv_amplitude hready (r := .rs2)
      (by rw [amplitudeError, amplitudeScan_passes .rs1 s rs1 hsource, Option.none_or,
        amplitudeScan_finds .rs2 s rs2 hk hbad hbefore])

/-- Settles O28: both scans find nothing, and the stored sums read back. -/
theorem convWritesTheAttenuatedSums : Obligations.ConvWritesTheAttenuatedSums := by
  intro s rd rs1 rs2 hready hsource himpulse
  have hamplitude : amplitudeError rs1 rs2 (readSamples s rs1) (readSamples s rs2) = none := by
    rw [amplitudeError, amplitudeScan_passes .rs1 s rs1 hsource, amplitudeScan_passes .rs2 s rs2 himpulse]
    rfl
  have ⟨_, hsecond, _⟩ := hready
  have hlen : (convOut (readSamples s rs1) (readSamples s rs2)).length = lenOf s rs1 := by simp
  refine ⟨_, exec_conv_ready hready, ?_⟩
  rw [hamplitude, orRaise_none]
  refine ⟨finishSamples_completed s rd rs1 _ _ hlen (s.desc rs1).len.isLt, finishSamples_draws .., fun n hn => ?_⟩
  rw [finishSamples_sample s rd rs1 _ n (hlen.symm ▸ hn), getElem_convOut s rs1 rs2 n hn (lenOf_pos hsecond)]
  rfl

/-! FIR (42_convolution R220 to R223). -/

theorem exec_fir_ready {s : State} {rd rs1 rs2 : DescNo} (h : FirReady s rd rs1 rs2) :
    exec (.fir rd rs1 rs2) s = .next (firEffect rd rs1 rs2 s) := by
  rw [exec, execFir, (fir_operands s rd rs1 rs2).mpr h, orRaise_none]
  rfl

/-- FIR's effect differs from storing its result by the counter of draws alone. -/
theorem firEffect_sample (rd rs1 rs2 : DescNo) (s : State) (n : Nat)
    (hn : n < (replaceNans s.draws (firOut (readSamples s rs1) (readSamples s rs2))).length) :
    sampleOf (firEffect rd rs1 rs2 s) rd n =
      (replaceNans s.draws (firOut (readSamples s rs1) (readSamples s rs2)))[n] :=
  (sampleOf_congr (firEffect_mem rd rs1 rs2 s) (firEffect_descs rd rs1 rs2 s) rd n).trans
    (finishSamples_sample s rd rs1 _ n hn)

/-- The counter of draws is no part of what a completed command is held to. -/
theorem completedInto_draws {s t : State} {rd rs1 : DescNo} {len n : Nat} {kind : BufKind} {depth : BitVec 8}
    (h : CompletedInto s t rd rs1 len n kind depth) (draws : Nat) :
    CompletedInto s { t with draws := draws } rd rs1 len n kind depth := h

theorem firEffect_completed (rd rs1 rs2 : DescNo) (s : State) :
    CompletedInto s (firEffect rd rs1 rs2 s) rd rs1 (lenOf s rs1) (8 * lenOf s rs1) .sample (s.desc rs1).depth :=
  completedInto_draws (finishSamples_completed s rd rs1 _ _ (by simp) (s.desc rs1).len.isLt) _

/-- Settles O29: a stored number is its sum, and a stored NaN is a draw of NAN_OUT. -/
theorem firWritesTheSums : Obligations.FirWritesTheSums := by
  intro s rd rs1 rs2 hready
  have ⟨_, hsecond, _⟩ := hready
  refine ⟨_, exec_fir_ready hready, firEffect_completed rd rs1 rs2 s, fun n hn => ?_⟩
  obtain ⟨hnumber, hnan⟩ := getElem_replaceNans s.draws (firOut (readSamples s rs1) (readSamples s rs2)) n
    (by simpa using hn)
  rw [getElem_firOut s rs1 rs2 n hn (lenOf_pos hsecond)] at hnumber hnan
  rw [firEffect_sample rd rs1 rs2 s n (by simpa using hn)]
  refine ⟨hnumber, fun h => ?_⟩
  obtain ⟨j, hj⟩ := hnan h
  rw [hj]
  exact nanOut_quiet j

/-! DECONV (42_convolution R224 to R228). -/

/-- Settles O32: the mode bit selects no other computation. -/
theorem deconvModesAgree : Obligations.DeconvModesAgree := fun s rd rs1 rs2 =>
  (exec_deconvT_eq rd rs1 rs2 s).trans (exec_deconvF_eq rd rs1 rs2 s).symm

section
variable {s : State} {rd rs1 rs2 : DescNo}

theorem getElem_deconvSumsOf (h : DeconvReady s rd rs1 rs2) {k : Nat} (hk : k < (deconvSumsOf s rs1 rs2).length) :
    (deconvSumsOf s rs1 rs2)[k] = deconvSum s rs1 rs2 k := by
  obtain ⟨hresponse, hexcitation, -⟩ := h
  exact getElem_deconvSums s rs1 rs2 k (lenOf_pos hresponse) (lenOf_pos hexcitation) hk

/-- The list that DECONV computes holds the sums of R225 in order. -/
theorem deconvSumsOf_eq (h : DeconvReady s rd rs1 rs2) :
    deconvSumsOf s rs1 rs2 = (List.range (lenOf s rs1 + lenOf s rs2 - 1)).map (deconvSum s rs1 rs2) :=
  List.ext_getElem (by simp) fun _ hk _ => by rw [getElem_deconvSumsOf h hk, List.getElem_map, List.getElem_range]

/-- A peak of the list, said of the sums. -/
theorem isPeak_deconvSumsOf (h : DeconvReady s rd rs1 rs2) (p : F64) : IsPeak (deconvSumsOf s rs1 rs2) p ↔
    ∃ k0 < lenOf s rs1 + lenOf s rs2 - 1, deconvSum s rs1 rs2 k0 = p ∧ IsPositive p ∧
      ∀ j < lenOf s rs1 + lenOf s rs2 - 1, fle (deconvSum s rs1 rs2 j) p = true := by
  rw [IsPeak, deconvSumsOf_eq h, List.forall_mem_map]
  simp only [List.mem_map, List.mem_range, ← exists_and_right, and_assoc]

theorem deconvolve_of_peak (h : DeconvReady s rd rs1 rs2) {p : F64} (hp : IsPeak (deconvSumsOf s rs1 rs2) p) :
    deconvolve rd rs1 rs2 s = finishSamples s rd rs1 (normalize (deconvSumsOf s rs1 rs2)) := by
  have hpeak := (peakDegenerate_eq_false_iff_exists _).mpr ⟨p, hp⟩
  rw [deconvolve_eq, (deconv_operands s rd rs1 rs2).mpr h, orRaise_none, hpeak, if_neg Bool.false_ne_true]

theorem deconvolve_of_no_peak (h : DeconvReady s rd rs1 rs2) (hp : ¬ ∃ p, IsPeak (deconvSumsOf s rs1 rs2) p) :
    deconvolve rd rs1 rs2 s =
      raiseError (peakError rd) (drawRange s (baseOf s rd) (8 * (lenOf s rs1 + lenOf s rs2 - 1))) := by
  have hpeak : peakDegenerate (deconvSumsOf s rs1 rs2) = true :=
    Bool.of_not_eq_false fun hf => hp ((peakDegenerate_eq_false_iff_exists _).mp hf)
  rw [deconvolve_eq, (deconv_operands s rd rs1 rs2).mpr h, orRaise_none, if_pos hpeak, length_deconvSumsOf]

theorem getElem_normalize (sums : List F64) {k : Nat} (hk : k < (normalize sums).length) :
    (normalize sums)[k] = fdiv (sums[k]'(length_normalize sums ▸ hk)) (peakOf sums) :=
  List.getElem_map ..

theorem exec_deconv_next {t : State} (h : deconvolve rd rs1 rs2 s = t) :
    exec (.deconvT rd rs1 rs2) s = .next t ∧ exec (.deconvF rd rs1 rs2) s = .next t :=
  ⟨by rw [exec_deconvT_eq, h], by rw [exec_deconvF_eq, h]⟩

/-- The output fits the destination, so its length is a 32-bit number. -/
theorem deconv_length_lt (h : DeconvReady s rd rs1 rs2) : lenOf s rs1 + lenOf s rs2 - 1 < 2 ^ 32 := by
  obtain ⟨-, -, -, ⟨-, -, hfits⟩, -⟩ := h
  have hcap : capOf s rd < 2 ^ 32 := (s.desc rd).cap.isLt
  omega

end

/-- Settles O30: the given sum is the peak, and the stored quotients read back. -/
theorem deconvWritesTheNormalizedSums : Obligations.DeconvWritesTheNormalizedSums := by
  intro s rd rs1 rs2 k0 hready hk0 hfin hpos hmax
  have hp := (isPeak_deconvSumsOf hready _).mpr ⟨k0, hk0, rfl, ⟨hfin, hpos⟩, hmax⟩
  have hlen : (normalize (deconvSumsOf s rs1 rs2)).length = lenOf s rs1 + lenOf s rs2 - 1 := by simp
  obtain ⟨htime, hfreq⟩ := exec_deconv_next (deconvolve_of_peak hready hp)
  refine ⟨_, htime, hfreq, finishSamples_completed s rd rs1 _ _ hlen (deconv_length_lt hready),
    finishSamples_draws .., fun k hk => ?_⟩
  rw [finishSamples_sample s rd rs1 _ k (hlen.symm ▸ hk), getElem_normalize, hp.peakOf_eq,
    getElem_deconvSumsOf hready]

/-- Settles O31: the list has no peak, and the error is raised after the bytes of U_out are drawn. -/
theorem deconvRefusesDegeneratePeak : Obligations.DeconvRefusesDegeneratePeak := by
  intro s rd rs1 rs2 hready hnone
  have hpeak : ¬ ∃ p, IsPeak (deconvSumsOf s rs1 rs2) p := fun ⟨p, hp⟩ => by
    obtain ⟨k0, hk0, rfl, ⟨hfin, hpos⟩, hmax⟩ := (isPeak_deconvSumsOf hready p).mp hp
    exact hnone ⟨k0, hk0, hfin, hpos, hmax⟩
  obtain ⟨htime, hfreq⟩ := exec_deconv_next (deconvolve_of_no_peak hready hpeak)
  refine ⟨_, htime, hfreq, ?recorded, fun x hx => ?outside⟩
  case recorded => exact (raiseError_failedWith _ (peakError rd)).1
  case outside =>
    rw [readByte_congr (raiseError_mem _ _)]
    exact readByte_outside (drawRange_mem s _ _) (by rwa [length_drawnBytes])

end Sys2Proof.Machine

/-! The correlation unit (43_correlation): XCORR on ready operands as a search of the list of correlations, the two outcomes
of that search, and the correlations of all-zero buffers. -/

namespace Sys2Proof.Machine

/-! The list of correlations (43_correlation R251, R252). -/

/-- The correlations of R251 over the samples in MEM, in the order of the window. -/
def corrSums (s : State) (x y : DescNo) : List F64 := (List.range (lenOf s x)).map (corrSum s x y)

@[simp] theorem length_corrSums (s : State) (x y : DescNo) : (corrSums s x y).length = lenOf s x := by simp [corrSums]

theorem getElem_corrSums (s : State) (x y : DescNo) {j : Nat} (hj : j < (corrSums s x y).length) :
    (corrSums s x y)[j] = corrSum s x y j := by
  simp only [corrSums, List.getElem_map, List.getElem_range]

theorem sampleAt_corrSums (s : State) (x y : DescNo) {j : Nat} (hj : j < lenOf s x) :
    sampleAt (corrSums s x y) j = corrSum s x y j := by
  have hlen : j < (corrSums s x y).length := by simpa using hj
  rw [sampleAt, List.getD_eq_getElem _ _ hlen, getElem_corrSums]

/-- On buffers of one length the list that XCORR computes is that of R251. -/
theorem correlations_readSamples (s : State) (x y : DescNo) (hxy : lenOf s x = lenOf s y) :
    correlations (readSamples s x) (readSamples s y) = corrSums s x y :=
  List.ext_getElem (by simp) fun j hj _ => by rw [getElem_correlations s x y j hxy hj, getElem_corrSums]

/-! The NaN check (43_correlation R253). -/

theorem nanError_corrSums_passes {s : State} {x y : DescNo}
    (h : ∀ i < lenOf s x, isNaN (corrSum s x y i) = false) : nanError (corrSums s x y) = none := by
  rw [nanError, Option.map_eq_none_iff, List.findIdx?_eq_none_iff, corrSums, List.forall_mem_map]
  exact fun i hi => h i (List.mem_range.mp hi)

theorem nanError_corrSums_finds {s : State} {x y : DescNo} {j : Nat} (hj : j < lenOf s x)
    (hnan : isNaN (corrSum s x y j) = true) (hbefore : ∀ i < j, isNaN (corrSum s x y i) = false) :
    nanError (corrSums s x y) = some (plainError .numericNan j) := by
  have hfirst : (corrSums s x y).findIdx? isNaN = some j := by
    rw [List.findIdx?_eq_some_iff_getElem]
    refine ⟨by simpa using hj, by rwa [getElem_corrSums], fun i hi => ?_⟩
    rw [getElem_corrSums, hbefore i hi]
    exact Bool.false_ne_true
  rw [nanError, hfirst, Option.map_some]

/-! XCORR on ready operands (43_correlation R250). -/

theorem exec_xcorr_ready {s : State} {rs1 rs2 : DescNo} (h : XcorrReady s rs1 rs2) : exec (.xcorr rs1 rs2) s =
    .next (orRaise (nanError (corrSums s rs1 rs2)) s
      (finishLag s (lagAt (lenOf s rs1) (bestPosition (corrSums s rs1 rs2))))) := by
  have ⟨_, _, _, hlen⟩ := h
  rw [exec, execXcorr, (xcorr_operands s rs1 rs2).mpr h, Option.none_or,
    correlations_readSamples s rs1 rs2 (congrArg BitVec.toNat hlen), length_corrSums]

/-- Settles O34: the check answers the first NaN of the list. -/
theorem xcorrRefusesNan : Obligations.XcorrRefusesNan := by
  intro s rs1 rs2 j hready hj hnan hbefore
  refine ⟨_, exec_xcorr_ready hready, ?_⟩
  rw [nanError_corrSums_finds hj hnan hbefore]
  exact raiseError_failedWith s (plainError .numericNan j)

/-- Every lag of the window is a signed 32-bit number, so LAG holds it exactly (43_correlation R255). -/
theorem toInt_lagAt {n j : Nat} (hn : n < 2 ^ 32) (hj : j < n) :
    (BitVec.ofInt 32 (lagAt n j)).toInt = (j : Int) - ((n / 2 : Nat) : Int) := by
  rw [lagAt]
  exact BitVec.toInt_ofInt_eq_self (by decide) (by omega) (by omega)

theorem finishLag_sameControl (s : State) (lag : Int) : SameControl s (finishLag s lag) :=
  ⟨rfl, rfl, rfl, rfl, rfl, rfl, rfl, rfl, rfl, rfl, rfl, rfl, rfl⟩

/-- Settles O35: a correlation that is at least every other one leaves no NaN in the list, and the search answers its
position when it is above those before it. -/
theorem xcorrWritesTheBestLag : Obligations.XcorrWritesTheBestLag := by
  intro s rs1 rs2 j hready hj habove hmax
  have hnan : nanError (corrSums s rs1 rs2) = none := nanError_corrSums_passes fun i hi => (fle_key.mp (hmax i hi)).1
  have hat := fun i (hi : i < lenOf s rs1) => sampleAt_corrSums s rs1 rs2 hi
  have hbest : bestPosition (corrSums s rs1 rs2) = j := by
    refine bestPosition_eq _ j (by simpa using hj) (fun i hi => ?_) fun i hi => ?_
    · rw [hat i (hi.trans hj), hat j hj]
      exact habove i hi
    · rw [length_corrSums] at hi
      rw [hat i hi, hat j hj]
      exact hmax i hi
  refine ⟨_, exec_xcorr_ready hready, ?_⟩
  rw [hnan, orRaise_none, hbest]
  exact ⟨⟨rfl, rfl⟩, toInt_lagAt (s.desc rs1).len.isLt hj, finishLag_sameControl s _, rfl, rfl, rfl⟩

/-! Correlations of zeros. -/

theorem fadd_zero_zero : fadd 0#64 0#64 = 0#64 := by decide

theorem fmul_zero_zero : fmul 0#64 0#64 = 0#64 := by
  rw [fmul_finite (by decide) (by decide)]
  refine fround_of_funits (by decide) (by decide) ?_
  rw [show funits 0#64 = 0 by decide, Nat.zero_mul, Nat.zero_mul]

/-- The left fold of R13 over zeros stays at +0.0. -/
theorem fsum_replicate_zero : ∀ n, fsum (List.replicate n 0#64) = 0#64
  | 0 => rfl
  | 1 => rfl
  | n + 2 => by
    rw [List.replicate_succ, List.replicate_succ, fsum, List.foldl_cons, fadd_zero_zero]
    exact fsum_replicate_zero (n + 1)

theorem fsum_map_zero {l : List Nat} {f : Nat → F64} (h : ∀ n ∈ l, f n = 0#64) : fsum (l.map f) = 0#64 := by
  rw [List.map_eq_replicate_iff.mpr h, fsum_replicate_zero]

/-- Each product of R251 takes its two samples from inside the buffers. -/
theorem corrSum_of_zeros {s : State} {x y : DescNo} (hx : ∀ i < lenOf s x, sampleOf s x i = 0#64)
    (hy : ∀ i < lenOf s x, sampleOf s y i = 0#64) (j : Nat) : corrSum s x y j = 0#64 := by
  rw [corrSum]
  split
  · refine fsum_map_zero fun n hn => ?_
    obtain ⟨hlow, hhigh⟩ := List.mem_range'_1.mp hn
    rw [hx n (by omega), hy _ (by omega), fmul_zero_zero]
  · refine fsum_map_zero fun n hn => ?_
    have hhigh := List.mem_range.mp hn
    rw [hx n (by omega), hy _ (by omega), fmul_zero_zero]

/-- Settles O36: all correlations tie, and none lies before position 0. -/
theorem xcorrOfZerosGivesTheSmallestLag : Obligations.XcorrOfZerosGivesTheSmallestLag := by
  intro s rs1 rs2 hready hx hy
  have hpos : 0 < lenOf s rs1 := lenOf_pos hready.1
  have hzero := corrSum_of_zeros hx hy
  obtain ⟨t, ht, hcounted, hlag, -⟩ := xcorrWritesTheBestLag s rs1 rs2 0 hready hpos
    (fun i hi => absurd hi (Nat.not_lt_zero i))
    (fun i _ => by rw [hzero i, hzero 0]; decide)
  exact ⟨t, ht, hcounted, by rw [hlag, Nat.cast_zero, Int.zero_sub]⟩

end Sys2Proof.Machine

/-! Errors and the interrupt (60_exceptions): the error codes, what a failing command leaves unchanged, and the level of irq
after each event that moves it. -/

namespace Sys2Proof.Machine

/-! Errors (60_exceptions R271 to R273). -/

/-- Settles O13: the twenty codes, evaluated. -/
theorem errorCodesAreTheTable : Obligations.ErrorCodesAreTheTable := by
  unfold Obligations.ErrorCodesAreTheTable
  decide

/-- Settles O14: the error word holds the three numbers in their fields, and `raiseError` writes nothing else. -/
theorem raisingRecordsTheError : Obligations.RaisingRecordsTheError := fun e s => raiseError_failedWith s e

theorem raiseError_kept (e : CmdError) (s : State) : KeptByError s (raiseError e s) := by
  obtain ⟨⟨-, -, -, -, hkept⟩, -⟩ := raiseError_failedWith s e
  exact hkept

/-- Drawing bytes changes MEM and the counter of draws, which `KeptByError` leaves out. -/
theorem raiseError_drawRange_kept (e : CmdError) (s : State) (a n : Nat) :
    KeptByError s (raiseError e (drawRange s a n)) := raiseError_kept e (drawRange s a n)

section
variable {i : Instr} {s t : State}

/-- Completion moves CMD_PTR, so a command that keeps it has failed: its error is all that is recorded, or it is DECONV's
degenerate peak, found after bytes of the destination were drawn (60_exceptions R273). -/
theorem Did.failed (h : Did s t) (hp : t.cmdPtr = s.cmdPtr) :
    (∃ e, t = raiseError e s) ∨ ∃ rd n, t = raiseError (peakError rd) (drawRange s (baseOf s rd) n) := by
  cases h with
  | raised e h => exact .inl ⟨e, h⟩
  | degenerate rd n _ h => exact .inr ⟨rd, n, h⟩
  | halted h | counted h => subst h; exact absurd hp (cmdPtr_add_ne s.cmdPtr)
  | stored _ _ _ _ _ _ _ _ h => subst h; exact absurd hp (cmdPtr_add_ne s.cmdPtr)
  | lagged _ _ _ _ _ h => subst h; exact absurd hp (cmdPtr_add_ne s.cmdPtr)

theorem Did.failed_kept (h : Did s t) (hp : t.cmdPtr = s.cmdPtr) : t.err = true ∧ KeptByError s t := by
  rcases h.failed hp with ⟨e, rfl⟩ | ⟨rd, n, rfl⟩
  · exact ⟨rfl, raiseError_kept e s⟩
  · exact ⟨rfl, raiseError_drawRange_kept _ s _ n⟩

/-- Only the degenerate peak is found after a byte of MEM has changed. -/
theorem Did.failed_mem (h : Did s t) (hp : t.cmdPtr = s.cmdPtr) (hc : t.errCode.toNat % 256 ≠ 0x25) :
    t.mem = s.mem := by
  rcases h.failed hp with ⟨e, rfl⟩ | ⟨rd, n, rfl⟩
  · rfl
  · exact absurd (errorWord_code (peakError rd)) hc

end

/-- Settles O15: a failing command has recorded its error alone, or a degenerate peak and bytes of U_out. -/
theorem errorsArePrecise : Obligations.ErrorsArePrecise := by
  intro i s t h hp
  have hd := exec_did h
  exact ⟨(hd.failed_kept hp).2, hd.failed_mem hp, fun _ => (exec_effect h).memSameOutside⟩

/-! The irq output (60_exceptions R275, R276). -/

section
variable {s t : State}

theorem irq_iff (s : State) :
    s.irq = true ↔ (s.done = true ∧ s.doneIe = true) ∨ (s.err = true ∧ s.errIe = true) := by simp [State.irq]

theorem irq_clearFlags (v : Word) (s : State) : (clearFlags v s).irq = true ↔
    (s.done = true ∧ s.doneIe = true ∧ v.getLsbD 1 = false) ∨ (s.err = true ∧ s.errIe = true ∧ v.getLsbD 2 = false) := by
  simp only [irq_iff, clearFlags_done, clearFlags_err, clearFlags_doneIe, clearFlags_errIe, Bool.and_eq_true,
    Bool.not_eq_true', and_assoc, and_comm (a := v.getLsbD _ = false)]

theorem irq_setIrqEn (v : Word) (s : State) : (setIrqEn v s).irq = true ↔
    (s.done = true ∧ v.getLsbD 1 = true) ∨ (s.err = true ∧ v.getLsbD 2 = true) := irq_iff _

theorem irq_startRun (s : State) : (startRun s).irq = false := irq_eq_false rfl rfl

theorem irq_resetMachine (s : State) : (resetMachine s).irq = false := irq_eq_false rfl rfl

/-- START while idle drops irq, alone or with SRST, which then decides (10_state R46). -/
theorem irq_ctrlWrite_start {v : Word} (h0 : v.getLsbD 0 = true) (hb : s.busy = false) :
    (hostWriteCtrl v s).irq = false := by
  cases h1 : v.getLsbD 1 with
  | true => rw [hostWriteCtrl_srst h1, irq_resetMachine]
  | false => rw [hostWriteCtrl_start h1 h0 hb, irq_startRun]

theorem irq_halted (s : State) : (haltFlags (complete s)).irq = true ↔
    s.doneIe = true ∨ (s.err = true ∧ s.errIe = true) := by simp [irq_iff]

theorem Did.failed_irq (h : Did s t) (hp : t.cmdPtr = s.cmdPtr) :
    t.irq = true ↔ s.errIe = true ∨ (s.done = true ∧ s.doneIe = true) := by
  obtain ⟨herr, -, -, hdone, hdoneIe, herrIe, -⟩ := h.failed_kept hp
  rw [irq_iff, herr, hdone, hdoneIe, herrIe, or_comm]
  simp

/-- The enable bits are as they were. -/
abbrev SameEnables (s t : State) : Prop := t.doneIe = s.doneIe ∧ t.errIe = s.errIe

theorem exec_sameEnables {i : Instr} (h : exec i s = .next t) : SameEnables s t := by
  obtain ⟨hdoneIe, herrIe, -⟩ := (exec_effect h).fixed
  exact ⟨hdoneIe, herrIe⟩

theorem runDecoded_sameEnables {c : Except DecodeError Instr} (h : runDecoded c s = .next t) : SameEnables s t := by
  cases c with
  | ok i => exact exec_sameEnables h
  | error e => cases h; exact ⟨rfl, rfl⟩

theorem scrambleOut_sameEnables (c : Except DecodeError Instr) (s t : State) : SameEnables t (scrambleOut c s t) := by
  unfold scrambleOut
  split
  · split <;> exact ⟨rfl, rfl⟩
  · exact ⟨rfl, rfl⟩

/-- No turn of the engine writes IRQ_EN. -/
theorem engineTurn_sameEnables (h : engineTurn s = .next t) : SameEnables s t := by
  cases hb : s.busy with
  | false => rw [engineTurn_idle hb] at h; cases h; exact ⟨rfl, rfl⟩
  | true =>
    rw [engineTurn_busy hb] at h
    rcases engineStep_cases h with ⟨e, _, rfl⟩ | ⟨_, _, hrun⟩ | ⟨_, _, u, hrun, rfl⟩
    · exact ⟨rfl, rfl⟩
    · exact runDecoded_sameEnables hrun
    · obtain ⟨hdoneIe, herrIe⟩ := scrambleOut_sameEnables (runningDecoded s) (racedStart s) u
      obtain ⟨hdoneIe', herrIe'⟩ := runDecoded_sameEnables hrun
      exact ⟨hdoneIe.trans hdoneIe', herrIe.trans herrIe'⟩

theorem irq_iff_of_sameEnables (h : SameEnables s t) :
    t.irq = true ↔ (t.done = true ∧ s.doneIe = true) ∨ (t.err = true ∧ s.errIe = true) := by
  obtain ⟨hdoneIe, herrIe⟩ := h
  rw [irq_iff, hdoneIe, herrIe]

end

/-- Settles O45: each event by what it does to the two flags and their enable bits. -/
theorem irqRisesAndFalls : Obligations.IrqRisesAndFalls := by
  refine ⟨fun s t rest v h => ⟨fun hn => ?status, fun hn => ?irqEn, fun hn h0 hb => ?start, fun hn h1 => ?softReset,
    fun hn => ?reset⟩, fun s t h => ?halt, fun i s t h hp => ?failed, fun s t hn h => ?engine⟩
  case status =>
    cases h.symm.trans (step_regWrite hn rfl)
    exact irq_clearFlags v { s with inbox := rest }
  case irqEn =>
    cases h.symm.trans (step_regWrite hn rfl)
    exact irq_setIrqEn v { s with inbox := rest }
  case start =>
    cases h.symm.trans (step_ctrlWrite hn)
    exact irq_ctrlWrite_start h0 hb
  case softReset =>
    cases h.symm.trans (step_ctrlWrite hn)
    rw [hostWriteCtrl_srst h1, irq_resetMachine]
  case reset =>
    cases h.symm.trans (step_reset hn)
    exact irq_resetMachine _
  case halt =>
    rw [exec_halt_cases h]
    exact irq_halted s
  case failed => exact (exec_did h).failed_irq hp
  case engine => exact irq_iff_of_sameEnables (engineTurn_sameEnables (step_nil hn ▸ h))

end Sys2Proof.Machine
